-- ==== Sys2Proof/Word.lean ====
section
/-! DEFINITION. The word types of TPG: the byte of the tape image, the field widths of the container,
and the width of a sink tick argument (spec/00_scope.md R9, R12, R14). -/

namespace Sys2Proof

/-- One byte of the tape image (R50); bit 0 is its least significant bit (R9). -/
abbrev Byte := BitVec 8

/-- A 16-bit field: a pulse length, a pulse count, a pause, a loop count. -/
abbrev Half := BitVec 16

/-- A 24-bit field: a payload length (R22). -/
abbrev Word24 := BitVec 24

/-- A 32-bit field: a length or a total. -/
abbrev Word32 := BitVec 32

/-- The 64-bit argument of `advance` and the width of the tick read-back (R14). -/
abbrev Ticks64 := BitVec 64

end Sys2Proof
end

