-- ==== Sys2Proof/Config.lean ====
section
/-! DEFINITION. What is fixed for a machine: the numeric parameters of spec/00_scope.md R8 the source
fixes, the TYPES of the parameters R8 leaves open or keeps configurable (their default values stand
in Sys2Proof/Machine/Defaults.lean), and the one free value of the model. -/

namespace Sys2Proof

/-! ### Parameters fixed by the source (R8) -/

/-- `MS_TICKS`: ticks in `advanceOneMillisecond` (R8, R107). -/
def msTicks : Nat := 3500
/-- `TICK_HZ`: informative only, no rule depends on it (R8). -/
def tickHz : Nat := 3500000
/-- `STD_PILOT_LEN` (R8). -/
def stdPilotLen : Half := 2168
/-- `STD_SYNC1` (R8). -/
def stdSync1 : Half := 667
/-- `STD_SYNC2` (R8). -/
def stdSync2 : Half := 735
/-- `STD_BIT0` (R8). -/
def stdBit0 : Half := 855
/-- `STD_BIT1` (R8). -/
def stdBit1 : Half := 1710
/-- `STD_PILOT_HEADER` (R8). -/
def stdPilotHeader : Half := 8063
/-- `STD_PILOT_DATA` (R8). -/
def stdPilotData : Half := 3223
/-- `STOP_PAUSE_MS` (R8). -/
def stopPauseMs : Half := 5000
/-- `TAP_PAUSE_MS` (R8). -/
def tapPauseMs : Half := 1000
/-- `HEADER_LEN` (R8). -/
def headerLen : Nat := 10
/-- `SIGNATURE`: "ZXTape!" in ASCII, then 0x1A (R8). -/
def signature : List Byte := [0x5A, 0x58, 0x54, 0x61, 0x70, 0x65, 0x21, 0x1A]
/-- `MAX_ALPHABET`: what an alphabet-size field of 0 means (R8, R209). -/
def maxAlphabet : Nat := 256

/-! ### The container kind and the opcode map's row names -/

/-- `KIND`, the detected container kind, a session input (R25). -/
inductive Kind where
  | tzx
  | tap
deriving DecidableEq, Repr

/-- The rows of the opcode map that have a type code of their own (R72). -/
inductive Op where
  | std | turbo | tone | pulses | pdata | direct
  | c64rom | c64turbo | csw | gdb | pause
  | grps | grpe | jump | loops | loope | callseq | ret | select
  | stop48 | setlvl | text | msg | archive | hwtype | emuinfo | custom | snap | glue
deriving DecidableEq, Repr

/-! ### `LAYOUT` (R8, R74 to R92): type codes, size formulas, fields and tables, as data -/

/-- A `bodySize` formula (R73): every one of R74 to R88 is a constant, or
`base + scale * MemRead(b + off, width)`. -/
inductive SizeRule where
  | fixed (n : Nat)
  | counted (base scale off width : Nat)
deriving DecidableEq, Repr

/-- One row of the opcode map: type code, row name, size formula (R72). -/
structure Row where
  code : Byte
  op   : Op
  size : SizeRule
deriving DecidableEq, Repr

/-- A field of a block (R66 (a), R74 to R91): its offset from the body start and its width in bytes. -/
structure FieldPos where
  off   : Nat
  width : Nat
deriving DecidableEq, Repr

/-- Fields of `STD` (R74) and where its payload starts. A block type without a `pause` field has no
pause (R161). -/
structure StdLayout where
  pause : Option FieldPos
  len   : FieldPos
  data  : Nat
deriving DecidableEq, Repr

/-- Fields of `TURBO` (R75) and where its payload starts. -/
structure TurboLayout where
  pilotLength : FieldPos
  sync1       : FieldPos
  sync2       : FieldPos
  bit0        : FieldPos
  bit1        : FieldPos
  pilotCount  : FieldPos
  usedBits    : FieldPos
  pause       : Option FieldPos
  len         : FieldPos
  data        : Nat
deriving DecidableEq, Repr

/-- Fields of `TONE` (R76). -/
structure ToneLayout where
  pulseLength : FieldPos
  count       : FieldPos
  pause       : Option FieldPos
deriving DecidableEq, Repr

/-- Fields of `PULSES` (R77): the count, and the first pulse length with the width of each. -/
structure PulsesLayout where
  n     : FieldPos
  list  : FieldPos
  pause : Option FieldPos
deriving DecidableEq, Repr

/-- Fields of `PDATA` (R78) and where its payload starts. -/
structure PDataLayout where
  bit0     : FieldPos
  bit1     : FieldPos
  usedBits : FieldPos
  pause    : Option FieldPos
  len      : FieldPos
  data     : Nat
deriving DecidableEq, Repr

/-- Fields of `DIRECT` (R79) and where its payload starts; that it has a used-bits field is a fact of
the layout (G2). -/
structure DirectLayout where
  tps      : FieldPos
  pause    : Option FieldPos
  usedBits : Option FieldPos
  len      : FieldPos
  data     : Nat
deriving DecidableEq, Repr

/-- The tables that follow the fixed part of a generalized block (R89). -/
inductive GdbTable where
  | pilotSymbols
  | pilotRuns
  | dataSymbols
  | dataStream
deriving DecidableEq, Repr

/-- The length in bytes of a packed stream as a formula (R207, G4): `base + scale * ceil(bits / unit)` for a
stream of `bits` bits. -/
structure StreamSize where
  base  : Nat
  scale : Nat
  unit  : Nat
deriving DecidableEq, Repr

/-- The fixed part of `GDB` (R80) and its tables (R89): where the first starts, in which order they
stand, whether those of a stream without symbols are absent, and the length of the packed stream (R207). -/
structure GdbLayout where
  blen      : FieldPos
  pause     : Option FieldPos
  totp      : FieldPos
  npp       : FieldPos
  asp       : FieldPos
  totd      : FieldPos
  npd       : FieldPos
  asd       : FieldPos
  tables    : Nat
  order     : List GdbTable
  omitEmpty : Bool
  stream    : StreamSize
deriving DecidableEq, Repr

/-- A symbol definition (R90): its flags field, where its first duration lies and how wide each is, how
many bytes it has beside its durations, and the number of each starting polarity. -/
structure SymbolLayout where
  flags     : FieldPos
  durations : FieldPos
  base      : Nat
  keep      : Nat
  invert    : Nat
  forceLow  : Nat
  forceHigh : Nat
deriving DecidableEq, Repr

/-- A run-length entry (R91): its symbol index, its repeat count, and its size. -/
structure RleLayout where
  symbolIndex : FieldPos
  repeatCount : FieldPos
  size        : Nat
deriving DecidableEq, Repr

/-- The fields of the skipped blocks; no rule uses their values (R84). -/
structure SkipLayout where
  blen       : FieldPos
  grpsN      : FieldPos
  jumpRel    : FieldPos
  callseqN   : FieldPos
  selectN    : FieldPos
  textN      : FieldPos
  msgTime    : FieldPos
  msgN       : FieldPos
  archiveN   : FieldPos
  hwtypeN    : FieldPos
  customId   : FieldPos
  customN    : FieldPos
  snapKind   : FieldPos
  snapN      : FieldPos
deriving DecidableEq, Repr

/-- The parameter `LAYOUT` (R8): OPEN, an argument of the model, its default the table of
spec/30_encoding.md. It holds what G1 to G4 supply: type codes, field offsets and widths, size formulas,
which blocks have a pause, the tables of a generalized block (log 10). -/
structure Layout where
  rows       : List Row
  fallback   : SizeRule
  std        : StdLayout
  turbo      : TurboLayout
  tone       : ToneLayout
  pulses     : PulsesLayout
  pdata      : PDataLayout
  direct     : DirectLayout
  gdb        : GdbLayout
  symbol     : SymbolLayout
  rle        : RleLayout
  pausePause : FieldPos
  loopsCount : FieldPos
  skip       : SkipLayout
deriving DecidableEq, Repr

/-- The row of a type byte, if it has one (R71, R72). -/
def Layout.row? (L : Layout) (t : Byte) : Option Row :=
  L.rows.find? fun r => r.code == t

/-- The rows of class `skip` (R72). -/
def Op.skips : Op → Bool
  | .std => false
  | .turbo => false
  | .tone => false
  | .pulses => false
  | .pdata => false
  | .direct => false
  | .gdb => false
  | .pause => false
  | .loops => false
  | .loope => false
  | .c64rom => true
  | .c64turbo => true
  | .csw => true
  | .grps => true
  | .grpe => true
  | .jump => true
  | .callseq => true
  | .ret => true
  | .select => true
  | .stop48 => true
  | .setlvl => true
  | .text => true
  | .msg => true
  | .archive => true
  | .hwtype => true
  | .emuinfo => true
  | .custom => true
  | .snap => true
  | .glue => true

/-- The type bytes of skipped blocks: a row of class `skip`, or no row (R71, R72, R88). -/
def Layout.skips (L : Layout) (t : Byte) : Bool :=
  match L.row? t with
  | some r => r.op.skips
  | none => true

/-- The parameters R8 leaves open or keeps as configuration fields. -/
structure Params where
  /-- `SUPPORTED_MAJOR`: the largest accepted major version byte (R8, R122). -/
  supportedMajor : Nat
  /-- `FLAG_THRESHOLD`: a first payload byte below it selects `STD_PILOT_HEADER` (R8, R169). -/
  flagThreshold : Nat
  /-- `SYM_INDEX_MSB_FIRST`: the first bit read of a packed index is its most significant (R92). With
  false it is the least significant one: DEDUCED from test vector V13 (log 26). -/
  symIndexMsbFirst : Bool
  /-- `TAP_PROLOGUE_EPILOGUE`: a TAP session has a TZX session's first and last command (R263, R264). -/
  tapPrologueEpilogue : Bool
  /-- `AW`: the width of a byte offset (R8). No rule computes with it: offsets never wrap (R12; log 12). -/
  offsetWidth : Nat
  /-- Whether the optional side channel `DIAG` is reported to (R35): the model's own field. -/
  reportDiag : Bool
  /-- `LAYOUT`. -/
  layout : Layout
deriving DecidableEq, Repr

/-- FREE VALUE: what `totalTicksElapsed() -> u64` returns for a tick count past `2^64 - 1`
(R14; spec/93_implementation_defined.md U6: neither wrap-around nor saturation). -/
opaque ticksReadBackPastWidth : Nat → Ticks64

end Sys2Proof
end

