-- ==== Sys2Proof/Machine/Defaults.lean ====
section
/-! DEFINITION. The default values of the parameters of spec/00_scope.md R8 that are OPEN or kept as
configuration: `LAYOUT` (the table of spec/30_encoding.md R72 to R91, which the spec supplies from
general knowledge, G1 to G4), `SUPPORTED_MAJOR`, `FLAG_THRESHOLD`, `SYM_INDEX_MSB_FIRST`,
`TAP_PROLOGUE_EPILOGUE`. -/

namespace Sys2Proof.Machine

open Sys2Proof

/-- The size formula of the fallback and of the types R87 names: `4 + MemRead(b, 4)` (R87, R88). -/
def lengthPrefixed : SizeRule := .counted 4 1 0 4

/-- The opcode map's rows of the signal and control blocks (R72, R74 to R83). -/
def signalRows : List Row :=
  [ ⟨0x10, .std, .counted 4 1 2 2⟩,
    ⟨0x11, .turbo, .counted 0x12 1 0x0F 3⟩,
    ⟨0x12, .tone, .fixed 4⟩,
    ⟨0x13, .pulses, .counted 1 2 0 1⟩,
    ⟨0x14, .pdata, .counted 0x0A 1 7 3⟩,
    ⟨0x15, .direct, .counted 8 1 5 3⟩,
    ⟨0x19, .gdb, lengthPrefixed⟩,
    ⟨0x20, .pause, .fixed 2⟩,
    ⟨0x24, .loops, .fixed 2⟩,
    ⟨0x25, .loope, .fixed 0⟩ ]

/-- The opcode map's rows of the skipped blocks (R72, R85 to R87). -/
def skipRows : List Row :=
  [ ⟨0x16, .c64rom, lengthPrefixed⟩,
    ⟨0x17, .c64turbo, lengthPrefixed⟩,
    ⟨0x18, .csw, lengthPrefixed⟩,
    ⟨0x21, .grps, .counted 1 1 0 1⟩,
    ⟨0x22, .grpe, .fixed 0⟩,
    ⟨0x23, .jump, .fixed 2⟩,
    ⟨0x26, .callseq, .counted 2 2 0 2⟩,
    ⟨0x27, .ret, .fixed 0⟩,
    ⟨0x28, .select, .counted 2 1 0 2⟩,
    ⟨0x2A, .stop48, lengthPrefixed⟩,
    ⟨0x2B, .setlvl, lengthPrefixed⟩,
    ⟨0x30, .text, .counted 1 1 0 1⟩,
    ⟨0x31, .msg, .counted 2 1 1 1⟩,
    ⟨0x32, .archive, .counted 2 1 0 2⟩,
    ⟨0x33, .hwtype, .counted 1 3 0 1⟩,
    ⟨0x34, .emuinfo, .fixed 8⟩,
    ⟨0x35, .custom, .counted 0x14 1 0x10 4⟩,
    ⟨0x40, .snap, .counted 4 1 1 3⟩,
    ⟨0x5A, .glue, .fixed 9⟩ ]

/-- The default `LAYOUT`: the published TZX layout as spec/30_encoding.md gives it. -/
def defaultLayout : Layout where
  rows := signalRows ++ skipRows
  fallback := lengthPrefixed
  std := { pause := some ⟨0, 2⟩, len := ⟨2, 2⟩, data := 4 }
  turbo := { pilotLength := ⟨0x00, 2⟩, sync1 := ⟨0x02, 2⟩, sync2 := ⟨0x04, 2⟩, bit0 := ⟨0x06, 2⟩,
             bit1 := ⟨0x08, 2⟩, pilotCount := ⟨0x0A, 2⟩, usedBits := ⟨0x0C, 1⟩, pause := some ⟨0x0D, 2⟩,
             len := ⟨0x0F, 3⟩, data := 0x12 }
  tone := { pulseLength := ⟨0, 2⟩, count := ⟨2, 2⟩, pause := none }
  pulses := { n := ⟨0, 1⟩, list := ⟨1, 2⟩, pause := none }
  pdata := { bit0 := ⟨0x00, 2⟩, bit1 := ⟨0x02, 2⟩, usedBits := ⟨0x04, 1⟩, pause := some ⟨0x05, 2⟩,
             len := ⟨0x07, 3⟩, data := 0x0A }
  direct := { tps := ⟨0x00, 2⟩, pause := some ⟨0x02, 2⟩, usedBits := some ⟨0x04, 1⟩, len := ⟨0x05, 3⟩,
              data := 0x08 }
  gdb := { blen := ⟨0x00, 4⟩, pause := some ⟨0x04, 2⟩, totp := ⟨0x06, 4⟩, npp := ⟨0x0A, 1⟩,
           asp := ⟨0x0B, 1⟩, totd := ⟨0x0C, 4⟩, npd := ⟨0x10, 1⟩, asd := ⟨0x11, 1⟩, tables := 0x12,
           order := [.pilotSymbols, .pilotRuns, .dataSymbols, .dataStream], omitEmpty := true,
           stream := { base := 0, scale := 1, unit := 8 } }
  symbol := { flags := ⟨0, 1⟩, durations := ⟨1, 2⟩, base := 1, keep := 0, invert := 1, forceLow := 2,
              forceHigh := 3 }
  rle := { symbolIndex := ⟨0, 1⟩, repeatCount := ⟨1, 2⟩, size := 3 }
  pausePause := ⟨0, 2⟩
  loopsCount := ⟨0, 2⟩
  skip := { blen := ⟨0, 4⟩, grpsN := ⟨0, 1⟩, jumpRel := ⟨0, 2⟩, callseqN := ⟨0, 2⟩, selectN := ⟨0, 2⟩,
            textN := ⟨0, 1⟩, msgTime := ⟨0, 1⟩, msgN := ⟨1, 1⟩, archiveN := ⟨0, 2⟩, hwtypeN := ⟨0, 1⟩,
            customId := ⟨0, 16⟩, customN := ⟨0x10, 4⟩, snapKind := ⟨0, 1⟩, snapN := ⟨1, 3⟩ }

/-- `AW` in the default parameters: the spec gives no value. DESIGN CHOICE 32 (log 12). -/
def defaultOffsetWidth : Nat := 32

/-- The parameters at the defaults of R8; `AW` has none (log 12), `reportDiag` is the model's own
(log 14). -/
def defaultParams : Params where
  supportedMajor := 1
  flagThreshold := 128
  symIndexMsbFirst := true
  tapPrologueEpilogue := true
  offsetWidth := defaultOffsetWidth
  reportDiag := true
  layout := defaultLayout

end Sys2Proof.Machine
end

