-- ==== Sys2Proof/Machine/Memory.lean ====
section
/-! DEFINITION. The tape image (spec/20_memory.md): TPG's one address space, read-only, byte addressed
at offsets `0 .. LEN-1` (R50). It is held as `LEN` and a list of (offset, byte) pairs in one canonical
form: offsets strictly rising and below `LEN`, no listed byte equal to what an unlisted offset reads
as. The representation loses nothing: every byte sequence has exactly one such form. There is no
store operation: TPG has none (R58) and the image is constant during a session (R62). -/

namespace Sys2Proof.Machine

open Sys2Proof

/-- The tape image: `LEN` and the listed cells. -/
structure Memory where
  len   : Nat
  cells : List Host.Cell
deriving DecidableEq, Repr

/-- What an offset below `LEN` that is not listed reads as. DESIGN CHOICE (log 2). -/
def unlistedByte : Byte := 0

/-- The byte a cell list gives for an offset. -/
def cellAt : List Host.Cell → Nat → Byte
  | [], _ => unlistedByte
  | (k, v) :: cs, a => if k = a then v else cellAt cs a

/-- `IMG[a]`: the byte at offset `a`, none when `a >= LEN` (R10, R56). -/
def Memory.read (m : Memory) (a : Nat) : Option Byte :=
  if a < m.len then some (cellAt m.cells a) else none

/-- `MemRead(a, n)`: the unsigned little-endian value of `n` bytes, none when one of them lies at or
beyond `LEN` (R10, R52, R56). -/
def Memory.memRead (m : Memory) : Nat → Nat → Option Nat
  | _, 0 => some 0
  | a, n + 1 =>
    match m.read a with
    | none => none
    | some v =>
      match m.memRead (a + 1) n with
      | none => none
      | some r => some (v.toNat + 256 * r)

/-- The `n`-bit value of a field of `w` bytes at `a`, zero-extended (R12, R52, R55). The fields of the
default layout are `n` bits wide; of a wider field the low `n` bits are taken (log 10). -/
def Memory.word (m : Memory) (n a w : Nat) : Option (BitVec n) := (m.memRead a w).map (BitVec.ofNat n)

/-- A 1-byte field. -/
def Memory.read8 (m : Memory) (a : Nat) : Option Byte := m.word 8 a 1

/-- A 2-byte field (R52, R55). -/
def Memory.read16 (m : Memory) (a : Nat) : Option Half := m.word 16 a 2

/-- A field of the body at `b`, where the layout puts it (R66 (a)). -/
def Memory.field (m : Memory) (n b : Nat) (f : FieldPos) : Option (BitVec n) := m.word n (b + f.off) f.width

/-- A field the layout may leave out; the outer option is the read, the inner one the field. -/
def Memory.optField (m : Memory) (n b : Nat) : Option FieldPos → Option (Option (BitVec n))
  | none => some none
  | some f => (m.field n b f).map some

/-- The cells of a byte sequence that starts at offset `a`, zero bytes left out. -/
def cellsFrom : Nat → List Byte → List Host.Cell
  | _, [] => []
  | a, v :: vs => if v = unlistedByte then cellsFrom (a + 1) vs else (a, v) :: cellsFrom (a + 1) vs

/-- The tape image that is a given byte sequence: how the host hands one over (R302). -/
def Memory.ofBytes (bs : List Byte) : Memory := { len := bs.length, cells := cellsFrom 0 bs }

/-- Cells listed in canonical form: offsets from `lo` on, strictly rising, below `hi`, no listed
byte equal to the unlisted one. -/
def cellsWf (lo hi : Nat) : List Host.Cell → Bool
  | [] => true
  | (k, v) :: cs => decide (lo ≤ k) && decide (k < hi) && decide (v ≠ unlistedByte) && cellsWf (k + 1) hi cs

/-- The canonical form of a tape image. -/
def Memory.wf (m : Memory) : Bool := cellsWf 0 m.len m.cells

end Sys2Proof.Machine
end

