-- ==== Sys2Proof/Syntax.lean ====
section
/-! DEFINITION. The instructions of TPG: one constructor per row of spec/opcode_table.json, with the
header fields of the row's layout as operands (spec/30_encoding.md R70 to R91, R95). Payload bytes,
pulse lists and symbol tables are no operands: they stay in the tape image and are read there through
`P.dataPtr`, `G.symtab` and `G.stream` (R23, R51: "not copied"). -/

namespace Sys2Proof

/-- A block of a TZX image, or the record of a TAP image (R70, R72, R95). An operand that is an option is
a field the layout may leave out (G2, G3): the pause of the blocks of R161 and `DIRECT`'s `usedBits`; the
default layout has them all. The opcode map gives `TONE` and `PULSES` no pause: a layout's pause field of
theirs is read where the block runs. -/
inductive Instr where
  /-- 0x10 standard-speed data (R74). -/
  | std (pause : Option Half) (len : Half)
  /-- 0x11 turbo-speed data (R75). -/
  | turbo (pilotLength sync1 sync2 bit0 bit1 pilotCount : Half) (usedBits : Byte)
      (pause : Option Half) (len : Word24)
  /-- 0x12 pure tone (R76). -/
  | tone (pulseLength count : Half)
  /-- 0x13 pulse sequence (R77). -/
  | pulses (n : Byte)
  /-- 0x14 pure data (R78). -/
  | pdata (bit0 bit1 : Half) (usedBits : Byte) (pause : Option Half) (len : Word24)
  /-- 0x15 direct recording (R79). -/
  | direct (tps : Half) (pause : Option Half) (usedBits : Option Byte) (len : Word24)
  /-- 0x16 C64 ROM-type data, skipped (R87). -/
  | c64rom (blen : Word32)
  /-- 0x17 C64 turbo-tape data, skipped (R87). -/
  | c64turbo (blen : Word32)
  /-- 0x18 CSW recording, skipped (R87). -/
  | csw (blen : Word32)
  /-- 0x19 generalized data (R80). -/
  | gdb (blen : Word32) (pause : Option Half) (totp : Word32) (npp asp : Byte) (totd : Word32) (npd asd : Byte)
  /-- 0x20 pause / stop the tape (R81). -/
  | pause (pause : Half)
  /-- 0x21 group start, skipped (R86). -/
  | grps (n : Byte)
  /-- 0x22 group end, skipped (R85). -/
  | grpe
  /-- 0x23 jump to block, skipped (R85). -/
  | jump (rel : Half)
  /-- 0x24 loop start (R82). -/
  | loops (count : Half)
  /-- 0x25 loop end (R83). -/
  | loope
  /-- 0x26 call sequence, skipped (R86). -/
  | callseq (n : Half)
  /-- 0x27 return from sequence, skipped (R85). -/
  | ret
  /-- 0x28 select block, skipped (R86). -/
  | select (n : Half)
  /-- 0x2A stop the tape if in 48K mode, skipped (R87). -/
  | stop48 (blen : Word32)
  /-- 0x2B set signal level, skipped (R87). -/
  | setlvl (blen : Word32)
  /-- 0x30 text description, skipped (R86). -/
  | text (n : Byte)
  /-- 0x31 message, skipped (R86). -/
  | msg (time n : Byte)
  /-- 0x32 archive info, skipped (R86). -/
  | archive (n : Half)
  /-- 0x33 hardware type, skipped (R86). -/
  | hwtype (n : Byte)
  /-- 0x34 emulation info, skipped (R85); its 8 bytes have no named field. -/
  | emuinfo
  /-- 0x35 custom info, skipped (R86). -/
  | custom (id : BitVec 128) (n : Word32)
  /-- 0x40 snapshot, skipped (R86). -/
  | snap (kind : Byte) (n : Word24)
  /-- 0x5A glue block, skipped (R85); its 9 bytes have no named field. -/
  | glue
  /-- Any other type byte: the fallback layout, skipped (R71, R88). -/
  | unknown (type : Byte) (blen : Word32)
  /-- The TAP record: a 16-bit length prefix, no type byte (R95). -/
  | taprec (n : Half)
deriving DecidableEq, Repr

/-- The container an instruction belongs to (R95: only the record is a TAP image's). -/
def Instr.kind : Instr → Kind
  | .taprec _ => .tap
  | _ => .tzx

/-- The row of the opcode map an instruction stands in; the fallback and the TAP record have none. -/
def Instr.op? : Instr → Option Op
  | .std _ _ => some .std
  | .turbo _ _ _ _ _ _ _ _ _ => some .turbo
  | .tone _ _ => some .tone
  | .pulses _ => some .pulses
  | .pdata _ _ _ _ _ => some .pdata
  | .direct _ _ _ _ => some .direct
  | .c64rom _ => some .c64rom
  | .c64turbo _ => some .c64turbo
  | .csw _ => some .csw
  | .gdb _ _ _ _ _ _ _ _ => some .gdb
  | .pause _ => some .pause
  | .grps _ => some .grps
  | .grpe => some .grpe
  | .jump _ => some .jump
  | .loops _ => some .loops
  | .loope => some .loope
  | .callseq _ => some .callseq
  | .ret => some .ret
  | .select _ => some .select
  | .stop48 _ => some .stop48
  | .setlvl _ => some .setlvl
  | .text _ => some .text
  | .msg _ _ => some .msg
  | .archive _ => some .archive
  | .hwtype _ => some .hwtype
  | .emuinfo => some .emuinfo
  | .custom _ _ => some .custom
  | .snap _ _ => some .snap
  | .glue => some .glue
  | .unknown _ _ => none
  | .taprec _ => none

end Sys2Proof
end

