-- ==== Sys2Proof/WellFormed.lean ====
section
/-! DEFINITION. Which instructions a layout can spell. Field ranges are carried by the operands'
widths, so three checks are left: an instruction with a row of its own needs that row in the layout
(spec/30_encoding.md R71, R72), it has exactly the operands the layout has fields for (R161, G2, G3),
and the fallback is for type bytes WITHOUT a row (R88). A field value
the spec gives no meaning (`usedBits` above 8, an empty standard payload; R94) is no matter of form:
it decodes, and the machine refuses it. -/

namespace Sys2Proof

/-- The layout has a row for the instruction's name (R72). -/
def Layout.hasRow (L : Layout) (op : Op) : Bool :=
  L.rows.any fun r => r.op == op

/-- An operand is there exactly when the layout has a field for it (R161). -/
def spelled {n : Nat} (v : Option (BitVec n)) (f : Option FieldPos) : Bool := v.isSome == f.isSome

/-- The instruction is one the layout can spell (R71, R72, R88, R95). -/
def Instr.wellFormed (L : Layout) (i : Instr) : Bool :=
  match i with
  | .std q _ => L.hasRow .std && spelled q L.std.pause
  | .turbo _ _ _ _ _ _ _ q _ => L.hasRow .turbo && spelled q L.turbo.pause
  | .tone _ _ => L.hasRow .tone
  | .pulses _ => L.hasRow .pulses
  | .pdata _ _ _ q _ => L.hasRow .pdata && spelled q L.pdata.pause
  | .direct _ q used _ =>
    L.hasRow .direct && spelled q L.direct.pause && spelled used L.direct.usedBits
  | .c64rom _ => L.hasRow .c64rom
  | .c64turbo _ => L.hasRow .c64turbo
  | .csw _ => L.hasRow .csw
  | .gdb _ q _ _ _ _ _ _ => L.hasRow .gdb && spelled q L.gdb.pause
  | .pause _ => L.hasRow .pause
  | .grps _ => L.hasRow .grps
  | .grpe => L.hasRow .grpe
  | .jump _ => L.hasRow .jump
  | .loops _ => L.hasRow .loops
  | .loope => L.hasRow .loope
  | .callseq _ => L.hasRow .callseq
  | .ret => L.hasRow .ret
  | .select _ => L.hasRow .select
  | .stop48 _ => L.hasRow .stop48
  | .setlvl _ => L.hasRow .setlvl
  | .text _ => L.hasRow .text
  | .msg _ _ => L.hasRow .msg
  | .archive _ => L.hasRow .archive
  | .hwtype _ => L.hasRow .hwtype
  | .emuinfo => L.hasRow .emuinfo
  | .custom _ _ => L.hasRow .custom
  | .snap _ _ => L.hasRow .snap
  | .glue => L.hasRow .glue
  | .unknown t _ => (L.row? t).isNone
  | .taprec _ => true

end Sys2Proof
end

