-- ==== Sys2Proof/Decode.lean ====
section
/-! DEFINITION. Block sizes, the decoder and the encoder (spec/30_encoding.md). `bodySize` and the
decoder take the `LAYOUT` they read by; the encoder spells the default layout. A type byte is never
illegal (R71, R94); decoding fails only when a field lies at or beyond `LEN` (R56). -/

namespace Sys2Proof

open Sys2Proof.Machine (Memory defaultLayout)

/-! ### `bodySize` (R73) -/

/-- The value of a size formula for the body at `b`; `none` is the spec's `overrun` (R73). -/
def SizeRule.eval (r : SizeRule) (m : Memory) (b : Nat) : Option Nat :=
  match r with
  | .fixed n => some n
  | .counted base scale off width => (m.memRead (b + off) width).map fun v => base + scale * v

/-- The size formula of a type byte: its row's, or the fallback (R71, R72, R88). -/
def Layout.sizeRule (L : Layout) (t : Byte) : SizeRule :=
  match L.row? t with
  | some r => r.size
  | none => L.fallback

/-- `bodySize(type, b)` (R73): the number of bytes after the type byte, or `overrun`. -/
def bodySize (L : Layout) (m : Memory) (t : Byte) (b : Nat) : Option Nat :=
  (L.sizeRule t).eval m b

/-! ### The decoder -/

/-- Why bytes give no instruction: a field lies outside the image (R56); no encoding is illegal (R94). -/
inductive DecodeError where
  | outsideImage
deriving DecidableEq, Repr

/-- The instruction a row's layout reads from the body at `b` (R74 to R87). -/
def decodeRow (L : Layout) (m : Memory) (b : Nat) (op : Op) : Option Instr :=
  match op with
  | .std => do
    let pause ← m.optField 16 b L.std.pause
    let len ← m.field 16 b L.std.len
    some (.std pause len)
  | .turbo => do
    let pilotLength ← m.field 16 b L.turbo.pilotLength
    let sync1 ← m.field 16 b L.turbo.sync1
    let sync2 ← m.field 16 b L.turbo.sync2
    let bit0 ← m.field 16 b L.turbo.bit0
    let bit1 ← m.field 16 b L.turbo.bit1
    let pilotCount ← m.field 16 b L.turbo.pilotCount
    let usedBits ← m.field 8 b L.turbo.usedBits
    let pause ← m.optField 16 b L.turbo.pause
    let len ← m.field 24 b L.turbo.len
    some (.turbo pilotLength sync1 sync2 bit0 bit1 pilotCount usedBits pause len)
  | .tone => do
    let pulseLength ← m.field 16 b L.tone.pulseLength
    let count ← m.field 16 b L.tone.count
    some (.tone pulseLength count)
  | .pulses => do
    let n ← m.field 8 b L.pulses.n
    some (.pulses n)
  | .pdata => do
    let bit0 ← m.field 16 b L.pdata.bit0
    let bit1 ← m.field 16 b L.pdata.bit1
    let usedBits ← m.field 8 b L.pdata.usedBits
    let pause ← m.optField 16 b L.pdata.pause
    let len ← m.field 24 b L.pdata.len
    some (.pdata bit0 bit1 usedBits pause len)
  | .direct => do
    let tps ← m.field 16 b L.direct.tps
    let pause ← m.optField 16 b L.direct.pause
    let usedBits ← m.optField 8 b L.direct.usedBits
    let len ← m.field 24 b L.direct.len
    some (.direct tps pause usedBits len)
  | .gdb => do
    let blen ← m.field 32 b L.gdb.blen
    let pause ← m.optField 16 b L.gdb.pause
    let totp ← m.field 32 b L.gdb.totp
    let npp ← m.field 8 b L.gdb.npp
    let asp ← m.field 8 b L.gdb.asp
    let totd ← m.field 32 b L.gdb.totd
    let npd ← m.field 8 b L.gdb.npd
    let asd ← m.field 8 b L.gdb.asd
    some (.gdb blen pause totp npp asp totd npd asd)
  | .pause => do
    let pause ← m.field 16 b L.pausePause
    some (.pause pause)
  | .loops => do
    let count ← m.field 16 b L.loopsCount
    some (.loops count)
  | .loope => some .loope
  | .c64rom => do
    let blen ← m.field 32 b L.skip.blen
    some (.c64rom blen)
  | .c64turbo => do
    let blen ← m.field 32 b L.skip.blen
    some (.c64turbo blen)
  | .csw => do
    let blen ← m.field 32 b L.skip.blen
    some (.csw blen)
  | .grps => do
    let n ← m.field 8 b L.skip.grpsN
    some (.grps n)
  | .grpe => some .grpe
  | .jump => do
    let rel ← m.field 16 b L.skip.jumpRel
    some (.jump rel)
  | .callseq => do
    let n ← m.field 16 b L.skip.callseqN
    some (.callseq n)
  | .ret => some .ret
  | .select => do
    let n ← m.field 16 b L.skip.selectN
    some (.select n)
  | .stop48 => do
    let blen ← m.field 32 b L.skip.blen
    some (.stop48 blen)
  | .setlvl => do
    let blen ← m.field 32 b L.skip.blen
    some (.setlvl blen)
  | .text => do
    let n ← m.field 8 b L.skip.textN
    some (.text n)
  | .msg => do
    let time ← m.field 8 b L.skip.msgTime
    let n ← m.field 8 b L.skip.msgN
    some (.msg time n)
  | .archive => do
    let n ← m.field 16 b L.skip.archiveN
    some (.archive n)
  | .hwtype => do
    let n ← m.field 8 b L.skip.hwtypeN
    some (.hwtype n)
  | .emuinfo => some .emuinfo
  | .custom => do
    let id ← m.field 128 b L.skip.customId
    let n ← m.field 32 b L.skip.customN
    some (.custom id n)
  | .snap => do
    let kind ← m.field 8 b L.skip.snapKind
    let n ← m.field 24 b L.skip.snapN
    some (.snap kind n)
  | .glue => some .glue

/-- The fallback layout (R88). -/
def decodeFallback (L : Layout) (m : Memory) (t : Byte) (b : Nat) : Option Instr := do
  let blen ← m.field 32 b L.skip.blen
  some (.unknown t blen)

/-- The block whose type byte is `t` and whose body starts at `b` (R70, R71). -/
def decodeBody (L : Layout) (m : Memory) (t : Byte) (b : Nat) : Option Instr :=
  match L.row? t with
  | some r => decodeRow L m b r.op
  | none => decodeFallback L m t b

/-- The TAP record whose prefix is at `p` (R95). -/
def decodeRecord (m : Memory) (p : Nat) : Option Instr :=
  (m.read16 p).map Instr.taprec

/-- The block at offset `o` of a TZX image: its type byte, then its body (R70). -/
def decodeBlock (L : Layout) (m : Memory) (o : Nat) : Option Instr := do
  let t ← m.read o
  decodeBody L m t (o + 1)

/-- The instruction at offset `o` of an image of the given kind. -/
def decode (k : Kind) (L : Layout) (m : Memory) (o : Nat) : Except DecodeError Instr :=
  match k with
  | .tzx => match decodeBlock L m o with
    | some i => .ok i
    | none => .error .outsideImage
  | .tap => match decodeRecord m o with
    | some i => .ok i
    | none => .error .outsideImage

/-! ### The encoder (the default layout) -/

/-- The `n` bytes of an unsigned little-endian field (R52). -/
def leBytes : Nat → Nat → List Byte
  | 0, _ => []
  | n + 1, v => BitVec.ofNat 8 v :: leBytes n (v / 256)

/-- An unsigned field of `8 * n` bits as `n` little-endian bytes. -/
def le (n : Nat) (v : BitVec (8 * n)) : List Byte := leBytes n v.toNat

/-- A field a layout may leave out: no byte where the instruction has no such operand. -/
def optLe (n : Nat) : Option (BitVec (8 * n)) → List Byte
  | none => []
  | some v => le n v

/-- The type byte and header fields of a block, or the prefix of a TAP record, as the default layout
stores them (R72 to R88, R95). What follows them in the image (payload, pulse list, tables) is not
part of it; the unnamed bytes of EMUINFO and GLUE are spelled as zeros. -/
def encode : Instr → List Byte
  | .std pause len => 0x10 :: optLe 2 pause ++ le 2 len
  | .turbo pilotLength sync1 sync2 bit0 bit1 pilotCount usedBits pause len =>
    0x11 :: le 2 pilotLength ++ le 2 sync1 ++ le 2 sync2 ++ le 2 bit0 ++ le 2 bit1 ++ le 2 pilotCount
      ++ le 1 usedBits ++ optLe 2 pause ++ le 3 len
  | .tone pulseLength count => 0x12 :: le 2 pulseLength ++ le 2 count
  | .pulses n => 0x13 :: le 1 n
  | .pdata bit0 bit1 usedBits pause len =>
    0x14 :: le 2 bit0 ++ le 2 bit1 ++ le 1 usedBits ++ optLe 2 pause ++ le 3 len
  | .direct tps pause usedBits len => 0x15 :: le 2 tps ++ optLe 2 pause ++ optLe 1 usedBits ++ le 3 len
  | .c64rom blen => 0x16 :: le 4 blen
  | .c64turbo blen => 0x17 :: le 4 blen
  | .csw blen => 0x18 :: le 4 blen
  | .gdb blen pause totp npp asp totd npd asd =>
    0x19 :: le 4 blen ++ optLe 2 pause ++ le 4 totp ++ le 1 npp ++ le 1 asp ++ le 4 totd ++ le 1 npd ++ le 1 asd
  | .pause pause => 0x20 :: le 2 pause
  | .grps n => 0x21 :: le 1 n
  | .grpe => [0x22]
  | .jump rel => 0x23 :: le 2 rel
  | .loops count => 0x24 :: le 2 count
  | .loope => [0x25]
  | .callseq n => 0x26 :: le 2 n
  | .ret => [0x27]
  | .select n => 0x28 :: le 2 n
  | .stop48 blen => 0x2A :: le 4 blen
  | .setlvl blen => 0x2B :: le 4 blen
  | .text n => 0x30 :: le 1 n
  | .msg time n => 0x31 :: le 1 time ++ le 1 n
  | .archive n => 0x32 :: le 2 n
  | .hwtype n => 0x33 :: le 1 n
  | .emuinfo => 0x34 :: List.replicate 8 0
  | .custom id n => 0x35 :: le 16 id ++ le 4 n
  | .snap kind n => 0x40 :: le 1 kind ++ le 3 n
  | .glue => 0x5A :: List.replicate 9 0
  | .unknown t blen => t :: le 4 blen
  | .taprec n => le 2 n

/-! ### The host's table words (log 19) -/

/-- Header fields of the longest instruction (`CUSTOM`) with room to spare: how many bytes a table
word is laid out in at least, the bytes above the word zero. -/
def tableWordBytes : Nat := 32

/-- The bytes of a table word, the first at the lowest offset. -/
def tableBytes (nbits w : Nat) : List Byte :=
  leBytes (max (nbits / 8) tableWordBytes) (w % 2 ^ nbits)

/-- The container a table row belongs to: the TAP record is the one row the table gives no bits. -/
def tableKind (nbits : Nat) : Kind := if nbits = 0 then .tap else .tzx

/-- The instruction the decoder reads from a table word, at the default layout. -/
def decodeTableWord (nbits w : Nat) : Option Instr :=
  match decode (tableKind nbits) defaultLayout (Memory.ofBytes (tableBytes nbits w)) 0 with
  | .ok i => some i
  | .error _ => none

end Sys2Proof
end

