-- ==== Sys2Proof/Machine/State.lean ====
section
/-! DEFINITION. The state of TPG (spec/10_state.md), in the four classes R20 keeps apart: TPG's own
state, the reference sink's state (`sink`) and the trace make a `Session`; the session inputs and
parameters are its `input`, beside it. Plain data throughout. -/

namespace Sys2Proof.Machine

open Sys2Proof

/-! ### Class 1: session inputs and parameters (R20, R25) -/

/-- What the host hands over at the start of a session and no step changes (R25, R62): arguments of the
step relation `stepOver` (log 1). -/
structure Input where
  /-- `KIND`. -/
  kind   : Kind
  /-- `IMG` and `LEN`. -/
  img    : Memory
  /-- The parameters of R8. -/
  params : Params
deriving DecidableEq, Repr

/-! ### Class 2: TPG state -/

/-- `PHASE` (R29). -/
inductive Phase where
  | idle
  | indexing
  | running
  | done
  | failed
  | refused
deriving DecidableEq, Repr

/-- The five fatal errors with their information words (R270). -/
inductive FatalError where
  /-- Code 1: a TZX image of fewer than 10 bytes; the word is `LEN`. -/
  | tooSmall (len : Nat)
  /-- Code 2: the first 8 bytes are not the signature. -/
  | badSignature
  /-- Code 3: the major version byte exceeds the supported one; the word is that byte. -/
  | unsupportedVersion (major : Byte)
  /-- Code 4: the indexer found no block. -/
  | empty
  /-- Code 5: a block reaches beyond `LEN`; the word is the offset of its type byte or prefix. -/
  | truncatedBlock (offset : Nat)
deriving DecidableEq, Repr

/-- The reasons of `refuse W`, the complete list (R285). -/
inductive SessionRefusal where
  | bitsInLastByteRange
  | emptyStandardBlock
  | symbolIndexRange
  | symbolFlagsRange
deriving DecidableEq, Repr

/-- An entry of the block table (R27). -/
structure Entry where
  offset : Nat
  type   : Byte
deriving DecidableEq, Repr

/-- The loop context (R28). -/
structure LoopContext where
  /-- `LOOP_CNT`. -/
  cnt    : Half
  /-- `LOOP_RET`. -/
  ret    : Nat
  /-- `LOOP_ACTIVE`. -/
  active : Bool
deriving DecidableEq, Repr

/-- PTG's parameter registers `P.*` (R22). -/
structure PulseRegs where
  pilotLength : Half
  pilotCount  : Half
  sync1       : Half
  sync2       : Half
  bit0        : Half
  bit1        : Half
  bitsLast    : Byte
  pauseMs     : Half
  hasPause    : Bool
  dataPtr     : Nat
  dataLen     : Word24
  tps         : Half
deriving DecidableEq, Repr

/-- SPD's registers `G.*` (R30). -/
structure SymbolRegs where
  pauseMs : Half
  totp    : Word32
  npp     : Byte
  asp     : BitVec 9
  totd    : Word32
  npd     : Byte
  asd     : BitVec 9
  nb      : BitVec 4
  symtab  : Nat
  stream  : Nat
  bitpos  : Nat
deriving DecidableEq, Repr

/-- The kinds of diagnostic events (R35). -/
inductive DiagKind where
  | unsupportedBlock (type : Byte)
  | alphabetSizeZero
deriving DecidableEq, Repr

/-- A diagnostic event (R35). -/
structure DiagEvent where
  kind       : DiagKind
  blockIndex : Nat
deriving DecidableEq, Repr

/-! ### Classes 3 and 4: the sink and the trace -/

/-- `LEVEL`: 0 is low, 1 is high (R32). -/
inductive Level where
  | low
  | high
deriving DecidableEq, Repr

/-- The reference sink's state (R32); `TICKS` is kept as a natural number (R14). -/
structure Sink where
  level : Level
  ticks : Nat
deriving DecidableEq, Repr

/-- The five sink commands TPG issues (R100, R101). -/
inductive Command where
  | setLevelHigh
  | setLevelLow
  | toggleLevel
  | advance (ticks : Ticks64)
  | advanceOneMillisecond
deriving DecidableEq, Repr

/-! ### The state -/

/-- Classes 2 to 4 of R20: what a session owns and changes. -/
structure Session where
  /-- `PHASE` (R29). -/
  phase : Phase
  /-- `ERR` (R29, R270). -/
  err   : Option FatalError
  /-- The reason of a refusal (R284). -/
  why   : Option SessionRefusal
  /-- `POS` (R24). -/
  pos   : Nat
  /-- `CUR` (R24). -/
  cur   : Nat
  /-- `BT`; `BTLEN` is its length (R27). -/
  bt    : List Entry
  /-- The loop context (R28). -/
  loop  : LoopContext
  /-- `P.*` (R22). -/
  p     : PulseRegs
  /-- `G.*` (R30). -/
  g     : SymbolRegs
  /-- `DIAG` (R35). -/
  diag  : List DiagEvent
  /-- The reference sink (R32). -/
  sink  : Sink
  /-- The trace, in emission order (R33). -/
  trace : List Command
deriving DecidableEq, Repr

/-- The machine: a session and, kept apart from it, the inputs it runs over. The spec makes the inputs
arguments of the step relation and no state (R20, R37), which is `stepOver`; the host's interface gives a
step one argument, so the two are paired here (log 1). -/
structure State extends Session where
  /-- Class 1 (R20, R25): constant, no step writes it. -/
  input : Input
deriving DecidableEq, Repr

/-- `IMG`. -/
abbrev State.img (s : State) : Memory := s.input.img
/-- `LEN`. -/
abbrev State.len (s : State) : Nat := s.input.img.len
/-- The parameters. -/
abbrev State.params (s : State) : Params := s.input.params
/-- `LAYOUT`. -/
abbrev State.layout (s : State) : Layout := s.input.params.layout

/-! ### Reasons to stop -/

/-- Why the machine has no step. -/
inductive Fault where
  /-- Raised by `step` in the phases Done, Failed and Refused: "no rule has a step from them" (R277).
  Safe: the model stops where the spec has no step. -/
  | sessionEnded
  /-- Raised by the meaning of a block that has a body to read when `CUR` names no table entry: the
  interpreter dispatches only `BT[CUR]` with `CUR < BTLEN` (R131), so no step raises it. Safe. -/
  | noBlockAtCursor
deriving DecidableEq, Repr

/-- Why an instruction has no meaning. -/
inductive Refusal where
  /-- Raised by `exec`'s arm of an instruction whose meaning is not written yet; none is left. Safe. -/
  | notModelled (mnemonic : String)
deriving DecidableEq, Repr

/-- The three outcomes of a step of this machine. -/
abbrev Result := Host.Outcome State Fault Refusal

/-! ### Reset: the start of a session (R36, R300) -/

/-- `P.*` before any block has loaded them: the spec gives no value. DESIGN CHOICE 0 (log 3). -/
def PulseRegs.reset : PulseRegs where
  pilotLength := 0
  pilotCount := 0
  sync1 := 0
  sync2 := 0
  bit0 := 0
  bit1 := 0
  bitsLast := 0
  pauseMs := 0
  hasPause := false
  dataPtr := 0
  dataLen := 0
  tps := 0

/-- `G.*` before any block has loaded them: the spec gives no value. DESIGN CHOICE 0 (log 3). -/
def SymbolRegs.reset : SymbolRegs where
  pauseMs := 0
  totp := 0
  npp := 0
  asp := 0
  totd := 0
  npd := 0
  asd := 0
  nb := 0
  symtab := 0
  stream := 0
  bitpos := 0

/-- `POS` at the start of a session (R36, R59): behind the header, or at the first TAP record. -/
def firstOffset : Kind → Nat
  | .tzx => headerLen
  | .tap => 0

/-- The state at the start of a session over the given inputs, the host's `start` already called on
the sink (R36, R102, R120). The level `start` leaves is unspecified (R102): an argument here. -/
def State.begin (input : Input) (level : Level) : State where
  input := input
  phase := .idle
  err := none
  why := none
  pos := firstOffset input.kind
  cur := 0
  bt := []
  loop := { cnt := 0, ret := 0, active := false }
  p := PulseRegs.reset
  g := SymbolRegs.reset
  diag := []
  sink := { level := level, ticks := 0 }
  trace := []

/-- The inputs of the reset state: an empty TZX image, default parameters. DESIGN CHOICE (log 5). -/
def Input.reset : Input where
  kind := .tzx
  img := { len := 0, cells := [] }
  params := defaultParams

/-- The machine right after reset (R36, R300); `LEVEL` low is a DESIGN CHOICE (log 4). -/
def State.reset : State := State.begin Input.reset .low

end Sys2Proof.Machine
end

