-- ==== Sys2Proof/Machine/Flags.lean ====
section
/-! DEFINITION. TPG has no condition codes (spec/10_state.md R31). The only flag an instruction tests
is whether the loop context sends a loop end back, `LOOP_ACTIVE = 1 and LOOP_CNT > 0`. -/

namespace Sys2Proof.Machine

open Sys2Proof

/-- What `LOOPE` tests (R31, R151). -/
def LoopContext.goesBack (l : LoopContext) : Bool := l.active && decide (0 < l.cnt.toNat)

end Sys2Proof.Machine
end

