-- ==== Sys2Proof/Machine/Ops.lean ====
section
/-! DEFINITION. The operations every block rule is written in: the sink commands and their effects
(spec/40_sink_commands.md), emitting a run of commands, raising a fatal error and refusing
(spec/60_exceptions.md), the block under the cursor and its end, the diagnostic channel. -/

namespace Sys2Proof.Machine

open Sys2Proof

/-! ### Sink commands (R102 to R107) -/

/-- `LEVEL <- 1 - LEVEL` (R105). -/
def Level.toggled : Level → Level
  | .low => .high
  | .high => .low

/-- The effect of one command on the reference sink (R103 to R107). -/
def Sink.apply (k : Sink) : Command → Sink
  | .setLevelHigh => { k with level := .high }
  | .setLevelLow => { k with level := .low }
  | .toggleLevel => { k with level := k.level.toggled }
  | .advance n => { k with ticks := k.ticks + n.toNat }
  | .advanceOneMillisecond => { k with ticks := k.ticks + msTicks }

/-- The effect of a run of commands on the reference sink, one after another (R100, R33). -/
def Sink.applyAll (k : Sink) (cs : List Command) : Sink := cs.foldl Sink.apply k

/-- `emit C` (R100): append to the trace, apply to the sink. -/
def State.emit (s : State) (c : Command) : State :=
  { s with trace := s.trace ++ [c], sink := s.sink.apply c }

/-- A run of `emit`s in order (R11). -/
def State.emitAll (s : State) (cs : List Command) : State :=
  { s with trace := s.trace ++ cs, sink := s.sink.applyAll cs }

/-- `pulse(n)`: `advance(zext_64(n))`, then `toggleLevel` (R110). -/
def pulse (n : Half) : List Command := [.advance (n.setWidth 64), .toggleLevel]

/-- `ms()` (R111). -/
def ms : List Command := [.advanceOneMillisecond]

/-- The pause rule (R160): low, one forced millisecond, then `max(p - 1, 0)` more. -/
def pause (p : Nat) : List Command :=
  .setLevelLow :: ms ++ (List.replicate (p - 1) ms).flatten

/-! ### Raising and refusing (R276, R284) -/

/-- `raise E(info)`, the machine's one way of taking an error (R276): `PHASE <- Failed`,
`ERR <- (E, info)`, nothing else. There is no return from it (R277). -/
def State.raise (s : State) (e : FatalError) : State := { s with phase := .failed, err := some e }

/-- `refuse W` (R284): `PHASE <- Refused` and the reason; the commands emitted stay. -/
def State.refuse (s : State) (w : SessionRefusal) : State := { s with phase := .refused, why := some w }

/-! ### What a primitive emits, and how it may end -/

/-- What ends a primitive before its last command: a read beyond `LEN` (R56), or a refusal (R284). -/
inductive Stop where
  | truncated
  | refuse (w : SessionRefusal)
deriving DecidableEq, Repr

/-- The commands a primitive emits, in order, and what stopped it, if anything did. -/
structure Emission where
  cmds : List Command
  stop : Option Stop
deriving DecidableEq, Repr

/-- These commands, to the end. -/
def Emission.all (cs : List Command) : Emission := { cmds := cs, stop := none }

/-- No command, stopped. -/
def Emission.halt (w : Stop) : Emission := { cmds := [], stop := some w }

/-- One primitive after another; the second does not run when the first was stopped (R10). -/
def Emission.seq (a b : Emission) : Emission :=
  match a.stop with
  | none => { cmds := a.cmds ++ b.cmds, stop := b.stop }
  | some _ => a

/-- `repeat n: S` (R10). -/
def Emission.times : Nat → Emission → Emission
  | 0, _ => Emission.all []
  | n + 1, e => e.seq (Emission.times n e)

/-- Emit what a primitive of the block at offset `o` gives; then go on, or raise, or refuse. -/
def closeBlock (o : Nat) (e : Emission) (goOn : State → State) (s : State) : Result :=
  match e.stop with
  | none => .next (goOn (s.emitAll e.cmds))
  | some .truncated => .next ((s.emitAll e.cmds).raise (.truncatedBlock o))
  | some (.refuse w) => .next ((s.emitAll e.cmds).refuse w)

/-! ### The block under the cursor (R24, R134) -/

/-- Run a block rule at the offset of `BT[CUR]`; its body starts one byte later (R24). -/
def atBlock (s : State) (rule : Nat → Result) : Result :=
  match s.bt[s.cur]? with
  | some e => rule e.offset
  | none => .fault .noBlockAtCursor

/-- `CUR <- CUR + 1` (R134). -/
def State.nextBlock (s : State) : State := { s with cur := s.cur + 1 }

/-! ### The diagnostic channel (R35; log 14) -/

/-- Append an event about the block at `CUR`, if the channel is reported to. -/
def State.report (s : State) (k : DiagKind) : State :=
  if s.params.reportDiag then { s with diag := s.diag ++ [{ kind := k, blockIndex := s.cur }] } else s

end Sys2Proof.Machine
end

