-- ==== Sys2Proof/Machine/Control.lean ====
section
/-! DEFINITION. Loop start and loop end (spec/42_control_flow.md), the two blocks that set the cursor
themselves. Neither emits a command. -/

namespace Sys2Proof.Machine

open Sys2Proof

/-- `LOOPS` (R150); inside an active loop it replaces the one context (R154). -/
def execLoops (count : Half) (s : State) : Result :=
  .next { s with
    cur := s.cur + 1
    loop := { cnt := count, ret := s.cur + 1, active := true } }

/-- `LOOPE` (R151). -/
def execLoope (s : State) : Result :=
  if s.loop.goesBack then
    .next { s with cur := s.loop.ret, loop := { s.loop with cnt := s.loop.cnt - 1 } }
  else
    .next { s with cur := s.cur + 1, loop := { s.loop with active := false } }

end Sys2Proof.Machine
end

