-- ==== Sys2Proof/Machine/Operands.lean ====
section
/-! DEFINITION. Operand assembly (spec/30_encoding.md R93) and the bit orders of the two data streams
(spec/20_memory.md R53, spec/30_encoding.md R92): the four fields that are transformed before use, the
bits taken from a payload byte, the packed symbol index, the effective addresses of R66. -/

namespace Sys2Proof.Machine

open Sys2Proof

/-- `ceil_log2(n)` by the table of R13, `1 <= n <= 256`. -/
def ceilLog2 (n : Nat) : Nat :=
  if n ≤ 1 then 0
  else if n ≤ 2 then 1
  else if n ≤ 4 then 2
  else if n ≤ 8 then 3
  else if n ≤ 16 then 4
  else if n ≤ 32 then 5
  else if n ≤ 64 then 6
  else if n ≤ 128 then 7
  else 8

/-- `size(a)`: an alphabet-size field of 0 means 256 (R93 (a), R201, R209). -/
def alphabetSize (a : Byte) : Nat := if a = 0 then maxAlphabet else a.toNat

/-- A `PAUSE` block's pause: 0, the stop-the-tape marker, becomes `STOP_PAUSE_MS` (R93 (b), R192). -/
def stopPause (p : Half) : Half := if p = 0 then stopPauseMs else p

/-- The standard-speed pilot count chosen by the first payload byte (R93 (c), R169). -/
def standardPilotCount (threshold : Nat) (first : Byte) : Half :=
  if first.toNat < threshold then stdPilotHeader else stdPilotData

/-- The first `k` bits of a payload byte, bit 7 first (R53, R165). -/
def leadingBits (v : Byte) (k : Nat) : List Bool := (List.range k).map fun j => v.getLsbD (7 - j)

/-- `streambit(str, q)`: bit `7 - (q mod 8)` of `IMG[str + floor(q / 8)]` (R208). -/
def streamBit (m : Memory) (str q : Nat) : Option Bool :=
  (m.read (str + q / 8)).map fun v => v.getLsbD (7 - q % 8)

/-- `n` stream bits from bit `q` on, in the order they are read (R206). -/
def streamBits (m : Memory) (str : Nat) : Nat → Nat → Option (List Bool)
  | _, 0 => some []
  | q, n + 1 =>
    match streamBit m str q with
    | none => none
    | some v =>
      match streamBits m str (q + 1) n with
      | none => none
      | some vs => some (v :: vs)

/-- The index `NB` stream bits spell: with `SYM_INDEX_MSB_FIRST` the first bit read is the most
significant one (R8, R92, R206). With false it is the least significant one: DEDUCED from what test
vector V13 gives for three indexes at false (log 26). -/
def indexOfBits (msbFirst : Bool) (bits : List Bool) : Nat :=
  if msbFirst then bits.foldl (fun i v => 2 * i + v.toNat) 0
  else bits.foldr (fun v i => v.toNat + 2 * i) 0

/-- Size of one symbol definition of `maxp` durations (R90). -/
def symbolSize (Y : SymbolLayout) (maxp : Nat) : Nat := Y.durations.width * maxp + Y.base

end Sys2Proof.Machine
end

