-- ==== Sys2Proof/Machine/PulseTrain.lean ====
section
/-! DEFINITION. The pulse-train family (spec/43_pulse_train.md): the pilot-train primitive `PT`, the
standard-speed parameters a `STD` block and a TAP record share, and the meanings of `STD`, `TURBO`,
`TONE`, `PULSES` and `PDATA`. -/

namespace Sys2Proof.Machine

open Sys2Proof

/-! ### The payload and the pilot-train primitive -/

/-- The bits of a payload of `n` bytes at `ptr`, each turned into commands: 8 bits of every byte, most
significant first, and `bitsLast` of the last one (R53, R162, R165). -/
def payload (m : Memory) (bitCmds : Bool → List Command) (bitsLast : Nat) : Nat → Nat → Emission
  | _, 0 => Emission.all []
  | ptr, n + 1 =>
    match m.read ptr with
    | none => Emission.halt .truncated
    | some v =>
      (Emission.all ((leadingBits v (if n = 0 then bitsLast else 8)).flatMap bitCmds)).seq
        (payload m bitCmds bitsLast (ptr + 1) n)

/-- `usedBits` above 8 with a payload has no meaning (R165, R190). -/
def PulseRegs.bitsOutOfRange (p : PulseRegs) : Bool :=
  decide (0 < p.dataLen.toNat) && decide (8 < p.bitsLast.toNat)

/-- The pilot: `P.pilotCount` pulses of `P.pilotLength` ticks (R162). -/
def pilot (p : PulseRegs) : List Command :=
  (List.replicate p.pilotCount.toNat (pulse p.pilotLength)).flatten

/-- A sync pulse is present when its length is not zero (R163). -/
def syncPulse (n : Half) : List Command := if n = 0 then [] else pulse n

/-- A data bit is two pulses of the length its value selects (R164). -/
def dataBit (p : PulseRegs) (v : Bool) : List Command :=
  pulse (if v then p.bit1 else p.bit0) ++ pulse (if v then p.bit1 else p.bit0)

/-- The pause of a block that has a pause field (R161). -/
def blockPause (p : PulseRegs) : List Command :=
  if p.hasPause then pause p.pauseMs.toNat else []

/-- `PT()` (R162). -/
def pilotTrain (m : Memory) (p : PulseRegs) : Emission :=
  if p.bitsOutOfRange then Emission.halt (.refuse .bitsInLastByteRange)
  else
    (Emission.all (pilot p ++ syncPulse p.sync1 ++ syncPulse p.sync2)).seq
      ((payload m (dataBit p) p.bitsLast.toNat p.dataPtr p.dataLen.toNat).seq
        (Emission.all (blockPause p)))

/-- The pause operand's load (R161): `P.hasPause` says whether the block has one, `P.pauseMs` is
loaded if it has. -/
def PulseRegs.loadPause (p : PulseRegs) (pause : Option Half) : PulseRegs :=
  { p with pauseMs := pause.getD p.pauseMs, hasPause := pause.isSome }

/-! ### Standard speed (R169, R170, R261) -/

/-- What a `STD` block loads before it looks at its payload's length (R170). -/
def State.loadPayload (s : State) (pause : Option Half) (ptr : Nat) (len : Half) : State :=
  { s with p := { s.p with pauseMs := pause.getD s.p.pauseMs, dataPtr := ptr, dataLen := len.setWidth 24 } }

/-- The parameters standard speed fixes (R170, R261). -/
def State.loadStandard (s : State) (hasPause : Bool) : State :=
  { s with p := { s.p with
      pilotLength := stdPilotLen
      sync1 := stdSync1
      sync2 := stdSync2
      bit0 := stdBit0
      bit1 := stdBit1
      bitsLast := 8
      hasPause := hasPause } }

/-- The pilot count chosen by the first payload byte (R169). -/
def State.loadPilotCount (s : State) (first : Byte) : State :=
  { s with p := { s.p with pilotCount := standardPilotCount s.params.flagThreshold first } }

/-- The signal of a standard-speed payload, all but the pilot count loaded, for the block or record at
offset `o` (R169, R170, R261). -/
def standardSignal (o : Nat) (goOn : State → State) (s : State) : Result :=
  match s.img.read s.p.dataPtr with
  | none => .next (s.raise (.truncatedBlock o))
  | some first => closeBlock o (pilotTrain s.img (s.loadPilotCount first).p) goOn (s.loadPilotCount first)

/-! ### The blocks -/

/-- `STD` (R170): an empty payload is refused after the first three loads, before anything is emitted
(R169). -/
def execStd (pause : Option Half) (len : Half) (s : State) : Result :=
  atBlock s fun o =>
    let s := s.loadPayload pause (o + 1 + s.layout.std.data) len
    if len = 0 then .next (s.refuse .emptyStandardBlock)
    else standardSignal o State.nextBlock (s.loadStandard pause.isSome)

/-- `TURBO` (R171): every parameter is a field. -/
def execTurbo (pilotLength sync1 sync2 bit0 bit1 pilotCount : Half) (usedBits : Byte) (pause : Option Half)
    (len : Word24) (s : State) : Result :=
  atBlock s fun o =>
    let s := { s with p := { s.p.loadPause pause with
      pilotLength := pilotLength
      sync1 := sync1
      sync2 := sync2
      bit0 := bit0
      bit1 := bit1
      pilotCount := pilotCount
      bitsLast := usedBits
      dataLen := len
      dataPtr := o + 1 + s.layout.turbo.data } }
    closeBlock o (pilotTrain s.img s.p) State.nextBlock s

/-- The pause of `TONE` and `PULSES`, which is no operand of theirs: none, unless the layout gives the block
at offset `o` a pause field (R161, G3). -/
def readPause (o : Nat) (f : Option FieldPos) (s : State) (rule : Option Half → Result) : Result :=
  match s.img.optField 16 (o + 1) f with
  | none => .next (s.raise (.truncatedBlock o))
  | some pause => rule pause

/-- `TONE` (R172): pilot pulses only; every other parameter register is 0 (R23; log 15). -/
def execTone (pulseLength count : Half) (s : State) : Result :=
  atBlock s fun o => readPause o s.layout.tone.pause s fun pause =>
    let s := { s with p := { PulseRegs.reset.loadPause pause with
      pilotLength := pulseLength
      pilotCount := count } }
    closeBlock o (pilotTrain s.img s.p) State.nextBlock s

/-- The listed pulses, `n` of them of `w` bytes each from offset `a` on (R66 (c), R173). -/
def listedPulses (m : Memory) (w : Nat) : Nat → Nat → Emission
  | _, 0 => Emission.all []
  | a, n + 1 =>
    match m.word 16 a w with
    | none => Emission.halt .truncated
    | some d => (Emission.all (pulse d)).seq (listedPulses m w (a + w) n)

/-- `PULSES` (R173): `P.dataPtr` and `P.dataLen` are the list's pointer and count (R23); `P.hasPause` is
0, as R161 has it, though R23's table and R173's pseudocode do not load it (log 27). -/
def execPulses (n : Byte) (s : State) : Result :=
  atBlock s fun o => readPause o s.layout.pulses.pause s fun pause =>
    let s := { s with p := { s.p.loadPause pause with
      dataPtr := o + 1 + s.layout.pulses.list.off
      dataLen := n.setWidth 24 } }
    closeBlock o
      ((listedPulses s.img s.layout.pulses.list.width s.p.dataPtr s.p.dataLen.toNat).seq
        (Emission.all (blockPause s.p)))
      State.nextBlock s

/-- `PDATA` (R174): no pilot, no sync; those registers are 0 (R23; log 15). -/
def execPdata (bit0 bit1 : Half) (usedBits : Byte) (pause : Option Half) (len : Word24) (s : State) : Result :=
  atBlock s fun o =>
    let s := { s with p := { s.p.loadPause pause with
      pilotLength := 0
      pilotCount := 0
      sync1 := 0
      sync2 := 0
      bit0 := bit0
      bit1 := bit1
      bitsLast := usedBits
      dataLen := len
      dataPtr := o + 1 + s.layout.pdata.data } }
    closeBlock o (pilotTrain s.img s.p) State.nextBlock s

end Sys2Proof.Machine
end

