-- ==== Sys2Proof/Machine/DirectPause.lean ====
section
/-! DEFINITION. Direct recording and pause/stop (spec/44_direct_and_pause.md): the two primitives that
do not toggle. -/

namespace Sys2Proof.Machine

open Sys2Proof

/-- One direct-recording bit: the level set, then held for `P.tps` ticks (R190). -/
def sampleBit (p : PulseRegs) (v : Bool) : List Command :=
  [if v then .setLevelHigh else .setLevelLow, .advance (p.tps.setWidth 64)]

/-- The direct-recording primitive (R190). -/
def directRecording (m : Memory) (p : PulseRegs) : Emission :=
  if p.bitsOutOfRange then Emission.halt (.refuse .bitsInLastByteRange)
  else
    (payload m (sampleBit p) p.bitsLast.toNat p.dataPtr p.dataLen.toNat).seq
      (Emission.all (blockPause p))

/-- `DIRECT` (R190). Where a layout gives it no used-bits field, all 8 bits of the last byte are used.
DESIGN CHOICE (log 10). -/
def execDirect (tps : Half) (pause : Option Half) (usedBits : Option Byte) (len : Word24) (s : State) : Result :=
  atBlock s fun o =>
    let s := { s with p := { s.p.loadPause pause with
      tps := tps
      bitsLast := usedBits.getD 8
      dataLen := len
      dataPtr := o + 1 + s.layout.direct.data } }
    closeBlock o (directRecording s.img s.p) State.nextBlock s

/-- `PAUSE` (R192): a pause of 0 is the stop-the-tape marker and lasts `STOP_PAUSE_MS`. -/
def execPause (pause : Half) (s : State) : Result :=
  let s := { s with p := s.p.loadPause (some (stopPause pause)) }
  .next (s.emitAll (blockPause s.p)).nextBlock

end Sys2Proof.Machine
end

