-- ==== Sys2Proof/Machine/Generalized.lean ====
section
/-! DEFINITION. The generalized data block and the symbol-to-pulse decoder SPD
(spec/45_generalized.md). -/

namespace Sys2Proof.Machine

open Sys2Proof

/-! ### One symbol (R203) -/

/-- The command of a symbol's starting polarity; none when the flags byte has no meaning (R90, R203,
R211). -/
def polarity (Y : SymbolLayout) (flags : Byte) : Option (List Command) :=
  if flags.toNat = Y.keep then some []
  else if flags.toNat = Y.invert then some [.toggleLevel]
  else if flags.toNat = Y.forceLow then some [.setLevelLow]
  else if flags.toNat = Y.forceHigh then some [.setLevelHigh]
  else none

/-- The stored durations of `w` bytes each from offset `a` on, at most `n`: the first zero ends the symbol
(R203). -/
def symbolPulses (m : Memory) (w : Nat) : Nat → Nat → Emission
  | _, 0 => Emission.all []
  | a, n + 1 =>
    match m.word 16 a w with
    | none => Emission.halt .truncated
    | some d => if d = 0 then Emission.all [] else (Emission.all (pulse d)).seq (symbolPulses m w (a + w) n)

/-- `SYM(tab, maxp, asz, idx)` (R203). -/
def symbol (Y : SymbolLayout) (m : Memory) (tab maxp asz idx : Nat) : Emission :=
  if asz ≤ idx then Emission.halt (.refuse .symbolIndexRange)
  else
    match m.field 8 (tab + idx * symbolSize Y maxp) Y.flags with
    | none => Emission.halt .truncated
    | some flags =>
      match polarity Y flags with
      | none => Emission.halt (.refuse .symbolFlagsRange)
      | some cs =>
        (Emission.all cs).seq
          (symbolPulses m Y.durations.width (tab + idx * symbolSize Y maxp + Y.durations.off) maxp)

/-! ### The two streams (R205, R206) -/

/-- `replay_rle`: `n` run-length entries from offset `a` on (R205). -/
def replayRle (L : Layout) (m : Memory) (tab maxp asz : Nat) : Nat → Nat → Emission
  | _, 0 => Emission.all []
  | a, n + 1 =>
    match m.field 8 a L.rle.symbolIndex with
    | none => Emission.halt .truncated
    | some idx =>
      match m.field 16 a L.rle.repeatCount with
      | none => Emission.halt .truncated
      | some reps =>
        (Emission.times reps.toNat (symbol L.symbol m tab maxp asz idx.toNat)).seq
          (replayRle L m tab maxp asz (a + L.rle.size) n)

/-- What the data stream emits, and the value it leaves in `G.bitpos`. -/
structure DataReplay where
  out    : Emission
  bitpos : Nat
deriving DecidableEq, Repr

/-- `replay_data`: `n` packed symbols of `nb` bits from stream bit `q` on (R206). -/
def replayData (L : Layout) (msbFirst : Bool) (m : Memory) (tab maxp asz nb str : Nat) : Nat → Nat → DataReplay
  | q, 0 => { out := Emission.all [], bitpos := q }
  | q, n + 1 =>
    match streamBits m str q nb with
    | none => { out := Emission.halt .truncated, bitpos := q }
    | some bits =>
      let one := symbol L.symbol m tab maxp asz (indexOfBits msbFirst bits)
      match one.stop with
      | some _ => { out := one, bitpos := q + nb }
      | none =>
        let rest := replayData L msbFirst m tab maxp asz nb str (q + nb) n
        { out := one.seq rest.out, bitpos := rest.bitpos }

/-! ### Where the tables lie (R89, R200, R202) -/

/-- The tables of a generalized block and the end `q` of the last one it will read. -/
structure GdbTables where
  symP : Nat
  rle  : Nat
  symD : Nat
  str  : Nat
  stop : Nat
deriving DecidableEq, Repr

/-- The bytes a packed stream of `totd` symbols of `nb` bits occupies, by the layout's formula (R207, G4). -/
def streamBytes (z : StreamSize) (nb totd : Nat) : Nat :=
  z.base + z.scale * ((nb * totd + z.unit - 1) / z.unit)

/-- Whether the block reads a table: its stream has a symbol (R200). -/
def gdbIsRead (g : SymbolRegs) : GdbTable → Bool
  | .pilotSymbols => decide (0 < g.totp.toNat)
  | .pilotRuns => decide (0 < g.totp.toNat)
  | .dataSymbols => decide (0 < g.totd.toNat)
  | .dataStream => decide (0 < g.totd.toNat)

/-- The bytes of a table (R89, R207). -/
def gdbBytes (L : Layout) (g : SymbolRegs) : GdbTable → Nat
  | .pilotSymbols => symbolSize L.symbol g.npp.toNat * g.asp.toNat
  | .pilotRuns => L.rle.size * g.totp.toNat
  | .dataSymbols => symbolSize L.symbol g.npd.toNat * g.asd.toNat
  | .dataStream => streamBytes L.gdb.stream g.nb.toNat g.totd.toNat

/-- The bytes a table takes up: none where it is absent (R89). -/
def gdbExtent (L : Layout) (g : SymbolRegs) (t : GdbTable) : Nat :=
  if gdbIsRead g t || !L.gdb.omitEmpty then gdbBytes L g t else 0

/-- Where a table starts: behind those that stand before it, without padding (R89). A table the layout's
order leaves out starts behind all that it lists. DESIGN CHOICE (log 10). -/
def gdbStart (L : Layout) (g : SymbolRegs) (first : Nat) (t : GdbTable) : Nat :=
  first + ((L.gdb.order.takeWhile fun u => decide (u ≠ t)).map (gdbExtent L g)).sum

/-- The tables a block may read (R89, R200). -/
def blockTables : List GdbTable := [.pilotSymbols, .pilotRuns, .dataSymbols, .dataStream]

/-- The table offsets, computed from the registers, and the end of the last table that is read (R89,
R200, R202). Every table that is read counts, one the layout's order leaves out too: a choice of the
model for a layout the spec does not consider. DESIGN CHOICE (log 10). -/
def gdbTables (L : Layout) (g : SymbolRegs) (first : Nat) : GdbTables where
  symP := gdbStart L g first .pilotSymbols
  rle := gdbStart L g first .pilotRuns
  symD := gdbStart L g first .dataSymbols
  str := gdbStart L g first .dataStream
  stop := ((blockTables.filter (gdbIsRead g)).map fun t => gdbStart L g first t + gdbBytes L g t).foldl max first

/-! ### The block (R200, R201) -/

/-- The register load (R201), and `P.hasPause`, which R161 says is 1 for this block though neither R23's
table nor R200's pseudocode loads it (log 27). -/
def State.loadGdb (s : State) (pause : Option Half) (totp : Word32) (npp asp : Byte) (totd : Word32)
    (npd asd : Byte) : State :=
  { s with
    p := { s.p with hasPause := pause.isSome }
    g := { s.g with
      pauseMs := pause.getD s.g.pauseMs
      totp := totp
      npp := npp
      asp := BitVec.ofNat 9 (alphabetSize asp)
      totd := totd
      npd := npd
      asd := BitVec.ofNat 9 (alphabetSize asd)
      nb := BitVec.ofNat 4 (ceilLog2 (alphabetSize asd)) } }

/-- The pause of a generalized block: `G.pauseMs` milliseconds, if it has a pause field (R161, R200). -/
def gdbPause (s : State) : List Command := if s.p.hasPause then pause s.g.pauseMs.toNat else []

/-- `DIAG` may hear of an alphabet-size field of 0 (R209, R282; log 14). -/
def State.reportAlphabet (s : State) (asp asd : Byte) : State :=
  if asp = 0 ∨ asd = 0 then s.report .alphabetSizeZero else s

/-- The pilot/sync stream, if it has a symbol (R200, R205). -/
def pilotStream (L : Layout) (m : Memory) (g : SymbolRegs) (t : GdbTables) : Emission :=
  if 0 < g.totp.toNat then
    replayRle L m t.symP g.npp.toNat g.asp.toNat t.rle g.totp.toNat
  else Emission.all []

/-- The data stream, if it has a symbol (R200, R206). -/
def dataStream (L : Layout) (msbFirst : Bool) (m : Memory) (g : SymbolRegs) (t : GdbTables) : DataReplay :=
  if 0 < g.totd.toNat then
    replayData L msbFirst m t.symD g.npd.toNat g.asd.toNat g.nb.toNat t.str 0 g.totd.toNat
  else { out := Emission.all [], bitpos := g.bitpos }

/-- `G.symtab` and `G.stream` while the pilot/sync stream is replayed (R30; log 16). -/
def SymbolRegs.usePilotTables (g : SymbolRegs) (t : GdbTables) : SymbolRegs :=
  if 0 < g.totp.toNat then { g with symtab := t.symP, stream := t.rle } else g

/-- `G.symtab`, `G.stream` and `G.bitpos` at the end of the data stream (R30, R206; log 16). -/
def SymbolRegs.useDataTables (g : SymbolRegs) (t : GdbTables) (bitpos : Nat) : SymbolRegs :=
  if 0 < g.totd.toNat then { g with symtab := t.symD, stream := t.str, bitpos := bitpos } else g

/-- The replay of both streams and the pause, once the extent is known to lie in the image (R200). -/
def gdbReplay (o : Nat) (t : GdbTables) (s : State) : Result :=
  let pilotSync := pilotStream s.layout s.img s.g t
  let s := { s with g := s.g.usePilotTables t }
  match pilotSync.stop with
  | some _ => closeBlock o pilotSync State.nextBlock s
  | none =>
    let data := dataStream s.layout s.params.symIndexMsbFirst s.img s.g t
    let s := { s with g := s.g.useDataTables t data.bitpos }
    closeBlock o (pilotSync.seq (data.out.seq (Emission.all (gdbPause s)))) State.nextBlock s

/-- `GDB` (R200): registers, extent check, both streams, pause. The field `blen` serves `bodySize`
only (R201). Its fixed fields are read together at the fetch: where one of them lies beyond `LEN`, the
block fails before any of these loads (log 28). -/
def execGdb (_blen : Word32) (pause : Option Half) (totp : Word32) (npp asp : Byte) (totd : Word32)
    (npd asd : Byte) (s : State) : Result :=
  atBlock s fun o =>
    let s := (s.loadGdb pause totp npp asp totd npd asd).reportAlphabet asp asd
    let t := gdbTables s.layout s.g (o + 1 + s.layout.gdb.tables)
    if s.len < t.stop then .next (s.raise (.truncatedBlock o))
    else gdbReplay o t s

end Sys2Proof.Machine
end

