-- ==== Sys2Proof/Machine/Skip.lean ====
section
/-! DEFINITION. The skipped blocks (spec/46_skipped_blocks.md): indexed, checked at dispatch, and passed
over "without altering signal state". -/

namespace Sys2Proof.Machine

open Sys2Proof

/-- `SKIP` (R230): `CUR <- CUR + 1`, and an event of `DIAG` with the type byte of the block at `CUR`. -/
def State.skip (s : State) : State :=
  match s.bt[s.cur]? with
  | some e => (s.report (.unsupportedBlock e.type)).nextBlock
  | none => s.nextBlock

/-- `C64ROM` (R231): no signal is made from its payload. -/
def execC64rom (_blen : Word32) (s : State) : Result := .next s.skip

/-- `C64TURBO` (R232). -/
def execC64turbo (_blen : Word32) (s : State) : Result := .next s.skip

/-- `CSW` (R233): its recording is not replayed, its pause not applied. -/
def execCsw (_blen : Word32) (s : State) : Result := .next s.skip

/-- `GRPS` (R234): groups have no effect on replay. -/
def execGrps (_n : Byte) (s : State) : Result := .next s.skip

/-- `GRPE` (R235). -/
def execGrpe (s : State) : Result := .next s.skip

/-- `JUMP` (R236): the jump is not taken. -/
def execJump (_rel : Half) (s : State) : Result := .next s.skip

/-- `CALLSEQ` (R237): no call is made. -/
def execCallseq (_n : Half) (s : State) : Result := .next s.skip

/-- `RET` (R238). -/
def execRet (s : State) : Result := .next s.skip

/-- `SELECT` (R239): no selection is offered. -/
def execSelect (_n : Half) (s : State) : Result := .next s.skip

/-- `STOP48` (R240): no pause, no stop. -/
def execStop48 (_blen : Word32) (s : State) : Result := .next s.skip

/-- `SETLVL` (R241): the level is not set. -/
def execSetlvl (_blen : Word32) (s : State) : Result := .next s.skip

/-- `TEXT` (R242). -/
def execText (_n : Byte) (s : State) : Result := .next s.skip

/-- `MSG` (R243): the display time adds no tick. -/
def execMsg (_time _n : Byte) (s : State) : Result := .next s.skip

/-- `ARCHIVE` (R244). -/
def execArchive (_n : Half) (s : State) : Result := .next s.skip

/-- `HWTYPE` (R245). -/
def execHwtype (_n : Byte) (s : State) : Result := .next s.skip

/-- `EMUINFO` (R246). -/
def execEmuinfo (s : State) : Result := .next s.skip

/-- `CUSTOM` (R247). -/
def execCustom (_id : BitVec 128) (_n : Word32) (s : State) : Result := .next s.skip

/-- `SNAP` (R248): the snapshot is not loaded. -/
def execSnap (_kind : Byte) (_n : Word24) (s : State) : Result := .next s.skip

/-- `GLUE` (R249): the embedded header is not validated. -/
def execGlue (s : State) : Result := .next s.skip

/-- `UNKNOWN` (R250): every type byte without a row. -/
def execUnknown (_type : Byte) (_blen : Word32) (s : State) : Result := .next s.skip

end Sys2Proof.Machine
end

