-- ==== Sys2Proof/Machine/Tap.lean ====
section
/-! DEFINITION. The TAP record (spec/47_tap_adapter.md R261): a standard-speed payload with the pause
fixed. The session around it is in Sequencer.lean. -/

namespace Sys2Proof.Machine

open Sys2Proof

/-- Offset of a record's payload from its prefix (R95). -/
def recordPrefix : Nat := 2

/-- `POS <- POS + 2 + n` (R260). -/
def State.nextRecord (n : Half) (s : State) : State := { s with pos := s.pos + recordPrefix + n.toNat }

/-- `TAPREC` (R261): the record at `POS`, then `POS` behind it (R260; log 18). An empty record is refused
before any load. -/
def execTaprec (n : Half) (s : State) : Result :=
  if n = 0 then .next (s.refuse .emptyStandardBlock)
  else
    standardSignal s.pos (State.nextRecord n)
      ((s.loadPayload (some tapPauseMs) (s.pos + recordPrefix) n).loadStandard true)

end Sys2Proof.Machine
end

