-- ==== Sys2Proof/Machine/Dispatch.lean ====
section
/-! DEFINITION. One arm per constructor of Instr: the meaning of each block type (spec/41_sequencer.md
R134) and of the TAP record (spec/47_tap_adapter.md R261). -/

namespace Sys2Proof.Machine

open Sys2Proof

/-- Execute (R134). -/
def exec (i : Instr) (s : State) : Host.Outcome State Fault Refusal :=
  match i with
  | .std pause len => Sys2Proof.Machine.execStd pause len s
  | .turbo pilotLength sync1 sync2 bit0 bit1 pilotCount usedBits pause len => Sys2Proof.Machine.execTurbo pilotLength sync1 sync2 bit0 bit1 pilotCount usedBits pause len s
  | .tone pulseLength count => Sys2Proof.Machine.execTone pulseLength count s
  | .pulses n => Sys2Proof.Machine.execPulses n s
  | .pdata bit0 bit1 usedBits pause len => Sys2Proof.Machine.execPdata bit0 bit1 usedBits pause len s
  | .direct tps pause usedBits len => Sys2Proof.Machine.execDirect tps pause usedBits len s
  | .c64rom blen => Sys2Proof.Machine.execC64rom blen s
  | .c64turbo blen => Sys2Proof.Machine.execC64turbo blen s
  | .csw blen => Sys2Proof.Machine.execCsw blen s
  | .gdb blen pause totp npp asp totd npd asd => Sys2Proof.Machine.execGdb blen pause totp npp asp totd npd asd s
  | .pause pause => Sys2Proof.Machine.execPause pause s
  | .grps n => Sys2Proof.Machine.execGrps n s
  | .grpe => Sys2Proof.Machine.execGrpe s
  | .jump rel => Sys2Proof.Machine.execJump rel s
  | .loops count => Sys2Proof.Machine.execLoops count s
  | .loope => Sys2Proof.Machine.execLoope s
  | .callseq n => Sys2Proof.Machine.execCallseq n s
  | .ret => Sys2Proof.Machine.execRet s
  | .select n => Sys2Proof.Machine.execSelect n s
  | .stop48 blen => Sys2Proof.Machine.execStop48 blen s
  | .setlvl blen => Sys2Proof.Machine.execSetlvl blen s
  | .text n => Sys2Proof.Machine.execText n s
  | .msg time n => Sys2Proof.Machine.execMsg time n s
  | .archive n => Sys2Proof.Machine.execArchive n s
  | .hwtype n => Sys2Proof.Machine.execHwtype n s
  | .emuinfo => Sys2Proof.Machine.execEmuinfo s
  | .custom id n => Sys2Proof.Machine.execCustom id n s
  | .snap kind n => Sys2Proof.Machine.execSnap kind n s
  | .glue => Sys2Proof.Machine.execGlue s
  | .unknown type blen => Sys2Proof.Machine.execUnknown type blen s
  | .taprec n => Sys2Proof.Machine.execTaprec n s

end Sys2Proof.Machine
end

