-- ==== Sys2Proof/Machine/Sequencer.lean ====
section
/-! DEFINITION. The sequencer SEQ around the block rules (spec/41_sequencer.md, spec/47_tap_adapter.md):
header check, block indexer, prologue, fetch with the dispatch check, epilogue. -/

namespace Sys2Proof.Machine

open Sys2Proof

/-! ### The header check (R121 to R123) -/

/-- The first 8 bytes are `SIGNATURE` (R121). -/
def signatureMatches (m : Memory) : Bool :=
  decide ((List.range signature.length).map m.read = signature.map some)

/-- The first malformed-container error of the header, in the order of R123. -/
def headerError (pr : Params) (m : Memory) : Option FatalError :=
  if m.len < headerLen then some (.tooSmall m.len)
  else if signatureMatches m then
    match m.read signature.length with
    | some major => if pr.supportedMajor < major.toNat then some (.unsupportedVersion major) else none
    | none => none
  else some .badSignature

/-! ### Session start, prologue, epilogue (R120, R130, R132, R260, R263, R264) -/

/-- A TZX session: header check, then indexing from behind the header (R120, R124). -/
def startTzx (s : State) : State :=
  let s := { s with phase := .indexing }
  match headerError s.params s.img with
  | some e => s.raise e
  | none => { s with pos := headerLen, bt := [] }

/-- The commands that frame a TAP session only if `TAP_PROLOGUE_EPILOGUE` holds (R263, R264). -/
def tapFrame (pr : Params) (cs : List Command) : List Command :=
  if pr.tapPrologueEpilogue then cs else []

/-- A TAP session has no header and no table: it runs at once from offset 0 (R260, R263). -/
def startTap (s : State) : State :=
  let s := { s with phase := .running }
  { s.emitAll (tapFrame s.params [.setLevelLow]) with pos := 0 }

/-- The prologue of a TZX session (R130). -/
def prologue (s : State) : State :=
  let s := { s with phase := .running }
  { s.emit .setLevelLow with cur := 0 }

/-- The epilogue of a TZX session (R132). -/
def epilogue (s : State) : State :=
  { s.emit .advanceOneMillisecond with phase := .done }

/-- The epilogue of a TAP session (R264). -/
def epilogueTap (s : State) : State :=
  { s.emitAll (tapFrame s.params [.advanceOneMillisecond]) with phase := .done }

/-! ### The block indexer (R125, R126) -/

/-- One indexer step for the block of type `t` at `POS` (R125). -/
def indexBlock (t : Byte) (s : State) : State :=
  { s with
    bt := s.bt ++ [{ offset := s.pos, type := t }]
    pos := match bodySize s.layout s.img t (s.pos + 1) with
      | some size => s.pos + 1 + size
      | none => s.len }

/-- `POS >= LEN`: an empty table is an error, any other starts the interpreter (R126, R130). -/
def endIndexing (s : State) : State :=
  if s.bt = [] then s.raise .empty else prologue s

/-- Indexing, one block a step (R125); the type byte is readable exactly while `POS < LEN`. -/
def indexStep (s : State) : State :=
  match s.img.read s.pos with
  | some t => indexBlock t s
  | none => endIndexing s

/-! ### Fetch (R131, R133, R260, R262) -/

/-- The dispatch check passes: the whole block lies in the image (R133). -/
def blockFits (s : State) (e : Entry) : Bool :=
  match bodySize s.layout s.img e.type (e.offset + 1) with
  | some size => decide (e.offset + 1 + size ≤ s.len)
  | none => false

/-- The whole TAP record at `POS` lies in the image (R262). -/
def recordFits (s : State) (n : Half) : Bool := decide (s.pos + recordPrefix + n.toNat ≤ s.len)

/-- The TAP record at `POS`, if prefix and payload lie in the image (R260, R262). -/
def fetchRecord (s : State) : Option Instr :=
  match s.img.read16 s.pos with
  | some n => if recordFits s n then decodeRecord s.img s.pos else none
  | none => none

/-- Run the block at a table entry that has passed the dispatch check (R134). A skipped block reads none
of its fields (R230): it is skipped also where a layout names one outside the image. Any other block whose
fields do not all lie in the image raises `TruncatedBlock` before anything of it is loaded (R56, R201;
log 28). -/
def runEntry (s : State) (e : Entry) : Result :=
  match decodeBody s.layout s.img e.type (e.offset + 1) with
  | some i => exec i s
  | none => .next (if s.layout.skips e.type then s.skip else s.raise (.truncatedBlock e.offset))

/-- The interpreter loop, one block a step (R131, R133, R134). -/
def runBlock (s : State) : Result :=
  match s.bt[s.cur]? with
  | none => .next (epilogue s)
  | some e => if blockFits s e then runEntry s e else .next (s.raise (.truncatedBlock e.offset))

/-- The TAP loop, one record a step (R260, R262). -/
def runRecord (s : State) : Result :=
  if s.len ≤ s.pos then .next (epilogueTap s)
  else
    match fetchRecord s with
    | some i => exec i s
    | none => .next (s.raise (.truncatedBlock s.pos))

/-! ### The host's table words (log 19) -/

/-- The block table the indexer builds from offset `o` on, at most `fuel` entries (R125). -/
def tableFrom (L : Layout) (m : Memory) : Nat → Nat → List Entry
  | _, 0 => []
  | o, fuel + 1 =>
    match m.read o with
    | none => []
    | some t =>
      { offset := o, type := t } ::
        (match bodySize L m t (o + 1) with
        | some size => tableFrom L m (o + 1 + size) fuel
        | none => [])

/-- The header of a TZX image of version 1.20 (R96). -/
def tzxHeader : List Byte := signature ++ [0x01, 0x14]

/-- The image, at least long enough for the block whose type byte is at offset `o` (R73); bytes that
are not listed read as zeros. -/
def Memory.holdBlock (m : Memory) (o : Nat) : Memory :=
  match m.read o with
  | none => m
  | some t =>
    match bodySize defaultLayout m t (o + 1) with
    | some size => { m with len := max m.len (o + 1 + size) }
    | none => m

/-- An image that holds a table word as its first block, whole, or as its first record. -/
def wordImage (nbits w : Nat) : Memory :=
  match tableKind nbits with
  | .tzx => (Memory.ofBytes (tzxHeader ++ tableBytes nbits w)).holdBlock headerLen
  | .tap => Memory.ofBytes (tableBytes nbits w)

end Sys2Proof.Machine
end

