-- ==== Sys2Proof/Machine/Step.lean ====
section
/-! DEFINITION. One step of TPG: a session's start, one block indexed, one block or record executed, or
the epilogue (spec/41_sequencer.md R120, R135; log 6). -/

namespace Sys2Proof.Machine

open Sys2Proof

/-- The start of a session (R120, R260). -/
def startSession (s : State) : State :=
  match s.input.kind with
  | .tzx => startTzx s
  | .tap => startTap s

/-- The running phase (R131, R260). -/
def runStep (s : State) : Result :=
  match s.input.kind with
  | .tzx => runBlock s
  | .tap => runRecord s

/-- One step. Done, Failed and Refused have none (R277). -/
def step (s : State) : Host.Outcome State Fault Refusal :=
  match s.phase with
  | .idle => .next (startSession s)
  | .indexing => .next (indexStep s)
  | .running => runStep s
  | .done => .fault .sessionEnded
  | .failed => .fault .sessionEnded
  | .refused => .fault .sessionEnded

/-- The step relation with the session inputs as its arguments (R20): classes 2 to 4 before and after,
over inputs that no step writes. -/
def stepOver (x : Input) (r : Session) : Host.Outcome Session Fault Refusal :=
  match step { r with input := x } with
  | .next t => .next t.toSession
  | .fault f => .fault f
  | .refused f => .refused f

/-- `n` steps over the same inputs, stopping at the first fault or refusal. -/
def runOver (x : Input) : Nat → Session → Host.Outcome Session Fault Refusal
  | 0, r => .next r
  | n + 1, r =>
    match stepOver x r with
    | .next t => runOver x n t
    | .fault f => .fault f
    | .refused f => .refused f

/-- The state whose next step runs the instruction of a table word: a session in its running phase
over an image that holds the word as its first block, indexed, or as its first record (log 19). The
image is read by the default layout, so the layout is set to it; nothing else is touched. -/
def State.withFetchWord (s : State) (nbits w : Nat) : State :=
  { s with
    input := { s.input with
      kind := tableKind nbits
      img := wordImage nbits w
      params := { s.input.params with layout := defaultLayout } }
    phase := .running
    pos := match tableKind nbits with
      | .tzx => (wordImage nbits w).len
      | .tap => 0
    cur := 0
    bt := match tableKind nbits with
      | .tzx => tableFrom defaultLayout (wordImage nbits w) headerLen (wordImage nbits w).len
      | .tap => [] }

end Sys2Proof.Machine
end

