-- ==== Sys2Proof/Machine/HostPort.lean ====
section
/-! DEFINITION. What the host does outside a session (spec/40_sink_commands.md R101, R102, R108, R109;
spec/70_reset_and_hazards.md R302): `start`, `finish`, `totalTicksElapsed`. -/

namespace Sys2Proof.Machine

open Sys2Proof

/-- `start()` (R102): `TICKS <- 0`; `LEVEL` becomes unspecified, so the level is an argument. -/
def hostStart (level : Level) (k : Sink) : Sink := { k with level := level, ticks := 0 }

/-- `finish()` (R108): no effect on the sink, which is all that is left: the image, the block table and
every other piece of TPG state are discarded (R21; log 20). -/
def hostFinish (s : State) : Sink := s.sink

/-- `totalTicksElapsed() -> u64` (R109): `TICKS`; past `2^64 - 1` a free value (R14, U6; log 13). -/
def totalTicksElapsed (k : Sink) : Ticks64 :=
  if k.ticks < 2 ^ 64 then BitVec.ofNat 64 k.ticks else ticksReadBackPastWidth k.ticks

end Sys2Proof.Machine
end

