-- ==== Sys2Proof/Machine/Observe.lean ====
section
/-! DEFINITION. The observation of a session (spec/10_state.md R33): what is derived from the trace by a
left fold, segments, waveform, toggle count and tick total. -/

namespace Sys2Proof.Machine

open Sys2Proof

/-- The ticks a command lets pass (R33, R106, R107). -/
def Command.ticks : Command → Nat
  | .advance n => n.toNat
  | .advanceOneMillisecond => msTicks
  | .setLevelHigh => 0
  | .setLevelLow => 0
  | .toggleLevel => 0

/-- `TICKS` of a trace: the sum of its segment lengths (R33 (d)). -/
def ticksOf (cs : List Command) : Nat := (cs.map Command.ticks).sum

/-- `TOGGLES` of a trace (R33 (c)). -/
def togglesOf (cs : List Command) : Nat := cs.count .toggleLevel

/-- The level after a trace that started at a level. -/
def levelAfter (v : Level) (cs : List Command) : Level := (Sink.applyAll { level := v, ticks := 0 } cs).level

/-- The segment list: (level, length) of every `advance` and `advanceOneMillisecond` (R33 (a)). -/
def segments (v : Level) : List Command → List (Level × Nat)
  | [] => []
  | .advance n :: cs => (v, n.toNat) :: segments v cs
  | .advanceOneMillisecond :: cs => (v, msTicks) :: segments v cs
  | .setLevelHigh :: cs => segments .high cs
  | .setLevelLow :: cs => segments .low cs
  | .toggleLevel :: cs => segments v.toggled cs

/-- `W(t)`: the level of the segment that covers tick `t`, none past the last one (R33 (b)). -/
def waveform : List (Level × Nat) → Nat → Option Level
  | [], _ => none
  | (v, n) :: segs, t => if t < n then some v else waveform segs (t - n)

end Sys2Proof.Machine
end

