-- ==== Sys2Proof/Safety.lean ====
section
/-! DEFINITION. The terms claims are made in: which phases have a step, the invariant of every session,
and, written apart from the machine's recursions, what a payload's bits are, what a symbol and the two
streams of a generalized block play, and what a loop's rounds are. -/

namespace Sys2Proof.Machine

open Sys2Proof

/-! ### Phases (R29, R277) -/

/-- Done, Failed and Refused are final (R277). -/
def Phase.ended : Phase → Bool
  | .idle => false
  | .indexing => false
  | .running => false
  | .done => true
  | .failed => true
  | .refused => true

/-- The phases no command precedes: a malformed container is reported before any sink call (R271). -/
def Phase.beforeFirstCommand : Phase → Bool
  | .idle => true
  | .indexing => true
  | .running => false
  | .done => false
  | .failed => false
  | .refused => false

/-- The session has the framing `setLevelLow` and last millisecond (R130, R263). -/
def Input.framed (x : Input) : Bool := decide (x.kind = .tzx) || x.params.tapPrologueEpilogue

/-! ### The invariant of a session -/

/-- What holds in every state of a session, from its start on. -/
structure State.Inv (s : State) : Prop where
  /-- The image keeps its canonical form. -/
  imgWf : s.img.wf = true
  /-- The sink is the fold of the trace from `TICKS = 0` (R33, R100). -/
  sinkIsFold : ∃ v, s.sink = Sink.applyAll { level := v, ticks := 0 } s.trace
  /-- `ERR` is held exactly in the phase Failed (R29). -/
  errOnlyFailed : s.phase = .failed ↔ s.err.isSome = true
  /-- The refusal's reason is held exactly in the phase Refused (R284). -/
  whyOnlyRefused : s.phase = .refused ↔ s.why.isSome = true
  /-- No command comes before the prologue (R271). -/
  noEarlyCommand : s.phase.beforeFirstCommand = true → s.trace = []
  /-- The first command of a session is `setLevelLow` (R130, R263, R301). -/
  firstCommand : s.input.framed = true → s.trace = [] ∨ s.trace.head? = some .setLevelLow
  /-- A running, finished or refused session has had its first command (R130, R263). -/
  prologueDone : s.input.framed = true → s.phase.beforeFirstCommand = false → s.phase ≠ .failed →
    s.trace ≠ []
  /-- Every table entry points at the type byte it holds, behind the header (R27). -/
  entriesPointAtTypes : ∀ e ∈ s.bt, headerLen ≤ e.offset ∧ s.img.read e.offset = some e.type
  /-- Table entries are strictly increasing in offset (R27). -/
  entriesIncrease : s.bt.Pairwise fun a c => a.offset < c.offset
  /-- The indexer is behind every entry it has recorded (R125). -/
  indexerAhead : s.phase = .indexing → headerLen ≤ s.pos ∧ ∀ e ∈ s.bt, e.offset < s.pos
  /-- The interpreter's table is not empty (R126). -/
  tableNotEmpty : s.input.kind = .tzx → s.phase = .running → s.bt ≠ []
  /-- `CUR` never exceeds `BTLEN` (R131). -/
  curInTable : s.cur ≤ s.bt.length
  /-- While the loop context is active, `LOOP_RET` never lies beyond `CUR` (R136). -/
  loopBehind : s.loop.active = true → s.loop.ret ≤ s.cur
  /-- Before the prologue `CUR`, `LOOP_ACTIVE` and `LOOP_CNT` are as at session start (R36). -/
  cursorsAtStart : s.phase.beforeFirstCommand = true →
    s.cur = 0 ∧ s.loop.active = false ∧ s.loop.cnt = 0
  /-- A TAP session has no table (R260). -/
  tapHasNoTable : s.input.kind = .tap → s.bt = []
  /-- A TAP session does not index (R29, R260). -/
  tapNeverIndexes : s.input.kind = .tap → s.phase ≠ .indexing
  /-- The TAP cursor stays within the image (R262, R264). -/
  tapCursor : s.input.kind = .tap → s.pos ≤ s.len

/-! ### What a payload spells (R53, R162, R165) -/

/-- The bits of `n` payload bytes at `ptr`, `k` of them from the last byte. -/
def payloadBits (m : Memory) (ptr n k : Nat) : List Bool :=
  (List.range n).flatMap fun i => leadingBits ((m.read (ptr + i)).getD 0) (if i + 1 = n then k else 8)

/-- A data bit as two pulses of the length its value selects (R164). -/
def bitPulses (bit0 bit1 : Half) (v : Bool) : List Command :=
  if v then pulse bit1 ++ pulse bit1 else pulse bit0 ++ pulse bit0

/-- A pause of `p` milliseconds: low, then `max(p, 1)` milliseconds (R160). -/
def pausePlays (p : Nat) : List Command :=
  .setLevelLow :: List.replicate (max p 1) .advanceOneMillisecond

/-- The pause of a block with this pause operand: none if the layout gives the block no such field,
else the pause rule, also for 0 (R161). -/
def optPausePlays : Option Half → List Command
  | none => []
  | some p => pausePlays p.toNat

/-- `NBITS` (R165). -/
def dataBitCount (n k : Nat) : Nat := if 0 < n then 8 * n - (8 - k) else 0

/-! ### What a generalized block plays (R203 to R206) -/

/-- The flags byte of symbol `idx` (R90, R203). -/
def symbolFlags (Y : SymbolLayout) (m : Memory) (tab maxp idx : Nat) : Byte :=
  (m.field 8 (tab + idx * symbolSize Y maxp) Y.flags).getD 0

/-- The stored durations of symbol `idx` (R90, R203). -/
def symbolDurations (Y : SymbolLayout) (m : Memory) (tab maxp idx : Nat) : List Half :=
  (List.range maxp).map fun i =>
    (m.word 16 (tab + idx * symbolSize Y maxp + Y.durations.off + Y.durations.width * i) Y.durations.width).getD 0

/-- A symbol with an index in its alphabet and a flags byte that has a meaning (R210, R211). -/
def symbolPlays (Y : SymbolLayout) (m : Memory) (tab maxp asz idx : Nat) : Bool :=
  decide (idx < asz) && (polarity Y (symbolFlags Y m tab maxp idx)).isSome

/-- The commands of symbol `idx`: its polarity, then a pulse for every duration before the first zero
(R203). -/
def symbolCommands (Y : SymbolLayout) (m : Memory) (tab maxp idx : Nat) : List Command :=
  (polarity Y (symbolFlags Y m tab maxp idx)).getD [] ++
    ((symbolDurations Y m tab maxp idx).takeWhile fun d => decide (d ≠ 0)).flatMap pulse

/-- The symbol of run-length entry `r` (R91, R205). -/
def rleSymbol (L : Layout) (m : Memory) (rle r : Nat) : Nat :=
  ((m.field 8 (rle + L.rle.size * r) L.rle.symbolIndex).getD 0).toNat

/-- The repeat count of run-length entry `r` (R91, R205). -/
def rleRepeat (L : Layout) (m : Memory) (rle r : Nat) : Nat :=
  ((m.field 16 (rle + L.rle.size * r) L.rle.repeatCount).getD 0).toNat

/-- The commands of a pilot/sync stream of `n` entries (R205). -/
def rleCommands (L : Layout) (m : Memory) (tab maxp rle n : Nat) : List Command :=
  (List.range n).flatMap fun r =>
    (List.replicate (rleRepeat L m rle r) (symbolCommands L.symbol m tab maxp (rleSymbol L m rle r))).flatten

/-- The value of packed symbol index `i`: its `nb` stream bits weighed by place (R92, R206). -/
def packedIndex (msbFirst : Bool) (m : Memory) (str nb i : Nat) : Nat :=
  ((List.range nb).map fun k =>
    ((streamBit m str (i * nb + k)).getD false).toNat * 2 ^ (if msbFirst then nb - 1 - k else k)).sum

/-- The commands of a data stream of `n` symbols (R206). -/
def dataCommands (L : Layout) (msbFirst : Bool) (m : Memory) (tab maxp nb str n : Nat) : List Command :=
  (List.range n).flatMap fun i => symbolCommands L.symbol m tab maxp (packedIndex msbFirst m str nb i)

/-! ### Rounds of a loop (R152) -/

/-- `n` rounds of a loop: its body, then its `LOOPE`. -/
def loopRounds (body : State → State) : Nat → State → Result
  | 0, s => .next s
  | n + 1, s =>
    match exec .loope (body s) with
    | .next t => loopRounds body n t
    | .fault r => .fault r
    | .refused r => .refused r

end Sys2Proof.Machine
end

