-- ==== Sys2Proof/Certificates/Slice0/Obligations.lean ====
section
/-! DEFINITION. The statements for the provers. Each docstring names the rule of spec/ it formalises, and
the log entry where a clause is the model's or the spec's own choice. -/

open Sys2Proof Sys2Proof.Machine

/-! ### Session start, phases, the step -/

/-- The state at the start of a session (10_state.md section 11): phase Idle, no error, `POS` behind the
header (TZX) or at 0 (TAP), `CUR` 0, empty table, inactive loop context with count 0, empty DIAG and
trace, `TICKS` 0; the reset state is such a start. The values the spec does not give (P.*, G.*,
LOOP_RET, LEVEL: logs 3, 4) are not stated. -/
def Obligations.SessionStartValues : Prop :=
  (∃ x v, State.reset = State.begin x v) ∧
  ∀ (x : Input) (v : Level),
    let s := State.begin x v
    s.input = x ∧ s.phase = .idle ∧ s.err = none ∧
    (x.kind = .tzx → s.pos = 10) ∧ (x.kind = .tap → s.pos = 0) ∧
    s.cur = 0 ∧ s.bt = [] ∧ s.loop.active = false ∧ s.loop.cnt = 0 ∧
    s.diag = [] ∧ s.trace = [] ∧ s.sink.ticks = 0

/-- The invariant holds at reset and at the start of a session over any image in canonical form. Of the
loop context it says what the spec fixes at a session start, `LOOP_ACTIVE` 0 and `LOOP_CNT` 0, and of
`LOOP_RET` only where the context is active: its value at a start is left open (log 3). -/
def Obligations.SessionStartMeetsInvariant : Prop :=
  State.reset.Inv ∧ ∀ (x : Input) (v : Level), x.img.wf = true → (State.begin x v).Inv

/-- Every step keeps the session invariant: canonical image, sink equal to the fold of the trace, `ERR`
and the refusal reason held in their phases only, no command before the prologue, the first command a
`setLevelLow`, table entries that point at their type bytes in rising order, `CUR` within the table,
`LOOP_RET` never beyond `CUR` while the loop context is active, the TAP cursor within the image. -/
def Obligations.StepKeepsInvariant : Prop :=
  ∀ s t : State, s.Inv → step s = .next t → t.Inv

/-- A step in a TZX session's running phase executes the block at `BT[CUR]`, when the dispatch check
passes and its bytes decode. -/
def Obligations.StepRunsTheDecodedBlock : Prop :=
  ∀ (s : State) (e : Entry) (size : Nat) (i : Instr),
    s.phase = .running → s.input.kind = .tzx → s.bt[s.cur]? = some e →
    bodySize s.layout s.img e.type (e.offset + 1) = some size → e.offset + 1 + size ≤ s.len →
    decodeBody s.layout s.img e.type (e.offset + 1) = some i →
    step s = exec i s

/-- A step in a TAP session executes the record at `POS`, when prefix and payload lie in the image. -/
def Obligations.StepRunsTheTapRecord : Prop :=
  ∀ (s : State) (n : Half),
    s.phase = .running → s.input.kind = .tap → s.img.read16 s.pos = some n →
    s.pos + 2 + n.toNat ≤ s.len →
    decodeRecord s.img s.pos = some (.taprec n) ∧ step s = exec (.taprec n) s

/-- Truncation at dispatch: a block or record that does not fit the image, and a block of a type that is
not skipped whose fields cannot be read, fail the session with the offset of the type byte or prefix;
`PHASE` and `ERR` are all that changes (R276; that the check is made here is the spec's decision D8, D21;
that a block whose fields cannot all be read loads none of them is log 28). -/
def Obligations.TruncationFailsAtDispatch : Prop :=
  (∀ (s : State) (e : Entry),
    s.phase = .running → s.input.kind = .tzx → s.bt[s.cur]? = some e →
    ((∀ size, bodySize s.layout s.img e.type (e.offset + 1) = some size → s.len < e.offset + 1 + size) ∨
      (s.layout.skips e.type = false ∧ decodeBody s.layout s.img e.type (e.offset + 1) = none)) →
    step s = .next { s with phase := .failed, err := some (.truncatedBlock e.offset) }) ∧
  (∀ s : State,
    s.phase = .running → s.input.kind = .tap → s.pos < s.len →
    (∀ n, s.img.read16 s.pos = some n → s.len < s.pos + 2 + n.toNat) →
    step s = .next { s with phase := .failed, err := some (.truncatedBlock s.pos) })

/-- `raise E(info)` (R276): `PHASE` and `ERR` are written, no command is emitted, all other state is left
as it is, and no handler runs: the state it leaves has no step. -/
def Obligations.RaiseWritesPhaseAndErrorOnly : Prop :=
  ∀ (s : State) (e : FatalError),
    s.raise e = { s with phase := .failed, err := some e } ∧ step (s.raise e) = .fault .sessionEnded

/-- Every phase but Done, Failed and Refused has a next state, and those three have none (R277, R29). -/
def Obligations.ExactlyTheFinalPhasesHaveNoStep : Prop :=
  ∀ s : State,
    (s.phase.ended = false ↔ ∃ t, step s = .next t) ∧
    (s.phase.ended = true ↔ step s = .fault .sessionEnded)

/-- A session always ends (R136), over every image, every layout and every parameter, on the assumption
that every sink command returns: the model's steps take each command as done (70_reset_and_hazards.md
R309, 93_implementation_defined.md U12; log 23, a DESIGN CHOICE). -/
def Obligations.EverySessionEnds : Prop :=
  ∀ (x : Input) (v : Level), ∃ (n : Nat) (t : State),
    Sys2Proof.core.run n (State.begin x v) = .next t ∧ t.phase.ended = true

/-- No step changes the session inputs, and every step only appends to the trace, each appended command
applied to the sink in order (R62, R100, R272). -/
def Obligations.StepsKeepInputsAndOnlyAppend : Prop :=
  ∀ s t : State, step s = .next t →
    t.input = s.input ∧ (∀ a, t.img.read a = s.img.read a) ∧
    ∃ cs, t.trace = s.trace ++ cs ∧ t.sink = s.sink.applyAll cs

/-- TPG never reads the sink (R31, R112): with any other sink state, every step does the same to
everything but the sink. -/
def Obligations.StepsNeverReadTheSink : Prop :=
  ∀ (s : State) (k : Sink),
    (∀ t, step s = .next t → ∃ k', step { s with sink := k } = .next { t with sink := k' }) ∧
    (∀ r, step s = .fault r → step { s with sink := k } = .fault r)

/-- The trace of a whole session is a function of its inputs alone (40_sink_commands.md section 4): run to
any point, its end included, over any two sinks, the session does the same and emits the same trace, and
either sink has counted the ticks of that trace, so two sinks that start at 0 agree on the total. -/
def Obligations.WholeSessionsAgreeForAnyTwoSinks : Prop :=
  ∀ (x : Input) (v : Level) (k : Sink) (n : Nat),
    let s := State.begin x v
    let u : State := { s with sink := k }
    (∀ t : State, Sys2Proof.core.run n s = .next t →
      t.sink.ticks = ticksOf t.trace ∧
      ∃ k' : Sink, Sys2Proof.core.run n u = .next { t with sink := k' } ∧ k'.ticks = k.ticks + ticksOf t.trace) ∧
    (∀ r, Sys2Proof.core.run n s = .fault r → Sys2Proof.core.run n u = .fault r)

/-- The step relation takes the session inputs as arguments (10_state.md section 1): a step of the machine
over inputs `x` is `stepOver x` of the rest of its state, and leaves `x` as it is; how the pair stands in
State is log 1. -/
def Obligations.StepIsARelationOverInputs : Prop :=
  ∀ (x : Input) (r : Session),
    (∀ t : State, step { r with input := x } = .next t ↔ stepOver x r = .next t.toSession ∧ t.input = x) ∧
    (∀ f, step { r with input := x } = .fault f ↔ stepOver x r = .fault f)

/-- `AW` (00_scope.md sections 4 and 6; log 12): while `LEN` fits it, so do the offsets a session holds,
those of the block table and a TAP session's `POS`; and no step depends on it, since offsets never wrap. -/
def Obligations.OffsetsFitTheirWidth : Prop :=
  (∀ s : State, s.Inv → s.len < 2 ^ s.params.offsetWidth →
    (∀ e ∈ s.bt, e.offset < 2 ^ s.params.offsetWidth) ∧
    (s.input.kind = .tap → s.pos < 2 ^ s.params.offsetWidth)) ∧
  ∀ (s : State) (w : Nat),
    let x : Input := { s.input with params := { s.params with offsetWidth := w } }
    (∀ t : State, step s = .next t → step { s with input := x } = .next { t with input := x }) ∧
    (∀ r, step s = .fault r → step { s with input := x } = .fault r)

/-- Under the default layout a step that fails emits nothing: errors fall between blocks, never inside
one (R272, R133). -/
def Obligations.FailingStepsEmitNothing : Prop :=
  ∀ s t : State, s.layout = defaultLayout → s.phase.ended = false → step s = .next t → t.phase = .failed →
    t.trace = s.trace ∧ t.sink = s.sink ∧ t.err.isSome = true

/-! ### Header check, indexer, prologue, epilogue -/

/-- The header checks of a TZX session, in order, before any command (R121, R122): too small, bad
signature, unsupported version, else indexing begins behind the header. -/
def Obligations.HeaderChecksInOrder : Prop :=
  ∀ s : State, s.phase = .idle → s.input.kind = .tzx →
    let magic : List Byte := [0x5A, 0x58, 0x54, 0x61, 0x70, 0x65, 0x21, 0x1A]
    (s.len < 10 → step s = .next { s with phase := .failed, err := some (.tooSmall s.len) }) ∧
    (10 ≤ s.len → (∃ k, k < 8 ∧ s.img.read k ≠ magic[k]?) →
      step s = .next { s with phase := .failed, err := some .badSignature }) ∧
    (∀ major, 10 ≤ s.len → (∀ k, k < 8 → s.img.read k = magic[k]?) → s.img.read 8 = some major →
      (s.params.supportedMajor < major.toNat →
        step s = .next { s with phase := .failed, err := some (.unsupportedVersion major) }) ∧
      (major.toNat ≤ s.params.supportedMajor →
        step s = .next { s with phase := .indexing, pos := 10, bt := [] }))

/-- One indexer step records the block at `POS` and moves behind it, or to `LEN` when its size field
cannot be read (R125; the latter is the spec's decision D8). -/
def Obligations.IndexerRecordsOneBlock : Prop :=
  ∀ (s : State) (t : Byte), s.phase = .indexing → s.img.read s.pos = some t →
    (∀ size, bodySize s.layout s.img t (s.pos + 1) = some size →
      step s = .next { s with bt := s.bt ++ [{ offset := s.pos, type := t }], pos := s.pos + 1 + size }) ∧
    (bodySize s.layout s.img t (s.pos + 1) = none →
      step s = .next { s with bt := s.bt ++ [{ offset := s.pos, type := t }], pos := s.len })

/-- When `POS` reaches `LEN`: an empty table fails with `Empty`; any other starts the interpreter with
the prologue's one `setLevelLow` and `CUR` 0 (R126, R130). -/
def Obligations.IndexingEndsInEmptyOrPrologue : Prop :=
  ∀ s : State, s.phase = .indexing → s.len ≤ s.pos →
    (s.bt = [] → step s = .next { s with phase := .failed, err := some .empty }) ∧
    (s.bt ≠ [] → step s = .next { s with
      phase := .running, cur := 0, trace := s.trace ++ [.setLevelLow], sink := { s.sink with level := .low } })

/-- A TAP session starts without header check or table: running, `POS` 0, one `setLevelLow` (R260; that
it has a prologue is the spec's decision D20, a parameter). -/
def Obligations.TapSessionStartsRunning : Prop :=
  ∀ s : State, s.phase = .idle → s.input.kind = .tap →
    (s.params.tapPrologueEpilogue = true → step s = .next { s with
      phase := .running, pos := 0, trace := s.trace ++ [.setLevelLow], sink := { s.sink with level := .low } }) ∧
    (s.params.tapPrologueEpilogue = false → step s = .next { s with phase := .running, pos := 0 })

/-- The epilogue: behind the last block one extra millisecond, the level unchanged, then Done (R132; in a
TAP session the spec's decision D20, a parameter). -/
def Obligations.EpilogueEmitsOneMillisecond : Prop :=
  (∀ s : State, s.phase = .running → s.input.kind = .tzx → s.cur = s.bt.length →
    step s = .next { s with
      phase := .done, trace := s.trace ++ [.advanceOneMillisecond]
      sink := { s.sink with ticks := s.sink.ticks + 3500 } }) ∧
  (∀ s : State, s.phase = .running → s.input.kind = .tap → s.len ≤ s.pos →
    (s.params.tapPrologueEpilogue = true → step s = .next { s with
      phase := .done, trace := s.trace ++ [.advanceOneMillisecond]
      sink := { s.sink with ticks := s.sink.ticks + 3500 } }) ∧
    (s.params.tapPrologueEpilogue = false → step s = .next { s with phase := .done }))

/-! ### The sink -/

/-- `advance(ticks)` (R106): appended to the trace; `TICKS` grows by the argument, `LEVEL` stays, and the
segment (`LEVEL`, ticks) is appended to the segment list. -/
def Obligations.AdvanceHoldsTheLevel : Prop :=
  (∀ (s : State) (n : Ticks64), s.emit (.advance n) =
    { s with trace := s.trace ++ [.advance n], sink := { s.sink with ticks := s.sink.ticks + n.toNat } }) ∧
  (∀ (v : Level) (cs : List Command) (n : Ticks64),
    segments v (cs ++ [.advance n]) = segments v cs ++ [(levelAfter v cs, n.toNat)])

/-- The other four commands (40_sink_commands.md section 2) and the macro `pulse`: set high, set low and
toggle change the level and take no tick and no segment; only a toggle counts as one; a millisecond is
a command of its own, 3500 ticks at the level as it is. -/
def Obligations.LevelCommandsAndMillisecond : Prop :=
  (∀ s : State,
    s.emit .setLevelHigh = { s with trace := s.trace ++ [.setLevelHigh], sink := { s.sink with level := .high } } ∧
    s.emit .setLevelLow = { s with trace := s.trace ++ [.setLevelLow], sink := { s.sink with level := .low } } ∧
    (s.sink.level = .low → s.emit .toggleLevel =
      { s with trace := s.trace ++ [.toggleLevel], sink := { s.sink with level := .high } }) ∧
    (s.sink.level = .high → s.emit .toggleLevel =
      { s with trace := s.trace ++ [.toggleLevel], sink := { s.sink with level := .low } }) ∧
    s.emit .advanceOneMillisecond =
      { s with trace := s.trace ++ [.advanceOneMillisecond], sink := { s.sink with ticks := s.sink.ticks + 3500 } }) ∧
  (∀ (v : Level) (cs : List Command) (c : Command),
    togglesOf (cs ++ [c]) = togglesOf cs + (if c = .toggleLevel then 1 else 0) ∧
    (c = .setLevelHigh ∨ c = .setLevelLow ∨ c = .toggleLevel → segments v (cs ++ [c]) = segments v cs) ∧
    segments v (cs ++ [.advanceOneMillisecond]) = segments v cs ++ [(levelAfter v cs, 3500)]) ∧
  ∀ n : Half, pulse n = [.advance (n.setWidth 64), .toggleLevel]

/-- The pause rule (R160): `setLevelLow`, then exactly `max(p, 1)` milliseconds; `3500 * max(p, 1)` ticks;
low during the whole pause and after it. -/
def Obligations.PauseForcesOneMillisecond : Prop :=
  ∀ p : Nat, pause p = .setLevelLow :: List.replicate (max p 1) .advanceOneMillisecond ∧
    ticksOf (pause p) = 3500 * max p 1 ∧
    ∀ v : Level, levelAfter v (pause p) = .low ∧
      segments v (pause p) = List.replicate (max p 1) (.low, 3500)

/-- The waveform of a trace is defined on exactly its ticks, and the segment lengths add up to them
(10_state.md section 10). -/
def Obligations.WaveformCoversExactlyTheTicks : Prop :=
  ∀ (v : Level) (cs : List Command),
    ((segments v cs).map Prod.snd).sum = ticksOf cs ∧
    ∀ t : Nat, (waveform (segments v cs) t).isSome = true ↔ t < ticksOf cs

/-- What the host does with the sink: `start` zeroes the count, `finish` leaves the sink as it is, and the
read-back is `TICKS` whenever `TICKS < 2^64` (R14, R102, R108, R109; past it a free value, log 13). -/
def Obligations.HostReadsBackTheTicks : Prop :=
  (∀ v k, (hostStart v k).ticks = 0) ∧
  (∀ s : State, hostFinish s = s.sink) ∧
  (∀ k : Sink, k.ticks < 2 ^ 64 → (totalTicksElapsed k).toNat = k.ticks)

/-! ### Control flow -/

/-- `LOOPS` (R150): the context records the count and the index of the next block, `CUR + 1`, nothing
else changes, whatever the context held before; a block of type 0x24 in a running session does so with
the 16 bits at its body, or fails at dispatch when they do not lie in the image. -/
def Obligations.LoopStartRecordsTheContext : Prop :=
  ∀ (s : State) (count : Half),
    exec (.loops count) s = .next { s with
      cur := s.cur + 1, loop := { cnt := count, ret := s.cur + 1, active := true } } ∧
    ∀ o : Nat, s.phase = .running → s.input.kind = .tzx → s.layout = defaultLayout →
      s.bt[s.cur]? = some { offset := o, type := 0x24 } →
      (s.img.read16 (o + 1) = some count → step s = .next { s with
        cur := s.cur + 1, loop := { cnt := count, ret := s.cur + 1, active := true } }) ∧
      (s.len < o + 3 → step s = .next { s with phase := .failed, err := some (.truncatedBlock o) })

/-- `LOOPE` (42_control_flow.md, R151): back with the count one less while the context is active and the
count positive, else past it; that it then clears `LOOP_ACTIVE` is the spec's decision D10. -/
def Obligations.LoopEndGoesBackWhileCountLeft : Prop :=
  ∀ s : State,
    (s.loop.active = true → 0 < s.loop.cnt.toNat →
      exec .loope s = .next { s with cur := s.loop.ret, loop := { s.loop with cnt := s.loop.cnt - 1 } } ∧
      (s.loop.cnt - 1).toNat = s.loop.cnt.toNat - 1) ∧
    (s.loop.active = false ∨ s.loop.cnt = 0 → exec .loope s = .next { s with
      cur := s.cur + 1, loop := { s.loop with active := false } })

/-- The blocks between `LOOPS count=N` and its `LOOPE` run `N + 1` times (42_control_flow.md, the spec's
derivation R152): with any body that leaves the loop context alone, each of the first `N` loop ends
goes back behind the `LOOPS`, and the next one falls through. -/
def Obligations.LoopBodyRunsCountPlusOneTimes : Prop :=
  ∀ (s : State) (count : Half) (body : State → State), (∀ u, (body u).loop = u.loop) →
    ∃ s0, exec (.loops count) s = .next s0 ∧
      (∀ n, n ≤ count.toNat → ∃ u, loopRounds body n s0 = .next u ∧
        u.cur = s.cur + 1 ∧ u.loop.active = true ∧ u.loop.cnt.toNat = count.toNat - n) ∧
      (∃ u t, loopRounds body count.toNat s0 = .next u ∧ exec .loope (body u) = .next t ∧
        t.cur = (body u).cur + 1 ∧ t.loop.active = false)

/-! ### The signal blocks

A pause operand is absent where the layout gives the block type no pause field; under the default layout
TONE and PULSES have none and the others have one (R161, G3). Theirs, if a layout gives them one, is read
from the image. -/

/-- `STD` (43_pulse_train.md section 4): pilot of 8063 or 3223 pulses of 2168 by the first payload byte,
sync 667 and 735, every payload bit as two pulses of 855 or 1710, the pause; then `CUR + 1`; nothing
else changes. The threshold is the spec's decision D7, a parameter. -/
def Obligations.StandardBlockPlays : Prop :=
  ∀ (s : State) (e : Entry) (q : Option Half) (len : Half) (f : Byte),
    let ptr := e.offset + 1 + s.layout.std.data
    s.bt[s.cur]? = some e → len ≠ 0 → ptr + len.toNat ≤ s.len → s.img.read ptr = some f →
    let count : Half := if f.toNat < s.params.flagThreshold then 8063 else 3223
    let cs := (List.replicate count.toNat (pulse 2168)).flatten ++ pulse 667 ++ pulse 735 ++
      (payloadBits s.img ptr len.toNat 8).flatMap (bitPulses 855 1710) ++ optPausePlays q
    exec (.std q len) s = .next { s with
      cur := s.cur + 1
      trace := s.trace ++ cs
      sink := s.sink.applyAll cs
      p := { s.p with
        pilotLength := 2168, pilotCount := count, sync1 := 667, sync2 := 735, bit0 := 855, bit1 := 1710,
        bitsLast := 8, pauseMs := q.getD s.p.pauseMs, hasPause := q.isSome, dataPtr := ptr,
        dataLen := len.setWidth 24 } }

/-- `TAPREC` (47_tap_adapter.md): the standard-speed signal of the record at `POS` with a pause of 1000 ms;
then `POS` behind the record; nothing else changes. -/
def Obligations.TapRecordPlays : Prop :=
  ∀ (s : State) (n : Half) (f : Byte),
    let ptr := s.pos + 2
    n ≠ 0 → ptr + n.toNat ≤ s.len → s.img.read ptr = some f →
    let count : Half := if f.toNat < s.params.flagThreshold then 8063 else 3223
    let cs := (List.replicate count.toNat (pulse 2168)).flatten ++ pulse 667 ++ pulse 735 ++
      (payloadBits s.img ptr n.toNat 8).flatMap (bitPulses 855 1710) ++ pausePlays 1000
    exec (.taprec n) s = .next { s with
      pos := ptr + n.toNat
      trace := s.trace ++ cs
      sink := s.sink.applyAll cs
      p := { s.p with
        pilotLength := 2168, pilotCount := count, sync1 := 667, sync2 := 735, bit0 := 855, bit1 := 1710,
        bitsLast := 8, pauseMs := 1000, hasPause := true, dataPtr := ptr, dataLen := n.setWidth 24 } }

/-- An empty standard-speed payload, in a block or in a record, is refused before any command, in a block
after its first three loads, in a record before any (43_pulse_train.md section 4, 47_tap_adapter.md; the
refusal is the spec's decision D9). -/
def Obligations.EmptyStandardPayloadIsRefused : Prop :=
  (∀ (s : State) (e : Entry) (q : Option Half), s.bt[s.cur]? = some e →
    exec (.std q 0) s = .next { s with
      phase := .refused
      why := some .emptyStandardBlock
      p := { s.p with
        pauseMs := q.getD s.p.pauseMs, dataPtr := e.offset + 1 + s.layout.std.data, dataLen := 0 } }) ∧
  (∀ s : State, exec (.taprec 0) s = .next { s with phase := .refused, why := some .emptyStandardBlock })

/-- A TAP record is the block `STD pause=1000` over the same payload (47_tap_adapter.md, derivation in
R261): both complete and emit the same commands. -/
def Obligations.TapRecordEqualsStandardBlock : Prop :=
  ∀ (s u : State) (e : Entry) (n : Half),
    u.bt[u.cur]? = some e → n ≠ 0 → s.params.flagThreshold = u.params.flagThreshold →
    s.pos + 2 + n.toNat ≤ s.len →
    (∀ k, k < n.toNat → s.img.read (s.pos + 2 + k) = u.img.read (e.offset + 1 + u.layout.std.data + k)) →
    ∃ (cs : List Command) (s' u' : State),
      exec (.taprec n) s = .next s' ∧ s'.trace = s.trace ++ cs ∧ s'.phase = s.phase ∧
      exec (.std (some 1000) n) u = .next u' ∧ u'.trace = u.trace ++ cs ∧ u'.phase = u.phase

/-- `TURBO` (43_pulse_train.md section 4): all parameters from the fields; a sync pulse of length 0 is
absent (the spec's decision D14); then `CUR + 1`; nothing else changes. -/
def Obligations.TurboBlockPlays : Prop :=
  ∀ (s : State) (e : Entry) (pilotLength sync1 sync2 bit0 bit1 pilotCount : Half) (used : Byte)
    (q : Option Half) (len : Word24),
    let ptr := e.offset + 1 + s.layout.turbo.data
    s.bt[s.cur]? = some e → ptr + len.toNat ≤ s.len → (len = 0 ∨ used.toNat ≤ 8) →
    let cs := (List.replicate pilotCount.toNat (pulse pilotLength)).flatten ++
      (if sync1 = 0 then [] else pulse sync1) ++ (if sync2 = 0 then [] else pulse sync2) ++
      (payloadBits s.img ptr len.toNat used.toNat).flatMap (bitPulses bit0 bit1) ++ optPausePlays q
    exec (.turbo pilotLength sync1 sync2 bit0 bit1 pilotCount used q len) s = .next { s with
      cur := s.cur + 1
      trace := s.trace ++ cs
      sink := s.sink.applyAll cs
      p := { s.p with
        pilotLength := pilotLength, pilotCount := pilotCount, sync1 := sync1, sync2 := sync2, bit0 := bit0,
        bit1 := bit1, bitsLast := used, pauseMs := q.getD s.p.pauseMs, hasPause := q.isSome, dataPtr := ptr,
        dataLen := len } }

/-- `PDATA` (43_pulse_train.md section 4): the payload bits and the pause, no pilot, no sync; then
`CUR + 1`; nothing else changes. That the pilot and sync registers are 0 afterwards is 10_state.md
section 2's table (log 15). -/
def Obligations.PureDataBlockPlays : Prop :=
  ∀ (s : State) (e : Entry) (bit0 bit1 : Half) (used : Byte) (q : Option Half) (len : Word24),
    let ptr := e.offset + 1 + s.layout.pdata.data
    s.bt[s.cur]? = some e → ptr + len.toNat ≤ s.len → (len = 0 ∨ used.toNat ≤ 8) →
    let cs := (payloadBits s.img ptr len.toNat used.toNat).flatMap (bitPulses bit0 bit1) ++ optPausePlays q
    exec (.pdata bit0 bit1 used q len) s = .next { s with
      cur := s.cur + 1
      trace := s.trace ++ cs
      sink := s.sink.applyAll cs
      p := { s.p with
        pilotLength := 0, pilotCount := 0, sync1 := 0, sync2 := 0, bit0 := bit0, bit1 := bit1,
        bitsLast := used, pauseMs := q.getD s.p.pauseMs, hasPause := q.isSome, dataPtr := ptr, dataLen := len } }

/-- `TONE` (43_pulse_train.md section 4): `count` pulses, no sync, no data, no pause unless the layout
gives it one; then `CUR + 1`; nothing else changes. That the other parameter registers are 0 afterwards is
10_state.md section 2's table (log 15). -/
def Obligations.PureTonePlays : Prop :=
  ∀ (s : State) (e : Entry) (pulseLength count : Half) (q : Option Half), s.bt[s.cur]? = some e →
    s.img.optField 16 (e.offset + 1) s.layout.tone.pause = some q →
    let cs := (List.replicate count.toNat (pulse pulseLength)).flatten ++ optPausePlays q
    exec (.tone pulseLength count) s = .next { s with
      cur := s.cur + 1
      trace := s.trace ++ cs
      sink := s.sink.applyAll cs
      p := { pilotLength := pulseLength, pilotCount := count, sync1 := 0, sync2 := 0, bit0 := 0, bit1 := 0,
             bitsLast := 0, pauseMs := q.getD 0, hasPause := q.isSome, dataPtr := 0, dataLen := 0, tps := 0 } }

/-- `PULSES` (43_pulse_train.md section 4): one pulse for each listed length, a zero length too; no pause
unless the layout gives it one; then `CUR + 1`; nothing else changes. That `P.hasPause` is written is
log 27. -/
def Obligations.PulseSequencePlays : Prop :=
  ∀ (s : State) (e : Entry) (n : Byte) (q : Option Half),
    let ptr := e.offset + 1 + s.layout.pulses.list.off
    let w := s.layout.pulses.list.width
    s.bt[s.cur]? = some e → s.img.optField 16 (e.offset + 1) s.layout.pulses.pause = some q →
    ptr + w * n.toNat ≤ s.len →
    let cs := (List.range n.toNat).flatMap (fun i => pulse ((s.img.word 16 (ptr + w * i) w).getD 0)) ++
      optPausePlays q
    exec (.pulses n) s = .next { s with
      cur := s.cur + 1
      trace := s.trace ++ cs
      sink := s.sink.applyAll cs
      p := { s.p with
        pauseMs := q.getD s.p.pauseMs, hasPause := q.isSome, dataPtr := ptr, dataLen := n.setWidth 24 } }

/-- `DIRECT` (44_direct_and_pause.md): each payload bit sets the level, high for 1, and holds it; then the
pause and `CUR + 1`; nothing else changes. Bit order, used bits and 1 = high are the spec's decision
D12; the 8 bits of a layout without used-bits field are log 10. -/
def Obligations.DirectRecordingPlays : Prop :=
  ∀ (s : State) (e : Entry) (tps : Half) (q : Option Half) (used : Option Byte) (len : Word24),
    let ptr := e.offset + 1 + s.layout.direct.data
    let last := used.getD 8
    s.bt[s.cur]? = some e → ptr + len.toNat ≤ s.len → (len = 0 ∨ last.toNat ≤ 8) →
    let cs := (payloadBits s.img ptr len.toNat last.toNat).flatMap
      (fun v => [if v then .setLevelHigh else .setLevelLow, .advance (tps.setWidth 64)]) ++ optPausePlays q
    exec (.direct tps q used len) s = .next { s with
      cur := s.cur + 1
      trace := s.trace ++ cs
      sink := s.sink.applyAll cs
      p := { s.p with
        tps := tps, bitsLast := last, pauseMs := q.getD s.p.pauseMs, hasPause := q.isSome, dataPtr := ptr,
        dataLen := len } }

/-- `usedBits` above 8 with a payload is refused before any command, in all three block types
(60_exceptions.md section 5; the refusal is the spec's decision D9). -/
def Obligations.UsedBitsAboveEightAreRefused : Prop :=
  ∀ (s : State) (e : Entry) (pilotLength sync1 sync2 bit0 bit1 pilotCount tps : Half) (q : Option Half)
    (used : Byte) (len : Word24) (i : Instr),
    s.bt[s.cur]? = some e → len ≠ 0 → 8 < used.toNat →
    (i = .turbo pilotLength sync1 sync2 bit0 bit1 pilotCount used q len ∨ i = .pdata bit0 bit1 used q len ∨
      i = .direct tps q (some used) len) →
    ∃ t, exec i s = .next t ∧
      t = { s with phase := .refused, why := some .bitsInLastByteRange, p := t.p }

/-- `PAUSE` (R192): 0 is the stop-the-tape marker and lasts 5000 ms, every other value exactly its
milliseconds; the line is low; then `CUR + 1`; nothing else changes; a block of type 0x20 in a running
session does so with the 16 bits at its body, or fails at dispatch when they do not lie in the image. -/
def Obligations.PauseBlockPlays : Prop :=
  ∀ (s : State) (q : Half),
    let p : Half := if q = 0 then 5000 else q
    let cs := .setLevelLow :: List.replicate p.toNat .advanceOneMillisecond
    let t : State := { s with
      cur := s.cur + 1
      trace := s.trace ++ cs
      sink := { level := .low, ticks := s.sink.ticks + 3500 * p.toNat }
      p := { s.p with pauseMs := p, hasPause := true } }
    exec (.pause q) s = .next t ∧
    ∀ o : Nat, s.phase = .running → s.input.kind = .tzx → s.layout = defaultLayout →
      s.bt[s.cur]? = some { offset := o, type := 0x20 } →
      (s.img.read16 (o + 1) = some q → step s = .next t) ∧
      (s.len < o + 3 → step s = .next { s with phase := .failed, err := some (.truncatedBlock o) })

/-- Toggles, ticks and level of the pilot-train primitive (43_pulse_train.md section 2, the spec's
derivations R166 to R168), with or without a pause. -/
def Obligations.PilotTrainTogglesAndTicks : Prop :=
  ∀ (m : Memory) (p : PulseRegs), p.dataPtr + p.dataLen.toNat ≤ m.len →
    (p.dataLen = 0 ∨ p.bitsLast.toNat ≤ 8) →
    let bits := payloadBits m p.dataPtr p.dataLen.toNat p.bitsLast.toNat
    let e := pilotTrain m p
    e.stop = none ∧
    bits.length = dataBitCount p.dataLen.toNat p.bitsLast.toNat ∧
    togglesOf e.cmds = p.pilotCount.toNat + (if p.sync1 = 0 then 0 else 1) + (if p.sync2 = 0 then 0 else 1) +
      2 * dataBitCount p.dataLen.toNat p.bitsLast.toNat ∧
    ticksOf e.cmds = p.pilotCount.toNat * p.pilotLength.toNat + p.sync1.toNat + p.sync2.toNat +
      2 * (bits.count false * p.bit0.toNat + bits.count true * p.bit1.toNat) +
      (if p.hasPause then 3500 * max p.pauseMs.toNat 1 else 0) ∧
    (∀ v, p.hasPause = true → levelAfter v e.cmds = .low) ∧
    (∀ v, p.hasPause = false → levelAfter v e.cmds = (if togglesOf e.cmds % 2 = 0 then v else v.toggled))

/-- Direct recording never toggles, adds `NBITS * tps + 3500 * max(pause, 1)` ticks (without a pause field
the first term), and gives the same waveform whatever the level before it (44_direct_and_pause.md, the
spec's derivation R191). -/
def Obligations.DirectRecordingNeverToggles : Prop :=
  ∀ (m : Memory) (p : PulseRegs), p.dataPtr + p.dataLen.toNat ≤ m.len →
    (p.dataLen = 0 ∨ p.bitsLast.toNat ≤ 8) →
    let e := directRecording m p
    e.stop = none ∧ togglesOf e.cmds = 0 ∧
    ticksOf e.cmds = dataBitCount p.dataLen.toNat p.bitsLast.toNat * p.tps.toNat +
      (if p.hasPause then 3500 * max p.pauseMs.toNat 1 else 0) ∧
    segments .low e.cmds = segments .high e.cmds

/-! ### The generalized block -/

/-- `GDB` under the default layout (45_generalized.md): when the tables end inside the image and every
symbol to be replayed is in its alphabet with a flags byte of 0 to 3, the pilot/sync stream, the data
stream and the pause are replayed in order; then `CUR + 1`; the registers hold the block's fields;
nothing else changes but the optional DIAG (log 14). When `G.symtab`, `G.stream` and `G.bitpos` are
written is log 16, that `P.hasPause` is written is log 27. With `SYM_INDEX_MSB_FIRST` false, which it
covers too, the index of a packed symbol is the reading of log 26, DEDUCED from V13 of
95_test_vectors.md; with true it is the spec's decision D15. -/
def Obligations.GeneralizedBlockPlays : Prop :=
  ∀ (s : State) (e : Entry) (blen : Word32) (q : Option Half) (totp : Word32) (npp asp : Byte) (totd : Word32)
    (npd asd : Byte),
    let asP := if asp = 0 then 256 else asp.toNat
    let asD := if asd = 0 then 256 else asd.toNat
    let nb := ceilLog2 asD
    let symP := e.offset + 19
    let rle := symP + (2 * npp.toNat + 1) * asP
    let symD := if totp = 0 then symP else rle + 3 * totp.toNat
    let str := symD + (2 * npd.toNat + 1) * asD
    let msb := s.params.symIndexMsbFirst
    s.layout = defaultLayout → s.bt[s.cur]? = some e →
    (totp ≠ 0 → symD ≤ s.len) → (totd ≠ 0 → str + (nb * totd.toNat + 7) / 8 ≤ s.len) → symP ≤ s.len →
    (∀ r, r < totp.toNat → rleRepeat s.layout s.img rle r ≠ 0 →
      rleSymbol s.layout s.img rle r < asP ∧
      (symbolFlags s.layout.symbol s.img symP npp.toNat (rleSymbol s.layout s.img rle r)).toNat ≤ 3) →
    (∀ j, j < totd.toNat → packedIndex msb s.img str nb j < asD ∧
      (symbolFlags s.layout.symbol s.img symD npd.toNat (packedIndex msb s.img str nb j)).toNat ≤ 3) →
    let cs := rleCommands s.layout s.img symP npp.toNat rle totp.toNat ++
      dataCommands s.layout msb s.img symD npd.toNat nb str totd.toNat ++ optPausePlays q
    exec (.gdb blen q totp npp asp totd npd asd) s = .next { s with
      cur := s.cur + 1
      trace := s.trace ++ cs
      sink := s.sink.applyAll cs
      p := { s.p with hasPause := q.isSome }
      g := {
        pauseMs := q.getD s.g.pauseMs, totp := totp, npp := npp, asp := BitVec.ofNat 9 asP, totd := totd, npd := npd
        asd := BitVec.ofNat 9 asD, nb := BitVec.ofNat 4 nb
        symtab := if totd ≠ 0 then symD else if totp ≠ 0 then symP else s.g.symtab
        stream := if totd ≠ 0 then str else if totp ≠ 0 then rle else s.g.stream
        bitpos := if totd ≠ 0 then totd.toNat * nb else s.g.bitpos }
      diag := if s.params.reportDiag = true ∧ (asp = 0 ∨ asd = 0)
        then s.diag ++ [{ kind := .alphabetSizeZero, blockIndex := s.cur }] else s.diag }

/-- The extent check (45_generalized.md section 1, the spec's decision D17): when the last table to be read
ends beyond the image, the block fails before any command, its registers loaded. That `P.hasPause` is
written with them is log 27 (DEDUCED); `G.*` and DIAG are left open. -/
def Obligations.GeneralizedBlockBeyondImageFails : Prop :=
  ∀ (s : State) (e : Entry) (blen : Word32) (q : Option Half) (totp : Word32) (npp asp : Byte) (totd : Word32)
    (npd asd : Byte),
    let asP := if asp = 0 then 256 else asp.toNat
    let asD := if asd = 0 then 256 else asd.toNat
    let symP := e.offset + 19
    let rle := symP + (2 * npp.toNat + 1) * asP
    let symD := if totp = 0 then symP else rle + 3 * totp.toNat
    let str := symD + (2 * npd.toNat + 1) * asD
    s.layout = defaultLayout → s.bt[s.cur]? = some e →
    ((totp ≠ 0 ∧ s.len < symD) ∨ (totd ≠ 0 ∧ s.len < str + (ceilLog2 asD * totd.toNat + 7) / 8)) →
    ∃ t, exec (.gdb blen q totp npp asp totd npd asd) s = .next t ∧
      t = { s with
        phase := .failed, err := some (.truncatedBlock e.offset)
        p := { s.p with hasPause := q.isSome }, g := t.g, diag := t.diag }

/-- The first run-length entry that is to be replayed and names no symbol, or a symbol with a flags byte
above 3, ends the session refused, after the commands of the entries before it (45_generalized.md
section 4; the refusals are the spec's decision D9). That `P.hasPause` is written in the refused state is
log 27 (DEDUCED); `G.*` and DIAG are left open. -/
def Obligations.BadPilotSymbolIsRefused : Prop :=
  ∀ (s : State) (e : Entry) (blen : Word32) (q : Option Half) (totp : Word32) (npp asp : Byte) (totd : Word32)
    (npd asd : Byte) (r : Nat),
    let asP := if asp = 0 then 256 else asp.toNat
    let asD := if asd = 0 then 256 else asd.toNat
    let symP := e.offset + 19
    let rle := symP + (2 * npp.toNat + 1) * asP
    let symD := rle + 3 * totp.toNat
    let str := symD + (2 * npd.toNat + 1) * asD
    let idx := fun k => rleSymbol s.layout s.img rle k
    let flags := fun k => (symbolFlags s.layout.symbol s.img symP npp.toNat (idx k)).toNat
    s.layout = defaultLayout → s.bt[s.cur]? = some e → r < totp.toNat →
    symD ≤ s.len → (totd ≠ 0 → str + (ceilLog2 asD * totd.toNat + 7) / 8 ≤ s.len) →
    (∀ k, k < r → rleRepeat s.layout s.img rle k ≠ 0 → idx k < asP ∧ flags k ≤ 3) →
    rleRepeat s.layout s.img rle r ≠ 0 →
    (asP ≤ idx r ∨ 3 < flags r) →
    let cs := rleCommands s.layout s.img symP npp.toNat rle r
    ∃ t, exec (.gdb blen q totp npp asp totd npd asd) s = .next t ∧
      t = { s with
        phase := .refused
        why := some (if asP ≤ idx r then .symbolIndexRange else .symbolFlagsRange)
        trace := s.trace ++ cs, sink := s.sink.applyAll cs
        p := { s.p with hasPause := q.isSome }, g := t.g, diag := t.diag }

/-- The same for the first packed symbol of the data stream, after the whole pilot/sync stream
(45_generalized.md section 4; the spec's decision D9). With `SYM_INDEX_MSB_FIRST` false the index of a
packed symbol is the reading of log 26, DEDUCED from V13 of 95_test_vectors.md, with true the spec's
decision D15; that `P.hasPause` is written in the refused state is log 27 (DEDUCED); `G.*` and DIAG are
left open. -/
def Obligations.BadDataSymbolIsRefused : Prop :=
  ∀ (s : State) (e : Entry) (blen : Word32) (q : Option Half) (totp : Word32) (npp asp : Byte) (totd : Word32)
    (npd asd : Byte) (j : Nat),
    let asP := if asp = 0 then 256 else asp.toNat
    let asD := if asd = 0 then 256 else asd.toNat
    let nb := ceilLog2 asD
    let symP := e.offset + 19
    let rle := symP + (2 * npp.toNat + 1) * asP
    let symD := if totp = 0 then symP else rle + 3 * totp.toNat
    let str := symD + (2 * npd.toNat + 1) * asD
    let msb := s.params.symIndexMsbFirst
    let idx := fun k => packedIndex msb s.img str nb k
    let flags := fun k => (symbolFlags s.layout.symbol s.img symD npd.toNat (idx k)).toNat
    s.layout = defaultLayout → s.bt[s.cur]? = some e → j < totd.toNat →
    str + (nb * totd.toNat + 7) / 8 ≤ s.len →
    (∀ r, r < totp.toNat → rleRepeat s.layout s.img rle r ≠ 0 →
      rleSymbol s.layout s.img rle r < asP ∧
      (symbolFlags s.layout.symbol s.img symP npp.toNat (rleSymbol s.layout s.img rle r)).toNat ≤ 3) →
    (∀ k, k < j → idx k < asD ∧ flags k ≤ 3) →
    (asD ≤ idx j ∨ 3 < flags j) →
    let cs := rleCommands s.layout s.img symP npp.toNat rle totp.toNat ++
      dataCommands s.layout msb s.img symD npd.toNat nb str j
    ∃ t, exec (.gdb blen q totp npp asp totd npd asd) s = .next t ∧
      t = { s with
        phase := .refused
        why := some (if asD ≤ idx j then .symbolIndexRange else .symbolFlagsRange)
        trace := s.trace ++ cs, sink := s.sink.applyAll cs
        p := { s.p with hasPause := q.isSome }, g := t.g, diag := t.diag }

/-! ### The skipped blocks -/

/-- Every skipped block, C64ROM, C64TURBO, CSW, GRPS, GRPE, JUMP, CALLSEQ, RET, SELECT, STOP48, SETLVL,
TEXT, MSG, ARCHIVE, HWTYPE, EMUINFO, CUSTOM, SNAP, GLUE and UNKNOWN (R230): no command, no level
change, no tick, loop context untouched, `CUR + 1`, nothing else; with the optional DIAG on, an event
with the block's type byte (log 14). -/
def Obligations.SkippedBlocksOnlyAdvance : Prop :=
  ∀ (s : State) (e : Entry) (i : Instr), s.bt[s.cur]? = some e →
    i.kind = .tzx → i.op? ∉ ([.std, .turbo, .tone, .pulses, .pdata, .direct, .gdb, .pause, .loops, .loope]
      : List Op).map some →
    exec i s = .next { s with
      cur := s.cur + 1
      diag := if s.params.reportDiag
        then s.diag ++ [{ kind := .unsupportedBlock e.type, blockIndex := s.cur }] else s.diag }

/-- A skipped block reads none of its fields after the dispatch check (46_skipped_blocks.md): over any
layout, a block of a type that is skipped is skipped whenever its size fits the image, wherever its named
fields lie; its only error is a size that does not fit (`TruncationFailsAtDispatch`). With the
optional DIAG on, an event with the block's type byte and index is appended, one a block: log 14, a DESIGN
CHOICE. -/
def Obligations.SkippedBlocksNeedOnlyTheirSize : Prop :=
  ∀ (s : State) (e : Entry) (size : Nat),
    s.phase = .running → s.input.kind = .tzx → s.bt[s.cur]? = some e → s.layout.skips e.type = true →
    bodySize s.layout s.img e.type (e.offset + 1) = some size → e.offset + 1 + size ≤ s.len →
    step s = .next { s with
      cur := s.cur + 1
      diag := if s.params.reportDiag
        then s.diag ++ [{ kind := .unsupportedBlock e.type, blockIndex := s.cur }] else s.diag }

/-! ### What no instruction does -/

/-- A block that has a body to read faults when `CUR` names no table entry (the model's own stop, log 9);
no step raises it (`ExactlyTheFinalPhasesHaveNoStep`). -/
def Obligations.BlocksNeedATableEntry : Prop :=
  ∀ (i : Instr) (s : State), s.bt[s.cur]? = none →
    (exec i s = .fault .noBlockAtCursor ↔
      i.op? ∈ ([.std, .turbo, .tone, .pulses, .pdata, .direct, .gdb] : List Op).map some)

/-- The frame of every instruction that answers a next state: inputs, every byte of the image and the
block table stay; the trace is only appended to; the loop context changes only by `LOOPS` and `LOOPE`,
`POS` only by a TAP record, `CUR` by every block but no record, `P.*` only by the blocks that load them
(`GDB` writes `P.hasPause` alone, log 27), `G.*` only by `GDB`; control and skipped blocks emit nothing. -/
def Obligations.InstructionsKeepTheirFrame : Prop :=
  ∀ (i : Instr) (s t : State), exec i s = .next t →
    t.input = s.input ∧ (∀ a, t.img.read a = s.img.read a) ∧ t.bt = s.bt ∧
    (∃ cs, t.trace = s.trace ++ cs ∧ t.sink = s.sink.applyAll cs) ∧
    (i.op? ≠ some .loops → i.op? ≠ some .loope → t.loop = s.loop) ∧
    (i.kind = .tzx → t.pos = s.pos) ∧
    (i.kind = .tap → t.cur = s.cur ∧ t.diag = s.diag) ∧
    (i.op? ≠ some .gdb → t.g = s.g) ∧
    (i.kind = .tzx → i.op? ∉ ([.std, .turbo, .tone, .pulses, .pdata, .direct, .gdb, .pause] : List Op).map some →
      t.p = s.p) ∧
    (i.op? = some .gdb → t.p = { s.p with hasPause := t.p.hasPause }) ∧
    (i.kind = .tzx → i.op? ∉ ([.std, .turbo, .tone, .pulses, .pdata, .direct, .gdb, .pause] : List Op).map some →
      t.trace = s.trace ∧ t.sink = s.sink) ∧
    (t.phase = s.phase ∨ t.phase = .failed ∨ t.phase = .refused) ∧
    (t.phase ≠ .failed → t.err = s.err) ∧ (t.phase ≠ .refused → t.why = s.why)

/-- No instruction reads a register that no rule has written (10_state.md section 2, R23; section 11): with
any other contents of `P.*` and `G.*`, and of `LOOP_RET` while the context is inactive, it does the same
to everything else. -/
def Obligations.NoUnwrittenRegisterIsRead : Prop :=
  ∀ (i : Instr) (s : State) (p : PulseRegs) (g : SymbolRegs) (r : Nat),
    let u := { s with p := p, g := g, loop := { s.loop with ret := if s.loop.active then s.loop.ret else r } }
    (∀ t, exec i s = .next t → ∃ p' g' r', exec i u =
      .next { t with p := p', g := g', loop := { t.loop with ret := r' } } ∧ (t.loop.active = true → r' = t.loop.ret)) ∧
    (∀ f, exec i s = .fault f → exec i u = .fault f)

/-- Which instruction is refused for which reason (60_exceptions.md section 5): the standard-speed and
used-bits refusals come before any command of their block, and only a generalized block is refused for
a symbol. -/
def Obligations.RefusalsHaveTheirReasons : Prop :=
  ∀ (i : Instr) (s t : State), s.phase = .running → exec i s = .next t → t.phase = .refused →
    (t.why = some .emptyStandardBlock ∧ t.trace = s.trace ∧ ((∃ q, i = .std q 0) ∨ i = .taprec 0)) ∨
    (t.why = some .bitsInLastByteRange ∧ t.trace = s.trace ∧ ∃ (used : Byte) (len : Word24),
      8 < used.toNat ∧ 0 < len.toNat ∧
      ((∃ a b c d e f q, i = .turbo a b c d e f used q len) ∨ (∃ a b q, i = .pdata a b used q len) ∨
        (∃ a q, i = .direct a q (some used) len))) ∨
    ((t.why = some .symbolIndexRange ∨ t.why = some .symbolFlagsRange) ∧ i.op? = some .gdb)

/-! ### Encoding, operands, memory -/

/-- Decoding an image that holds an encoded instruction gives the instruction back, at any offset, for
every instruction the default layout can spell and every value of its operands. -/
def Obligations.DecodeInvertsEncode : Prop :=
  ∀ (i : Instr) (m : Memory) (o : Nat), i.wellFormed defaultLayout = true →
    (∀ k, k < (encode i).length → m.read (o + k) = (encode i)[k]?) →
    decode i.kind defaultLayout m o = .ok i

/-- What a layout's decoder reads is an instruction that layout can spell, of the right container. -/
def Obligations.DecodedInstructionsAreWellFormed : Prop :=
  ∀ (k : Kind) (L : Layout) (m : Memory) (o : Nat) (i : Instr), decode k L m o = .ok i →
    i.wellFormed L = true ∧ i.kind = k

/-- Words written out from the spec's layouts and test vectors decode to their instructions. -/
def Obligations.SpecWordsDecode : Prop :=
  let at0 := fun (k : Kind) (bs : List Byte) => decode k defaultLayout (Memory.ofBytes bs) 0
  at0 .tzx [0x10, 0xE8, 0x03, 0x02, 0x00, 0x00, 0xFF] = .ok (.std (some 1000) 2) ∧
  at0 .tzx [0x11, 0xE8, 0x03, 0x2C, 0x01, 0x00, 0x00, 0x64, 0x00, 0xC8, 0x00, 0x02, 0x00, 0x03, 0x02, 0x00,
    0x01, 0x00, 0x00, 0xA0] = .ok (.turbo 1000 300 0 100 200 2 3 (some 2) 1) ∧
  at0 .tzx [0x24, 0x02, 0x00] = .ok (.loops 2) ∧
  at0 .tzx [0x25] = .ok .loope ∧
  at0 .tzx [0x19, 0x29, 0x00, 0x00, 0x00, 0x01, 0x00, 0x02, 0x00, 0x00, 0x00, 0x02, 0x02, 0x08, 0x00, 0x00,
    0x00, 0x02, 0x02] = .ok (.gdb 41 (some 1) 2 2 2 8 2 2) ∧
  at0 .tzx [0x30, 0x03, 0x41, 0x42, 0x43] = .ok (.text 3) ∧
  at0 .tzx [0x99, 0x02, 0x00, 0x00, 0x00, 0xAA, 0xBB] = .ok (.unknown 0x99 2) ∧
  at0 .tap [0x04, 0x00, 0x00, 0x00, 0x00, 0x00] = .ok (.taprec 4)

/-- Type codes do not overlap, and exactly the values R88 lists have no row and take the fallback size. -/
def Obligations.TypeBytesWithoutRowTakeTheFallback : Prop :=
  (defaultLayout.rows.map Row.code).Nodup ∧
  ∀ t : Byte,
    (defaultLayout.row? t = none ↔
      (t.toNat ≤ 0x0F ∨ (0x1A ≤ t.toNat ∧ t.toNat ≤ 0x1F) ∨ t.toNat = 0x29 ∨
        (0x2C ≤ t.toNat ∧ t.toNat ≤ 0x2F) ∨ (0x36 ≤ t.toNat ∧ t.toNat ≤ 0x3F) ∨
        (0x41 ≤ t.toNat ∧ t.toNat ≤ 0x59) ∨ 0x5B ≤ t.toNat)) ∧
    (defaultLayout.row? t = none → ∀ m b,
      bodySize defaultLayout m t b = (m.memRead b 4).map fun v => 4 + v)

/-- `MemRead(a, n)` is the unsigned little-endian value of its bytes, and none exactly when `a + n > LEN`
(00_scope.md section 5, 20_memory.md section 2). -/
def Obligations.MemReadIsLittleEndian : Prop :=
  ∀ (m : Memory) (a n : Nat), 1 ≤ n →
    (a + n ≤ m.len →
      m.memRead a n = some (((List.range n).map fun k => ((m.read (a + k)).getD 0).toNat * 256 ^ k).sum)) ∧
    (m.len < a + n → m.memRead a n = none)

/-- `ceil_log2(n)` for `1 <= n <= 256` by the table of R13, and what it comes to: the least `k` with
`2^k >= n`. -/
def Obligations.CeilLog2IsLeast : Prop :=
  ∀ n, 1 ≤ n → n ≤ 256 →
    (n = 1 → ceilLog2 n = 0) ∧ (n = 2 → ceilLog2 n = 1) ∧ (3 ≤ n ∧ n ≤ 4 → ceilLog2 n = 2) ∧
    (5 ≤ n ∧ n ≤ 8 → ceilLog2 n = 3) ∧ (9 ≤ n ∧ n ≤ 16 → ceilLog2 n = 4) ∧
    (17 ≤ n ∧ n ≤ 32 → ceilLog2 n = 5) ∧ (33 ≤ n ∧ n ≤ 64 → ceilLog2 n = 6) ∧
    (65 ≤ n ∧ n ≤ 128 → ceilLog2 n = 7) ∧ (129 ≤ n → ceilLog2 n = 8) ∧
    n ≤ 2 ^ ceilLog2 n ∧ ∀ k, k < ceilLog2 n → 2 ^ k < n

/-- Bit orders and transformed operands (R53, R93, R208): payload bits from bit 7 down, stream bit `q` is
bit `7 - q mod 8` of byte `q / 8`, alphabet size 0 is 256, a pause block's 0 is 5000, and the pilot count
at threshold 128 is chosen by bit 7 of the first payload byte, 8063 if it is 0, else 3223
(43_pulse_train.md section 3; the threshold is the spec's decision D7 in R169, logs 11 and 21). -/
def Obligations.OperandsAreAssembled : Prop :=
  (∀ (v : Byte) (k j : Nat), k ≤ 8 → j < k → (leadingBits v k)[j]? = some (v.getLsbD (7 - j))) ∧
  (∀ (m : Memory) (str q : Nat) (v : Byte), m.read (str + q / 8) = some v →
    streamBit m str q = some (v.getLsbD (7 - q % 8))) ∧
  (∀ a : Byte, alphabetSize a = if a = 0 then 256 else a.toNat) ∧
  (∀ q : Half, stopPause q = if q = 0 then 5000 else q) ∧
  (∀ f : Byte, standardPilotCount 128 f = if f.getLsbD 7 then 3223 else 8063)
end

