-- ==== Sys2Proof/Laws/State.lean ====
section
/-! SUPPORT. One lemma per field per state update of the machine's operations, true by computation and
tagged for simp, so that no later proof unfolds a record update. -/

namespace Sys2Proof.Machine

open Sys2Proof

/-! ### The step relation and the step (R20) -/

/-- A step over inputs is the step of the pair, and the pair's inputs are those. -/
theorem stepOver_eq (x : Input) (r : Session) : stepOver x r =
    match step { r with input := x } with
    | .next t => .next t.toSession
    | .fault f => .fault f
    | .refused f => .refused f := rfl

@[simp] theorem toSession_over (r : Session) (x : Input) : ({ r with input := x } : State).toSession = r := rfl
@[simp] theorem over_toSession (s : State) : ({ s.toSession with input := s.input } : State) = s := rfl

/-! ### `emit` -/

@[simp] theorem emit_input (s : State) (c : Command) : (s.emit c).input = s.input := rfl
@[simp] theorem emit_phase (s : State) (c : Command) : (s.emit c).phase = s.phase := rfl
@[simp] theorem emit_err (s : State) (c : Command) : (s.emit c).err = s.err := rfl
@[simp] theorem emit_why (s : State) (c : Command) : (s.emit c).why = s.why := rfl
@[simp] theorem emit_pos (s : State) (c : Command) : (s.emit c).pos = s.pos := rfl
@[simp] theorem emit_cur (s : State) (c : Command) : (s.emit c).cur = s.cur := rfl
@[simp] theorem emit_bt (s : State) (c : Command) : (s.emit c).bt = s.bt := rfl
@[simp] theorem emit_loop (s : State) (c : Command) : (s.emit c).loop = s.loop := rfl
@[simp] theorem emit_p (s : State) (c : Command) : (s.emit c).p = s.p := rfl
@[simp] theorem emit_g (s : State) (c : Command) : (s.emit c).g = s.g := rfl
@[simp] theorem emit_diag (s : State) (c : Command) : (s.emit c).diag = s.diag := rfl
@[simp] theorem emit_sink (s : State) (c : Command) : (s.emit c).sink = s.sink.apply c := rfl
@[simp] theorem emit_trace (s : State) (c : Command) : (s.emit c).trace = s.trace ++ [c] := rfl

/-! ### `emitAll` -/

@[simp] theorem emitAll_input (s : State) (cs : List Command) : (s.emitAll cs).input = s.input := rfl
@[simp] theorem emitAll_phase (s : State) (cs : List Command) : (s.emitAll cs).phase = s.phase := rfl
@[simp] theorem emitAll_err (s : State) (cs : List Command) : (s.emitAll cs).err = s.err := rfl
@[simp] theorem emitAll_why (s : State) (cs : List Command) : (s.emitAll cs).why = s.why := rfl
@[simp] theorem emitAll_pos (s : State) (cs : List Command) : (s.emitAll cs).pos = s.pos := rfl
@[simp] theorem emitAll_cur (s : State) (cs : List Command) : (s.emitAll cs).cur = s.cur := rfl
@[simp] theorem emitAll_bt (s : State) (cs : List Command) : (s.emitAll cs).bt = s.bt := rfl
@[simp] theorem emitAll_loop (s : State) (cs : List Command) : (s.emitAll cs).loop = s.loop := rfl
@[simp] theorem emitAll_p (s : State) (cs : List Command) : (s.emitAll cs).p = s.p := rfl
@[simp] theorem emitAll_g (s : State) (cs : List Command) : (s.emitAll cs).g = s.g := rfl
@[simp] theorem emitAll_diag (s : State) (cs : List Command) : (s.emitAll cs).diag = s.diag := rfl
@[simp] theorem emitAll_sink (s : State) (cs : List Command) : (s.emitAll cs).sink = s.sink.applyAll cs := rfl
@[simp] theorem emitAll_trace (s : State) (cs : List Command) : (s.emitAll cs).trace = s.trace ++ cs := rfl

/-! ### `raise` -/

@[simp] theorem raise_input (s : State) (e : FatalError) : (s.raise e).input = s.input := rfl
@[simp] theorem raise_phase (s : State) (e : FatalError) : (s.raise e).phase = .failed := rfl
@[simp] theorem raise_err (s : State) (e : FatalError) : (s.raise e).err = some e := rfl
@[simp] theorem raise_why (s : State) (e : FatalError) : (s.raise e).why = s.why := rfl
@[simp] theorem raise_pos (s : State) (e : FatalError) : (s.raise e).pos = s.pos := rfl
@[simp] theorem raise_cur (s : State) (e : FatalError) : (s.raise e).cur = s.cur := rfl
@[simp] theorem raise_bt (s : State) (e : FatalError) : (s.raise e).bt = s.bt := rfl
@[simp] theorem raise_loop (s : State) (e : FatalError) : (s.raise e).loop = s.loop := rfl
@[simp] theorem raise_p (s : State) (e : FatalError) : (s.raise e).p = s.p := rfl
@[simp] theorem raise_g (s : State) (e : FatalError) : (s.raise e).g = s.g := rfl
@[simp] theorem raise_diag (s : State) (e : FatalError) : (s.raise e).diag = s.diag := rfl
@[simp] theorem raise_sink (s : State) (e : FatalError) : (s.raise e).sink = s.sink := rfl
@[simp] theorem raise_trace (s : State) (e : FatalError) : (s.raise e).trace = s.trace := rfl

/-! ### `refuse` -/

@[simp] theorem refuse_input (s : State) (w : SessionRefusal) : (s.refuse w).input = s.input := rfl
@[simp] theorem refuse_phase (s : State) (w : SessionRefusal) : (s.refuse w).phase = .refused := rfl
@[simp] theorem refuse_err (s : State) (w : SessionRefusal) : (s.refuse w).err = s.err := rfl
@[simp] theorem refuse_why (s : State) (w : SessionRefusal) : (s.refuse w).why = some w := rfl
@[simp] theorem refuse_pos (s : State) (w : SessionRefusal) : (s.refuse w).pos = s.pos := rfl
@[simp] theorem refuse_cur (s : State) (w : SessionRefusal) : (s.refuse w).cur = s.cur := rfl
@[simp] theorem refuse_bt (s : State) (w : SessionRefusal) : (s.refuse w).bt = s.bt := rfl
@[simp] theorem refuse_loop (s : State) (w : SessionRefusal) : (s.refuse w).loop = s.loop := rfl
@[simp] theorem refuse_p (s : State) (w : SessionRefusal) : (s.refuse w).p = s.p := rfl
@[simp] theorem refuse_g (s : State) (w : SessionRefusal) : (s.refuse w).g = s.g := rfl
@[simp] theorem refuse_diag (s : State) (w : SessionRefusal) : (s.refuse w).diag = s.diag := rfl
@[simp] theorem refuse_sink (s : State) (w : SessionRefusal) : (s.refuse w).sink = s.sink := rfl
@[simp] theorem refuse_trace (s : State) (w : SessionRefusal) : (s.refuse w).trace = s.trace := rfl

/-! ### `nextBlock` -/

@[simp] theorem nextBlock_input (s : State) : (s.nextBlock).input = s.input := rfl
@[simp] theorem nextBlock_phase (s : State) : (s.nextBlock).phase = s.phase := rfl
@[simp] theorem nextBlock_err (s : State) : (s.nextBlock).err = s.err := rfl
@[simp] theorem nextBlock_why (s : State) : (s.nextBlock).why = s.why := rfl
@[simp] theorem nextBlock_pos (s : State) : (s.nextBlock).pos = s.pos := rfl
@[simp] theorem nextBlock_cur (s : State) : (s.nextBlock).cur = s.cur + 1 := rfl
@[simp] theorem nextBlock_bt (s : State) : (s.nextBlock).bt = s.bt := rfl
@[simp] theorem nextBlock_loop (s : State) : (s.nextBlock).loop = s.loop := rfl
@[simp] theorem nextBlock_p (s : State) : (s.nextBlock).p = s.p := rfl
@[simp] theorem nextBlock_g (s : State) : (s.nextBlock).g = s.g := rfl
@[simp] theorem nextBlock_diag (s : State) : (s.nextBlock).diag = s.diag := rfl
@[simp] theorem nextBlock_sink (s : State) : (s.nextBlock).sink = s.sink := rfl
@[simp] theorem nextBlock_trace (s : State) : (s.nextBlock).trace = s.trace := rfl

/-! ### `nextRecord` -/

@[simp] theorem nextRecord_input (s : State) (n : Half) : (s.nextRecord n).input = s.input := rfl
@[simp] theorem nextRecord_phase (s : State) (n : Half) : (s.nextRecord n).phase = s.phase := rfl
@[simp] theorem nextRecord_err (s : State) (n : Half) : (s.nextRecord n).err = s.err := rfl
@[simp] theorem nextRecord_why (s : State) (n : Half) : (s.nextRecord n).why = s.why := rfl
@[simp] theorem nextRecord_pos (s : State) (n : Half) : (s.nextRecord n).pos = s.pos + recordPrefix + n.toNat := rfl
@[simp] theorem nextRecord_cur (s : State) (n : Half) : (s.nextRecord n).cur = s.cur := rfl
@[simp] theorem nextRecord_bt (s : State) (n : Half) : (s.nextRecord n).bt = s.bt := rfl
@[simp] theorem nextRecord_loop (s : State) (n : Half) : (s.nextRecord n).loop = s.loop := rfl
@[simp] theorem nextRecord_p (s : State) (n : Half) : (s.nextRecord n).p = s.p := rfl
@[simp] theorem nextRecord_g (s : State) (n : Half) : (s.nextRecord n).g = s.g := rfl
@[simp] theorem nextRecord_diag (s : State) (n : Half) : (s.nextRecord n).diag = s.diag := rfl
@[simp] theorem nextRecord_sink (s : State) (n : Half) : (s.nextRecord n).sink = s.sink := rfl
@[simp] theorem nextRecord_trace (s : State) (n : Half) : (s.nextRecord n).trace = s.trace := rfl

/-! ### `report` -/

@[simp] theorem report_input (s : State) (k : DiagKind) : (s.report k).input = s.input := by
  unfold State.report; split <;> rfl
@[simp] theorem report_phase (s : State) (k : DiagKind) : (s.report k).phase = s.phase := by
  unfold State.report; split <;> rfl
@[simp] theorem report_err (s : State) (k : DiagKind) : (s.report k).err = s.err := by
  unfold State.report; split <;> rfl
@[simp] theorem report_why (s : State) (k : DiagKind) : (s.report k).why = s.why := by
  unfold State.report; split <;> rfl
@[simp] theorem report_pos (s : State) (k : DiagKind) : (s.report k).pos = s.pos := by
  unfold State.report; split <;> rfl
@[simp] theorem report_cur (s : State) (k : DiagKind) : (s.report k).cur = s.cur := by
  unfold State.report; split <;> rfl
@[simp] theorem report_bt (s : State) (k : DiagKind) : (s.report k).bt = s.bt := by
  unfold State.report; split <;> rfl
@[simp] theorem report_loop (s : State) (k : DiagKind) : (s.report k).loop = s.loop := by
  unfold State.report; split <;> rfl
@[simp] theorem report_p (s : State) (k : DiagKind) : (s.report k).p = s.p := by
  unfold State.report; split <;> rfl
@[simp] theorem report_g (s : State) (k : DiagKind) : (s.report k).g = s.g := by
  unfold State.report; split <;> rfl
@[simp] theorem report_sink (s : State) (k : DiagKind) : (s.report k).sink = s.sink := by
  unfold State.report; split <;> rfl
@[simp] theorem report_trace (s : State) (k : DiagKind) : (s.report k).trace = s.trace := by
  unfold State.report; split <;> rfl

/-! ### `loadPayload` -/

@[simp] theorem loadPayload_input (s : State) (q : Option Half) (a : Nat) (n : Half) : (s.loadPayload q a n).input = s.input := rfl
@[simp] theorem loadPayload_phase (s : State) (q : Option Half) (a : Nat) (n : Half) : (s.loadPayload q a n).phase = s.phase := rfl
@[simp] theorem loadPayload_err (s : State) (q : Option Half) (a : Nat) (n : Half) : (s.loadPayload q a n).err = s.err := rfl
@[simp] theorem loadPayload_why (s : State) (q : Option Half) (a : Nat) (n : Half) : (s.loadPayload q a n).why = s.why := rfl
@[simp] theorem loadPayload_pos (s : State) (q : Option Half) (a : Nat) (n : Half) : (s.loadPayload q a n).pos = s.pos := rfl
@[simp] theorem loadPayload_cur (s : State) (q : Option Half) (a : Nat) (n : Half) : (s.loadPayload q a n).cur = s.cur := rfl
@[simp] theorem loadPayload_bt (s : State) (q : Option Half) (a : Nat) (n : Half) : (s.loadPayload q a n).bt = s.bt := rfl
@[simp] theorem loadPayload_loop (s : State) (q : Option Half) (a : Nat) (n : Half) : (s.loadPayload q a n).loop = s.loop := rfl
@[simp] theorem loadPayload_p (s : State) (q : Option Half) (a : Nat) (n : Half) : (s.loadPayload q a n).p = { s.p with pauseMs := q.getD s.p.pauseMs, dataPtr := a, dataLen := n.setWidth 24 } := rfl
@[simp] theorem loadPayload_g (s : State) (q : Option Half) (a : Nat) (n : Half) : (s.loadPayload q a n).g = s.g := rfl
@[simp] theorem loadPayload_diag (s : State) (q : Option Half) (a : Nat) (n : Half) : (s.loadPayload q a n).diag = s.diag := rfl
@[simp] theorem loadPayload_sink (s : State) (q : Option Half) (a : Nat) (n : Half) : (s.loadPayload q a n).sink = s.sink := rfl
@[simp] theorem loadPayload_trace (s : State) (q : Option Half) (a : Nat) (n : Half) : (s.loadPayload q a n).trace = s.trace := rfl

/-! ### `loadStandard` -/

@[simp] theorem loadStandard_input (s : State) (v : Bool) : (s.loadStandard v).input = s.input := rfl
@[simp] theorem loadStandard_phase (s : State) (v : Bool) : (s.loadStandard v).phase = s.phase := rfl
@[simp] theorem loadStandard_err (s : State) (v : Bool) : (s.loadStandard v).err = s.err := rfl
@[simp] theorem loadStandard_why (s : State) (v : Bool) : (s.loadStandard v).why = s.why := rfl
@[simp] theorem loadStandard_pos (s : State) (v : Bool) : (s.loadStandard v).pos = s.pos := rfl
@[simp] theorem loadStandard_cur (s : State) (v : Bool) : (s.loadStandard v).cur = s.cur := rfl
@[simp] theorem loadStandard_bt (s : State) (v : Bool) : (s.loadStandard v).bt = s.bt := rfl
@[simp] theorem loadStandard_loop (s : State) (v : Bool) : (s.loadStandard v).loop = s.loop := rfl
@[simp] theorem loadStandard_p (s : State) (v : Bool) : (s.loadStandard v).p = { s.p with
    pilotLength := 2168, sync1 := 667, sync2 := 735, bit0 := 855, bit1 := 1710, bitsLast := 8, hasPause := v } := rfl
@[simp] theorem loadStandard_g (s : State) (v : Bool) : (s.loadStandard v).g = s.g := rfl
@[simp] theorem loadStandard_diag (s : State) (v : Bool) : (s.loadStandard v).diag = s.diag := rfl
@[simp] theorem loadStandard_sink (s : State) (v : Bool) : (s.loadStandard v).sink = s.sink := rfl
@[simp] theorem loadStandard_trace (s : State) (v : Bool) : (s.loadStandard v).trace = s.trace := rfl

/-! ### `loadPilotCount` -/

@[simp] theorem loadPilotCount_input (s : State) (v : Byte) : (s.loadPilotCount v).input = s.input := rfl
@[simp] theorem loadPilotCount_phase (s : State) (v : Byte) : (s.loadPilotCount v).phase = s.phase := rfl
@[simp] theorem loadPilotCount_err (s : State) (v : Byte) : (s.loadPilotCount v).err = s.err := rfl
@[simp] theorem loadPilotCount_why (s : State) (v : Byte) : (s.loadPilotCount v).why = s.why := rfl
@[simp] theorem loadPilotCount_pos (s : State) (v : Byte) : (s.loadPilotCount v).pos = s.pos := rfl
@[simp] theorem loadPilotCount_cur (s : State) (v : Byte) : (s.loadPilotCount v).cur = s.cur := rfl
@[simp] theorem loadPilotCount_bt (s : State) (v : Byte) : (s.loadPilotCount v).bt = s.bt := rfl
@[simp] theorem loadPilotCount_loop (s : State) (v : Byte) : (s.loadPilotCount v).loop = s.loop := rfl
@[simp] theorem loadPilotCount_p (s : State) (v : Byte) : (s.loadPilotCount v).p = { s.p with
    pilotCount := standardPilotCount s.params.flagThreshold v } := rfl
@[simp] theorem loadPilotCount_g (s : State) (v : Byte) : (s.loadPilotCount v).g = s.g := rfl
@[simp] theorem loadPilotCount_diag (s : State) (v : Byte) : (s.loadPilotCount v).diag = s.diag := rfl
@[simp] theorem loadPilotCount_sink (s : State) (v : Byte) : (s.loadPilotCount v).sink = s.sink := rfl
@[simp] theorem loadPilotCount_trace (s : State) (v : Byte) : (s.loadPilotCount v).trace = s.trace := rfl

/-! ### `loadGdb` -/

@[simp] theorem loadGdb_input (s : State) (q : Option Half) (tp : Word32) (np ap : Byte) (td : Word32) (nd ad : Byte) : (s.loadGdb q tp np ap td nd ad).input = s.input := rfl
@[simp] theorem loadGdb_phase (s : State) (q : Option Half) (tp : Word32) (np ap : Byte) (td : Word32) (nd ad : Byte) : (s.loadGdb q tp np ap td nd ad).phase = s.phase := rfl
@[simp] theorem loadGdb_err (s : State) (q : Option Half) (tp : Word32) (np ap : Byte) (td : Word32) (nd ad : Byte) : (s.loadGdb q tp np ap td nd ad).err = s.err := rfl
@[simp] theorem loadGdb_why (s : State) (q : Option Half) (tp : Word32) (np ap : Byte) (td : Word32) (nd ad : Byte) : (s.loadGdb q tp np ap td nd ad).why = s.why := rfl
@[simp] theorem loadGdb_pos (s : State) (q : Option Half) (tp : Word32) (np ap : Byte) (td : Word32) (nd ad : Byte) : (s.loadGdb q tp np ap td nd ad).pos = s.pos := rfl
@[simp] theorem loadGdb_cur (s : State) (q : Option Half) (tp : Word32) (np ap : Byte) (td : Word32) (nd ad : Byte) : (s.loadGdb q tp np ap td nd ad).cur = s.cur := rfl
@[simp] theorem loadGdb_bt (s : State) (q : Option Half) (tp : Word32) (np ap : Byte) (td : Word32) (nd ad : Byte) : (s.loadGdb q tp np ap td nd ad).bt = s.bt := rfl
@[simp] theorem loadGdb_loop (s : State) (q : Option Half) (tp : Word32) (np ap : Byte) (td : Word32) (nd ad : Byte) : (s.loadGdb q tp np ap td nd ad).loop = s.loop := rfl
@[simp] theorem loadGdb_p (s : State) (q : Option Half) (tp : Word32) (np ap : Byte) (td : Word32) (nd ad : Byte) : (s.loadGdb q tp np ap td nd ad).p = { s.p with hasPause := q.isSome } := rfl
@[simp] theorem loadGdb_g (s : State) (q : Option Half) (tp : Word32) (np ap : Byte) (td : Word32) (nd ad : Byte) : (s.loadGdb q tp np ap td nd ad).g = { s.g with
    pauseMs := q.getD s.g.pauseMs, totp := tp, npp := np, asp := BitVec.ofNat 9 (alphabetSize ap), totd := td, npd := nd,
    asd := BitVec.ofNat 9 (alphabetSize ad), nb := BitVec.ofNat 4 (ceilLog2 (alphabetSize ad)) } := rfl
@[simp] theorem loadGdb_diag (s : State) (q : Option Half) (tp : Word32) (np ap : Byte) (td : Word32) (nd ad : Byte) : (s.loadGdb q tp np ap td nd ad).diag = s.diag := rfl
@[simp] theorem loadGdb_sink (s : State) (q : Option Half) (tp : Word32) (np ap : Byte) (td : Word32) (nd ad : Byte) : (s.loadGdb q tp np ap td nd ad).sink = s.sink := rfl
@[simp] theorem loadGdb_trace (s : State) (q : Option Half) (tp : Word32) (np ap : Byte) (td : Word32) (nd ad : Byte) : (s.loadGdb q tp np ap td nd ad).trace = s.trace := rfl

/-! ### `loadPause` -/

@[simp] theorem loadPause_none (p : PulseRegs) : p.loadPause none = { p with hasPause := false } := rfl
@[simp] theorem loadPause_some (p : PulseRegs) (q : Half) :
    p.loadPause (some q) = { p with pauseMs := q, hasPause := true } := rfl

/-! ### `reportAlphabet` -/

@[simp] theorem reportAlphabet_input (s : State) (a d : Byte) : (s.reportAlphabet a d).input = s.input := by
  unfold State.reportAlphabet; split <;> simp
@[simp] theorem reportAlphabet_phase (s : State) (a d : Byte) : (s.reportAlphabet a d).phase = s.phase := by
  unfold State.reportAlphabet; split <;> simp
@[simp] theorem reportAlphabet_err (s : State) (a d : Byte) : (s.reportAlphabet a d).err = s.err := by
  unfold State.reportAlphabet; split <;> simp
@[simp] theorem reportAlphabet_why (s : State) (a d : Byte) : (s.reportAlphabet a d).why = s.why := by
  unfold State.reportAlphabet; split <;> simp
@[simp] theorem reportAlphabet_pos (s : State) (a d : Byte) : (s.reportAlphabet a d).pos = s.pos := by
  unfold State.reportAlphabet; split <;> simp
@[simp] theorem reportAlphabet_cur (s : State) (a d : Byte) : (s.reportAlphabet a d).cur = s.cur := by
  unfold State.reportAlphabet; split <;> simp
@[simp] theorem reportAlphabet_bt (s : State) (a d : Byte) : (s.reportAlphabet a d).bt = s.bt := by
  unfold State.reportAlphabet; split <;> simp
@[simp] theorem reportAlphabet_loop (s : State) (a d : Byte) : (s.reportAlphabet a d).loop = s.loop := by
  unfold State.reportAlphabet; split <;> simp
@[simp] theorem reportAlphabet_p (s : State) (a d : Byte) : (s.reportAlphabet a d).p = s.p := by
  unfold State.reportAlphabet; split <;> simp
@[simp] theorem reportAlphabet_g (s : State) (a d : Byte) : (s.reportAlphabet a d).g = s.g := by
  unfold State.reportAlphabet; split <;> simp
@[simp] theorem reportAlphabet_sink (s : State) (a d : Byte) : (s.reportAlphabet a d).sink = s.sink := by
  unfold State.reportAlphabet; split <;> simp
@[simp] theorem reportAlphabet_trace (s : State) (a d : Byte) : (s.reportAlphabet a d).trace = s.trace := by
  unfold State.reportAlphabet; split <;> simp

/-! ### `skip` -/

@[simp] theorem skip_input (s : State) : (s.skip).input = s.input := by
  unfold State.skip; split <;> simp
@[simp] theorem skip_phase (s : State) : (s.skip).phase = s.phase := by
  unfold State.skip; split <;> simp
@[simp] theorem skip_err (s : State) : (s.skip).err = s.err := by
  unfold State.skip; split <;> simp
@[simp] theorem skip_why (s : State) : (s.skip).why = s.why := by
  unfold State.skip; split <;> simp
@[simp] theorem skip_pos (s : State) : (s.skip).pos = s.pos := by
  unfold State.skip; split <;> simp
@[simp] theorem skip_cur (s : State) : (s.skip).cur = s.cur + 1 := by
  unfold State.skip; split <;> simp
@[simp] theorem skip_bt (s : State) : (s.skip).bt = s.bt := by
  unfold State.skip; split <;> simp
@[simp] theorem skip_loop (s : State) : (s.skip).loop = s.loop := by
  unfold State.skip; split <;> simp
@[simp] theorem skip_p (s : State) : (s.skip).p = s.p := by
  unfold State.skip; split <;> simp
@[simp] theorem skip_g (s : State) : (s.skip).g = s.g := by
  unfold State.skip; split <;> simp
@[simp] theorem skip_sink (s : State) : (s.skip).sink = s.sink := by
  unfold State.skip; split <;> simp
@[simp] theorem skip_trace (s : State) : (s.skip).trace = s.trace := by
  unfold State.skip; split <;> simp

end Sys2Proof.Machine
end

