-- ==== Sys2Proof/Laws/Emission.lean ====
section
/-! SUPPORT. The shared operations of the block rules: running commands one by one or all at once,
primitives in sequence, what closing a block can answer, and what the observation of a trace is of its
parts. -/

namespace Sys2Proof.Machine

open Sys2Proof

/-! ### Commands one by one and all at once (R11, R100) -/

@[simp] theorem applyAll_nil (k : Sink) : k.applyAll [] = k := rfl

@[simp] theorem applyAll_cons (k : Sink) (c : Command) (cs : List Command) :
    k.applyAll (c :: cs) = (k.apply c).applyAll cs := rfl

@[simp] theorem applyAll_append (k : Sink) (cs ds : List Command) :
    k.applyAll (cs ++ ds) = (k.applyAll cs).applyAll ds := by
  simp [Sink.applyAll, List.foldl_append]

/-- Emitting a run is emitting its commands one by one, in order. -/
theorem emitAll_eq_foldl_emit (cs : List Command) : ∀ s : State, s.emitAll cs = cs.foldl State.emit s := by
  induction cs with
  | nil => intro s; simp [State.emitAll]
  | cons c cs ih => intro s; rw [List.foldl_cons, ← ih]; simp [State.emitAll, State.emit]

theorem emitAll_append (s : State) (cs ds : List Command) : s.emitAll (cs ++ ds) = (s.emitAll cs).emitAll ds := by
  simp [State.emitAll]

/-! ### The observation of a trace in parts (R33) -/

@[simp] theorem ticksOf_nil : ticksOf [] = 0 := rfl

@[simp] theorem ticksOf_cons (c : Command) (cs : List Command) : ticksOf (c :: cs) = c.ticks + ticksOf cs := by
  simp [ticksOf]

@[simp] theorem ticksOf_append (cs ds : List Command) : ticksOf (cs ++ ds) = ticksOf cs + ticksOf ds := by
  simp [ticksOf]

@[simp] theorem togglesOf_nil : togglesOf [] = 0 := rfl

@[simp] theorem togglesOf_append (cs ds : List Command) : togglesOf (cs ++ ds) = togglesOf cs + togglesOf ds := by
  simp [togglesOf]

theorem apply_ticks (k : Sink) (c : Command) : (k.apply c).ticks = k.ticks + c.ticks := by
  cases c <;> rfl

/-- A run adds its ticks to `TICKS` (R106, R107). -/
theorem applyAll_ticks (cs : List Command) : ∀ k : Sink, (k.applyAll cs).ticks = k.ticks + ticksOf cs := by
  induction cs with
  | nil => intro k; simp
  | cons c cs ih => intro k; simp [ih, apply_ticks]; omega

/-- The level a run leaves does not depend on the tick count. -/
theorem applyAll_level (cs : List Command) : ∀ k : Sink, (k.applyAll cs).level = levelAfter k.level cs := by
  induction cs with
  | nil => intro k; rfl
  | cons c cs ih =>
    intro k
    simp only [levelAfter, applyAll_cons]
    rw [ih, ih]
    cases c <;> rfl

/-- How many times a list repeated in a row adds its ticks. -/
theorem ticksOf_repeat (n : Nat) (cs : List Command) :
    ticksOf (List.replicate n cs).flatten = n * ticksOf cs := by
  induction n with
  | zero => simp
  | succ n ih => simp [List.replicate_succ, ih, Nat.succ_mul]; omega

theorem togglesOf_repeat (n : Nat) (cs : List Command) :
    togglesOf (List.replicate n cs).flatten = n * togglesOf cs := by
  induction n with
  | zero => simp
  | succ n ih => simp [List.replicate_succ, ih, Nat.succ_mul]; omega

/-- The level after a run is the level after its rest, started where its first command leaves it. -/
theorem levelAfter_cons (v : Level) (c : Command) (cs : List Command) :
    levelAfter v (c :: cs) = levelAfter (Sink.apply { level := v, ticks := 0 } c).level cs := by
  unfold levelAfter
  rw [applyAll_cons, applyAll_level]
  rfl

theorem levelAfter_append (v : Level) (cs ds : List Command) :
    levelAfter v (cs ++ ds) = levelAfter (levelAfter v cs) ds := by
  unfold levelAfter
  rw [applyAll_append, applyAll_level]
  rfl

/-- The segments of a run of commands are those of its parts (R33 (a)). -/
theorem segments_append (v : Level) (cs ds : List Command) :
    segments v (cs ++ ds) = segments v cs ++ segments (levelAfter v cs) ds := by
  induction cs generalizing v with
  | nil => rfl
  | cons c cs ih => rw [levelAfter_cons]; cases c <;> simp [segments, ih, Sink.apply]

/-! ### Primitives in sequence (R10) -/

@[simp] theorem all_cmds (cs : List Command) : (Emission.all cs).cmds = cs := rfl
@[simp] theorem all_stop (cs : List Command) : (Emission.all cs).stop = none := rfl
@[simp] theorem halt_cmds (w : Stop) : (Emission.halt w).cmds = [] := rfl
@[simp] theorem halt_stop (w : Stop) : (Emission.halt w).stop = some w := rfl

@[simp] theorem all_seq_all (cs ds : List Command) :
    (Emission.all cs).seq (Emission.all ds) = Emission.all (cs ++ ds) := rfl

theorem all_seq (cs : List Command) (e : Emission) :
    (Emission.all cs).seq e = { cmds := cs ++ e.cmds, stop := e.stop } := rfl

@[simp] theorem seq_of_stop {a b : Emission} {w : Stop} (h : a.stop = some w) : a.seq b = a := by
  simp [Emission.seq, h]

theorem seq_of_none {a b : Emission} (h : a.stop = none) :
    a.seq b = { cmds := a.cmds ++ b.cmds, stop := b.stop } := by
  simp [Emission.seq, h]

/-- A sequence runs to its end exactly when both parts do. -/
theorem seq_stop_none (a b : Emission) : (a.seq b).stop = none ↔ a.stop = none ∧ b.stop = none := by
  cases h : a.stop <;> simp [Emission.seq, h]

/-- What stops a sequence stops one of its parts. -/
theorem seq_stop_some {a b : Emission} {w : Stop} (h : (a.seq b).stop = some w) :
    a.stop = some w ∨ (a.stop = none ∧ b.stop = some w) := by
  cases ha : a.stop <;> simp_all [Emission.seq]

theorem times_all (n : Nat) (cs : List Command) :
    Emission.times n (Emission.all cs) = Emission.all (List.replicate n cs).flatten := by
  induction n with
  | zero => rfl
  | succ n ih => simp [Emission.times, ih, List.replicate_succ]

/-- What stops a repetition stops the repeated primitive. -/
theorem times_stop_some {n : Nat} {e : Emission} {w : Stop} (h : (Emission.times n e).stop = some w) :
    e.stop = some w := by
  induction n with
  | zero => simp [Emission.times] at h
  | succ n ih =>
    rcases seq_stop_some (by simpa [Emission.times] using h) with h | ⟨_, h⟩
    · exact h
    · exact ih h

/-! ### Closing a block -/

/-- All that closing a block can answer: it went on, it raised, or it refused; the commands emitted so
far stay in the trace (R134, R276, R284). -/
theorem closeBlock_cases (o : Nat) (e : Emission) (goOn : State → State) (s : State) :
    (e.stop = none ∧ closeBlock o e goOn s = .next (goOn (s.emitAll e.cmds))) ∨
    (e.stop = some .truncated ∧
      closeBlock o e goOn s = .next ((s.emitAll e.cmds).raise (.truncatedBlock o))) ∨
    (∃ w, e.stop = some (.refuse w) ∧ closeBlock o e goOn s = .next ((s.emitAll e.cmds).refuse w)) := by
  unfold closeBlock
  match h : e.stop with
  | none => exact .inl ⟨rfl, rfl⟩
  | some .truncated => exact .inr (.inl ⟨rfl, rfl⟩)
  | some (.refuse w) => exact .inr (.inr ⟨w, rfl, rfl⟩)

@[simp] theorem closeBlock_all (o : Nat) (cs : List Command) (goOn : State → State) (s : State) :
    closeBlock o (Emission.all cs) goOn s = .next (goOn (s.emitAll cs)) := rfl

@[simp] theorem closeBlock_refuse (o : Nat) (w : SessionRefusal) (goOn : State → State) (s : State) :
    closeBlock o (Emission.halt (.refuse w)) goOn s = .next (s.refuse w) := by
  simp [closeBlock, State.emitAll]

/-- A block rule at a table entry runs at that entry's offset. -/
theorem atBlock_of_entry {s : State} {e : Entry} (h : s.bt[s.cur]? = some e) (rule : Nat → Result) :
    atBlock s rule = rule e.offset := by
  simp [atBlock, h]

/-- All that a block rule can answer: what it answers at the entry, or the fault that names none. -/
theorem atBlock_cases (s : State) (rule : Nat → Result) :
    (∃ e, s.bt[s.cur]? = some e ∧ atBlock s rule = rule e.offset) ∨
    (s.bt[s.cur]? = none ∧ atBlock s rule = .fault .noBlockAtCursor) := by
  unfold atBlock
  match h : s.bt[s.cur]? with
  | some e => exact .inl ⟨e, rfl, rfl⟩
  | none => exact .inr ⟨rfl, rfl⟩

end Sys2Proof.Machine
end

