-- ==== Sys2Proof/Laws/Blocks.lean ====
section
/-! SUPPORT. What the shared block rules can answer: the diagnostic channel, a skipped block, a
standard-speed payload, the replay of a generalized block. -/

namespace Sys2Proof.Machine

open Sys2Proof

/-! ### Reporting and skipping (R35, R230) -/

/-- Reporting changes nothing but `DIAG` (R35). -/
theorem report_eq (s : State) (k : DiagKind) : s.report k = { s with diag := (s.report k).diag } := by
  unfold State.report; split <;> rfl

/-- Reporting a zero alphabet size changes nothing but `DIAG` (R209). -/
theorem reportAlphabet_eq (s : State) (asp asd : Byte) :
    s.reportAlphabet asp asd = { s with diag := (s.reportAlphabet asp asd).diag } := by
  unfold State.reportAlphabet
  split
  · exact report_eq s _
  · rfl

/-- A skipped block changes nothing but `CUR` and `DIAG` (R230). -/
theorem skip_eq (s : State) : s.skip = { s with cur := s.cur + 1, diag := s.skip.diag } := by
  unfold State.skip State.report State.nextBlock
  split
  · split <;> rfl
  · rfl

/-! ### A standard-speed payload (R169, R170, R261) -/

/-- All that a standard-speed payload can answer once loaded: the error of one whose first byte lies
outside the image, or what closing its pilot train gives. -/
theorem standardSignal_cases (o : Nat) (goOn : State → State) (s : State) :
    (s.img.read s.p.dataPtr = none ∧ standardSignal o goOn s = .next (s.raise (.truncatedBlock o))) ∨
    (∃ first, s.img.read s.p.dataPtr = some first ∧ standardSignal o goOn s =
      closeBlock o (pilotTrain s.img (s.loadPilotCount first).p) goOn (s.loadPilotCount first)) := by
  unfold standardSignal
  cases hr : s.img.read s.p.dataPtr with
  | none => exact .inl ⟨rfl, rfl⟩
  | some first => exact .inr ⟨first, rfl, rfl⟩

/-- A standard-speed payload inside the image closes its block with its pilot train. -/
theorem standardSignal_of_read {o : Nat} {goOn : State → State} {s : State} {first : Byte}
    (h : s.img.read s.p.dataPtr = some first) : standardSignal o goOn s =
      closeBlock o (pilotTrain s.img (s.loadPilotCount first).p) goOn (s.loadPilotCount first) := by
  unfold standardSignal; rw [h]

/-! ### The pause of a block (R161) -/

/-- Under a layout without the field there is no pause, and nothing is read. -/
@[simp] theorem readPause_none (o : Nat) (s : State) (rule : Option Half → Result) :
    readPause o none s rule = rule none := rfl

/-- All that a block with a pause read from the image can answer: its rule, or the error of a field outside
the image. -/
theorem readPause_cases (o : Nat) (f : Option FieldPos) (s : State) (rule : Option Half → Result) :
    (∃ q, s.img.optField 16 (o + 1) f = some q ∧ readPause o f s rule = rule q) ∨
    (s.img.optField 16 (o + 1) f = none ∧ readPause o f s rule = .next (s.raise (.truncatedBlock o))) := by
  unfold readPause
  cases h : s.img.optField 16 (o + 1) f with
  | none => exact .inr ⟨rfl, rfl⟩
  | some q => exact .inl ⟨q, rfl, rfl⟩

/-- A loaded pause operand makes the pause the rule plays for it, whatever the register held before. -/
theorem blockPause_loadPause (p : PulseRegs) (q : Option Half) :
    blockPause (p.loadPause q) = q.elim [] fun n => pause n.toNat := by
  cases q <;> rfl

/-- The pause of a generalized block after its load. -/
theorem gdbPause_loadGdb (s : State) (q : Option Half) (tp : Word32) (np ap : Byte) (td : Word32) (nd ad : Byte) :
    gdbPause (s.loadGdb q tp np ap td nd ad) = q.elim [] fun n => pause n.toNat := by
  cases q <;> rfl

/-! ### The tables of a generalized block under the default layout (R89, R200) -/

/-- The default stream length is the least number of whole bytes that holds the stream's bits (R207). -/
theorem streamBytes_default (nb totd : Nat) :
    streamBytes defaultLayout.gdb.stream nb totd = (nb * totd + 7) / 8 := by
  simp [streamBytes, defaultLayout]

/-- A table of the default layout takes up its bytes if it is read, else none (R89). -/
theorem gdbExtent_default (g : SymbolRegs) (t : GdbTable) :
    gdbExtent defaultLayout g t = if gdbIsRead g t = true then gdbBytes defaultLayout g t else 0 := by
  simp [gdbExtent, defaultLayout]

/-- The default order: pilot/sync definitions, runs, data definitions, stream, those of a stream without
symbols absent. -/
theorem gdbTables_default (g : SymbolRegs) (first : Nat) :
    let rle := first + (2 * g.npp.toNat + 1) * g.asp.toNat
    let symD := if g.totp = 0 then first else rle + 3 * g.totp.toNat
    let str := symD + (2 * g.npd.toNat + 1) * g.asd.toNat
    let t := gdbTables defaultLayout g first
    t.symP = first ∧ t.symD = symD ∧ (g.totp ≠ 0 → t.rle = rle) ∧ (g.totd ≠ 0 → t.str = str) ∧
      t.stop = (if g.totd = 0 then symD else str + (g.nb.toNat * g.totd.toNat + 7) / 8) := by
  have key : ∀ v : Word32, (v = 0#32 ∧ v.toNat = 0) ∨ (v ≠ 0#32 ∧ 0 < v.toNat) := fun v => by
    rw [ne_eq, ← BitVec.toNat_inj]; simp; omega
  have hP : gdbStart defaultLayout g first .pilotSymbols = first := rfl
  have hR : gdbStart defaultLayout g first .pilotRuns = first + gdbExtent defaultLayout g .pilotSymbols := rfl
  have hD : gdbStart defaultLayout g first .dataSymbols =
      first + (gdbExtent defaultLayout g .pilotSymbols + gdbExtent defaultLayout g .pilotRuns) := rfl
  have hS : gdbStart defaultLayout g first .dataStream =
      first + (gdbExtent defaultLayout g .pilotSymbols + (gdbExtent defaultLayout g .pilotRuns +
        gdbExtent defaultLayout g .dataSymbols)) := rfl
  have hsz : ∀ n, symbolSize defaultLayout.symbol n = 2 * n + 1 := fun _ => rfl
  have hr : defaultLayout.rle.size = 3 := rfl
  rcases key g.totp with ⟨h1, h1'⟩ | ⟨h1, h1'⟩ <;> rcases key g.totd with ⟨h2, h2'⟩ | ⟨h2, h2'⟩ <;>
    simp [gdbTables, blockTables, hP, hR, hD, hS, gdbExtent_default, gdbIsRead, gdbBytes, streamBytes_default, hsz, hr, h1, h1', h2, h2',
      List.filter] <;> omega

/-! ### The replay of a generalized block (R200) -/

/-- The commands of a generalized block in order: pilot/sync stream, data stream, pause (R200). -/
def gdbEmission (s : State) (t : GdbTables) : Emission :=
  (pilotStream s.layout s.img s.g t).seq
    ((dataStream s.layout s.params.symIndexMsbFirst s.img (s.g.usePilotTables t) t).out.seq
      (Emission.all (gdbPause s)))

/-- `G.*` after the replay: the data stream's pointers only if the pilot/sync stream ran to its end
(log 16). -/
def gdbRegs (s : State) (t : GdbTables) : SymbolRegs :=
  match (pilotStream s.layout s.img s.g t).stop with
  | some _ => s.g.usePilotTables t
  | none => (s.g.usePilotTables t).useDataTables t
      (dataStream s.layout s.params.symIndexMsbFirst s.img (s.g.usePilotTables t) t).bitpos

/-- The table pointers do not touch the pause register. -/
@[simp] theorem usePilotTables_pauseMs (g : SymbolRegs) (t : GdbTables) :
    (g.usePilotTables t).pauseMs = g.pauseMs := by
  unfold SymbolRegs.usePilotTables; split <;> rfl

@[simp] theorem useDataTables_pauseMs (g : SymbolRegs) (t : GdbTables) (b : Nat) :
    (g.useDataTables t b).pauseMs = g.pauseMs := by
  unfold SymbolRegs.useDataTables; split <;> rfl

/-- The replay of a generalized block closes the block with its commands. -/
theorem gdbReplay_eq (o : Nat) (t : GdbTables) (s : State) :
    gdbReplay o t s = closeBlock o (gdbEmission s t) State.nextBlock { s with g := gdbRegs s t } := by
  unfold gdbReplay gdbEmission gdbRegs gdbPause
  dsimp only
  cases h : (pilotStream s.layout s.img s.g t).stop with
  | some w => simp only [seq_of_stop h]
  | none => simp only [useDataTables_pauseMs, usePilotTables_pauseMs]

end Sys2Proof.Machine
end

