-- ==== Sys2Proof/Laws/Memory.lean ====
section
/-! SUPPORT. The tape image: the loader gives the canonical form, reading back a loaded image gives its
bytes, and when a read of one or of several bytes succeeds. -/

namespace Sys2Proof.Machine

open Sys2Proof

/-! ### The loader -/

theorem cellsWf_mono {lo lo' hi : Nat} {cs : List Host.Cell} (h : cellsWf lo hi cs = true) (hl : lo' ≤ lo) :
    cellsWf lo' hi cs = true := by
  cases cs with
  | nil => rfl
  | cons c cs =>
    simp only [cellsWf, Bool.and_eq_true, decide_eq_true_eq] at h ⊢
    exact ⟨⟨⟨by omega, h.1.1.2⟩, h.1.2⟩, h.2⟩

theorem cellsFrom_wf (bs : List Byte) : ∀ a, cellsWf a (a + bs.length) (cellsFrom a bs) = true := by
  induction bs with
  | nil => intro a; rfl
  | cons v vs ih =>
    intro a
    have h := ih (a + 1)
    simp only [List.length_cons, cellsFrom]
    rw [show a + (vs.length + 1) = a + 1 + vs.length by omega]
    split
    · exact cellsWf_mono h (by omega)
    · simp only [cellsWf, Bool.and_eq_true, decide_eq_true_eq]
      exact ⟨⟨⟨by omega, by omega⟩, by assumption⟩, h⟩

/-- The loader gives the canonical form. -/
theorem ofBytes_wf (bs : List Byte) : (Memory.ofBytes bs).wf = true := by
  simpa [Memory.wf, Memory.ofBytes] using cellsFrom_wf bs 0

@[simp] theorem ofBytes_len (bs : List Byte) : (Memory.ofBytes bs).len = bs.length := rfl

theorem cellAt_cellsFrom_below (bs : List Byte) : ∀ a k, k < a → cellAt (cellsFrom a bs) k = unlistedByte := by
  induction bs with
  | nil => intro a k _; rfl
  | cons v vs ih =>
    intro a k h
    simp only [cellsFrom]
    split
    · exact ih (a + 1) k (by omega)
    · simp only [cellAt]
      rw [if_neg (by omega)]
      exact ih (a + 1) k (by omega)

theorem cellAt_cellsFrom (bs : List Byte) : ∀ a k, (h : k < bs.length) → cellAt (cellsFrom a bs) (a + k) = bs[k] := by
  induction bs with
  | nil => intro a k h; simp at h
  | cons v vs ih =>
    intro a k h
    simp only [cellsFrom]
    cases k with
    | zero =>
      split
      · simp [cellAt_cellsFrom_below vs (a + 1) a (by omega), *]
      · simp [cellAt]
    | succ k =>
      have := ih (a + 1) k (by simpa using h)
      rw [show a + 1 + k = a + (k + 1) by omega] at this
      split
      · simpa using this
      · simp only [cellAt]
        rw [if_neg (by omega)]
        simpa using this

/-- Reading back a loaded image gives the bytes it was loaded from. -/
theorem read_ofBytes (bs : List Byte) (a : Nat) : (Memory.ofBytes bs).read a = bs[a]? := by
  unfold Memory.read
  by_cases h : a < bs.length
  · have := cellAt_cellsFrom bs 0 a h
    simp only [Nat.zero_add] at this
    simp [h, Memory.ofBytes, this]
  · simp [h]

/-! ### When a read succeeds (R56) -/

theorem read_isSome (m : Memory) (a : Nat) : (m.read a).isSome = true ↔ a < m.len := by
  unfold Memory.read; split <;> simp [*]

theorem read_eq_none (m : Memory) (a : Nat) : m.read a = none ↔ m.len ≤ a := by
  unfold Memory.read; split <;> simp <;> omega

theorem read_lt {m : Memory} {a : Nat} {v : Byte} (h : m.read a = some v) : a < m.len :=
  (read_isSome m a).1 (by simp [h])

theorem exists_read {m : Memory} {a : Nat} (h : a < m.len) : ∃ v, m.read a = some v :=
  Option.isSome_iff_exists.1 ((read_isSome m a).2 h)

/-- `MemRead(a, n)` succeeds exactly when `a + n <= LEN` (R10). -/
theorem memRead_isSome (m : Memory) (n : Nat) : ∀ a, (m.memRead a (n + 1)).isSome = true ↔ a + (n + 1) ≤ m.len := by
  induction n with
  | zero =>
    intro a
    by_cases h : a < m.len
    · obtain ⟨v, hv⟩ := exists_read h
      simp [Memory.memRead, hv]; omega
    · rw [show m.memRead a (0 + 1) = none by simp [Memory.memRead, (read_eq_none m a).2 (by omega)]]
      simp; omega
  | succ n ih =>
    intro a
    by_cases h : a < m.len
    · obtain ⟨v, hv⟩ := exists_read h
      have := ih (a + 1)
      rw [Memory.memRead]
      cases hr : m.memRead (a + 1) (n + 1) with
      | none => simp [hr] at this; simp [hv]; omega
      | some r => simp [hr] at this; simp [hv]; omega
    · rw [Memory.memRead, (read_eq_none m a).2 (by omega)]
      simp; omega

/-- A read of any number of bytes succeeds when they all lie inside the image. -/
theorem exists_memRead (m : Memory) (n : Nat) : ∀ {a}, a + n ≤ m.len → ∃ v, m.memRead a n = some v := by
  cases n with
  | zero => intro a _; exact ⟨0, by rw [Memory.memRead]⟩
  | succ n => intro a h; exact Option.isSome_iff_exists.1 ((memRead_isSome m n a).2 h)

theorem exists_word {m : Memory} {n a w : Nat} (h : a + w ≤ m.len) : ∃ v, m.word n a w = some v := by
  obtain ⟨v, hv⟩ := exists_memRead m w h
  exact ⟨BitVec.ofNat n v, by simp [Memory.word, hv]⟩

/-- A field that cannot be read reaches beyond `LEN`. -/
theorem word_none {m : Memory} {n a w : Nat} (h : m.word n a w = none) : m.len < a + w := by
  by_contra hc
  obtain ⟨v, hv⟩ := exists_word (m := m) (n := n) (a := a) (w := w) (by omega)
  rw [hv] at h; cases h

theorem read8_isSome (m : Memory) (a : Nat) : (m.read8 a).isSome = true ↔ a + 1 ≤ m.len := by
  simp only [Memory.read8, Memory.word, Option.isSome_map]; exact memRead_isSome m 0 a

theorem read16_isSome (m : Memory) (a : Nat) : (m.read16 a).isSome = true ↔ a + 2 ≤ m.len := by
  simp only [Memory.read16, Memory.word, Option.isSome_map]; exact memRead_isSome m 1 a

theorem exists_read8 {m : Memory} {a : Nat} (h : a + 1 ≤ m.len) : ∃ v, m.read8 a = some v := exists_word h

theorem exists_read16 {m : Memory} {a : Nat} (h : a + 2 ≤ m.len) : ∃ v, m.read16 a = some v := exists_word h

theorem exists_field {m : Memory} {n b : Nat} {f : FieldPos} (h : b + f.off + f.width ≤ m.len) :
    ∃ v, m.field n b f = some v := exists_word h

/-- An optional field is read exactly when the layout has it. -/
theorem optField_isSome {m : Memory} {n b : Nat} {f : Option FieldPos} {v : Option (BitVec n)}
    (h : m.optField n b f = some v) : v.isSome = f.isSome := by
  cases f with
  | none => cases h; rfl
  | some f =>
    simp only [Memory.optField, Option.map_eq_some_iff] at h
    obtain ⟨_, _, rfl⟩ := h
    rfl

end Sys2Proof.Machine
end

