-- ==== Sys2Proof/Laws/Decode.lean ====
section
/-! SUPPORT. Reading back little-endian fields, what a decoded row is an instruction of, and the
canonical form of the images the host's table words are laid out in. -/

namespace Sys2Proof

open Sys2Proof.Machine

/-! ### Little-endian fields (R52) -/

@[simp] theorem leBytes_length (n : Nat) : ∀ v, (leBytes n v).length = n := by
  induction n with
  | zero => intro v; rfl
  | succ n ih => intro v; simp [leBytes, ih]

@[simp] theorem le_length (n : Nat) (v : BitVec (8 * n)) : (le n v).length = n := leBytes_length n _

/-- Bytes that spell a value read back as it, cut to the field's width (R10, R52). -/
theorem memRead_of_leBytes (m : Memory) (n : Nat) : ∀ (o v : Nat),
    (∀ k, k < n → m.read (o + k) = (leBytes n v)[k]?) → m.memRead o n = some (v % 256 ^ n) := by
  induction n with
  | zero => intro o v _; simp [Memory.memRead, Nat.mod_one]
  | succ n ih =>
    intro o v h
    have h0 : m.read o = some (BitVec.ofNat 8 v) := by simpa [leBytes] using h 0 (by omega)
    have hr := ih (o + 1) (v / 256) (fun k hk => by
      have := h (k + 1) (by omega)
      rw [show o + 1 + k = o + (k + 1) by omega, this]
      simp [leBytes])
    have hm : v % 256 ^ (n + 1) = v % 256 + 256 * (v / 256 % 256 ^ n) := by
      rw [Nat.pow_succ, Nat.mul_comm, Nat.mod_mul]
    simp only [Memory.memRead, h0, hr, BitVec.toNat_ofNat]
    rw [hm]

/-- A memory that holds a field's bytes at `o` reads the field there. -/
theorem memRead_of_le (m : Memory) (n : Nat) (o : Nat) (v : BitVec (8 * n))
    (h : ∀ k, k < n → m.read (o + k) = (le n v)[k]?) : m.memRead o n = some v.toNat := by
  have hlt : v.toNat < 256 ^ n := by
    have := v.isLt
    rwa [Nat.pow_mul] at this
  rw [memRead_of_leBytes m n o v.toNat h, Nat.mod_eq_of_lt hlt]

/-! ### What a row decodes to (R71, R72) -/

/-- A row's body decodes to an instruction of that row. -/
theorem decodeRow_op {L : Layout} {m : Memory} {b : Nat} {op : Op} {i : Instr}
    (h : decodeRow L m b op = some i) : i.op? = some op ∧ i.kind = .tzx := by
  cases op <;> simp only [decodeRow, Option.bind_eq_bind, Option.bind_eq_some_iff, Option.some.injEq] at h
  case std => obtain ⟨_, _, _, _, rfl⟩ := h; exact ⟨rfl, rfl⟩
  case turbo => obtain ⟨_, _, _, _, _, _, _, _, _, _, _, _, _, _, _, _, _, _, rfl⟩ := h; exact ⟨rfl, rfl⟩
  case tone => obtain ⟨_, _, _, _, rfl⟩ := h; exact ⟨rfl, rfl⟩
  case pulses => obtain ⟨_, _, rfl⟩ := h; exact ⟨rfl, rfl⟩
  case pdata => obtain ⟨_, _, _, _, _, _, _, _, _, _, rfl⟩ := h; exact ⟨rfl, rfl⟩
  case direct => obtain ⟨_, _, _, _, _, _, _, _, rfl⟩ := h; exact ⟨rfl, rfl⟩
  case gdb => obtain ⟨_, _, _, _, _, _, _, _, _, _, _, _, _, _, _, _, rfl⟩ := h; exact ⟨rfl, rfl⟩
  case msg => obtain ⟨_, _, _, _, rfl⟩ := h; exact ⟨rfl, rfl⟩
  case custom => obtain ⟨_, _, _, _, rfl⟩ := h; exact ⟨rfl, rfl⟩
  case snap => obtain ⟨_, _, _, _, rfl⟩ := h; exact ⟨rfl, rfl⟩
  case loope => cases h; exact ⟨rfl, rfl⟩
  case grpe => cases h; exact ⟨rfl, rfl⟩
  case ret => cases h; exact ⟨rfl, rfl⟩
  case emuinfo => cases h; exact ⟨rfl, rfl⟩
  case glue => cases h; exact ⟨rfl, rfl⟩
  all_goals obtain ⟨_, _, rfl⟩ := h; exact ⟨rfl, rfl⟩

/-- A type byte's row stands in the layout, under that type byte. -/
theorem row?_mem {L : Layout} {t : Byte} {r : Row} (h : L.row? t = some r) : r ∈ L.rows ∧ r.code = t := by
  refine ⟨List.mem_of_find?_eq_some h, ?_⟩
  simpa using List.find?_some h

/-! ### Every image the model makes is in canonical form -/

/-- A longer image with the same bytes listed keeps the canonical form. -/
theorem cellsWf_grow {hi hi' : Nat} (h : hi ≤ hi') (cs : List Host.Cell) : ∀ lo, cellsWf lo hi cs = true →
    cellsWf lo hi' cs = true := by
  induction cs with
  | nil => intro lo _; rfl
  | cons c cs ih =>
    intro lo hw
    simp only [cellsWf, Bool.and_eq_true, decide_eq_true_eq] at hw ⊢
    exact ⟨⟨⟨hw.1.1.1, by omega⟩, hw.1.2⟩, ih _ hw.2⟩

theorem holdBlock_wf {m : Memory} (h : m.wf = true) (o : Nat) : (m.holdBlock o).wf = true := by
  unfold Memory.holdBlock
  split
  · exact h
  · split
    · exact cellsWf_grow (Nat.le_max_left _ _) _ _ h
    · exact h

theorem wordImage_wf (nbits w : Nat) : (wordImage nbits w).wf = true := by
  unfold wordImage
  split
  · exact holdBlock_wf (ofBytes_wf _) _
  · exact ofBytes_wf _

theorem reset_img_wf : State.reset.img.wf = true := by decide

end Sys2Proof
end

