-- ==== Sys2Proof/Laws/PerInstr.lean ====
section
/-! SUPPORT. Statements for every instruction, one lemma per constructor. -/

namespace Sys2Proof.Laws

open Sys2Proof Sys2Proof.Machine

/-- The encoding of an instruction the default layout can spell begins with the type byte of the
instruction's own row, or, for the fallback, with a type byte that has none (R71, R72, R88); a TAP
record begins with the low byte of its prefix (R95). -/
def EncodeHead.Statement (i : Instr) : Prop :=
  i.wellFormed defaultLayout = true → ∃ t rest, encode i = t :: rest ∧
    match i with
    | .taprec n => t = n.setWidth 8
    | _ => (defaultLayout.row? t).map Row.op = i.op?

theorem EncodeHead.std (pause : Option Half) (len : Half) : EncodeHead.Statement (.std pause len) := by
  intro _
  exact ⟨_, _, rfl, rfl⟩

theorem EncodeHead.turbo (pilotLength sync1 sync2 bit0 bit1 pilotCount : Half) (usedBits : Byte) (pause : Option Half) (len : Word24) : EncodeHead.Statement (.turbo pilotLength sync1 sync2 bit0 bit1 pilotCount usedBits pause len) := by
  intro _
  exact ⟨_, _, rfl, rfl⟩

theorem EncodeHead.tone (pulseLength count : Half) : EncodeHead.Statement (.tone pulseLength count) := by
  intro _
  exact ⟨_, _, rfl, rfl⟩

theorem EncodeHead.pulses (n : Byte) : EncodeHead.Statement (.pulses n) := by
  intro _
  exact ⟨_, _, rfl, rfl⟩

theorem EncodeHead.pdata (bit0 bit1 : Half) (usedBits : Byte) (pause : Option Half) (len : Word24) : EncodeHead.Statement (.pdata bit0 bit1 usedBits pause len) := by
  intro _
  exact ⟨_, _, rfl, rfl⟩

theorem EncodeHead.direct (tps : Half) (pause : Option Half) (usedBits : Option Byte) (len : Word24) : EncodeHead.Statement (.direct tps pause usedBits len) := by
  intro _
  exact ⟨_, _, rfl, rfl⟩

theorem EncodeHead.c64rom (blen : Word32) : EncodeHead.Statement (.c64rom blen) := by
  intro _
  exact ⟨_, _, rfl, rfl⟩

theorem EncodeHead.c64turbo (blen : Word32) : EncodeHead.Statement (.c64turbo blen) := by
  intro _
  exact ⟨_, _, rfl, rfl⟩

theorem EncodeHead.csw (blen : Word32) : EncodeHead.Statement (.csw blen) := by
  intro _
  exact ⟨_, _, rfl, rfl⟩

theorem EncodeHead.gdb (blen : Word32) (pause : Option Half) (totp : Word32) (npp asp : Byte) (totd : Word32) (npd asd : Byte) : EncodeHead.Statement (.gdb blen pause totp npp asp totd npd asd) := by
  intro _
  exact ⟨_, _, rfl, rfl⟩

theorem EncodeHead.pause (pause : Half) : EncodeHead.Statement (.pause pause) := by
  intro _
  exact ⟨_, _, rfl, rfl⟩

theorem EncodeHead.grps (n : Byte) : EncodeHead.Statement (.grps n) := by
  intro _
  exact ⟨_, _, rfl, rfl⟩

theorem EncodeHead.grpe : EncodeHead.Statement .grpe := by
  intro _
  exact ⟨_, _, rfl, rfl⟩

theorem EncodeHead.jump (rel : Half) : EncodeHead.Statement (.jump rel) := by
  intro _
  exact ⟨_, _, rfl, rfl⟩

theorem EncodeHead.loops (count : Half) : EncodeHead.Statement (.loops count) := by
  intro _
  exact ⟨_, _, rfl, rfl⟩

theorem EncodeHead.loope : EncodeHead.Statement .loope := by
  intro _
  exact ⟨_, _, rfl, rfl⟩

theorem EncodeHead.callseq (n : Half) : EncodeHead.Statement (.callseq n) := by
  intro _
  exact ⟨_, _, rfl, rfl⟩

theorem EncodeHead.ret : EncodeHead.Statement .ret := by
  intro _
  exact ⟨_, _, rfl, rfl⟩

theorem EncodeHead.select (n : Half) : EncodeHead.Statement (.select n) := by
  intro _
  exact ⟨_, _, rfl, rfl⟩

theorem EncodeHead.stop48 (blen : Word32) : EncodeHead.Statement (.stop48 blen) := by
  intro _
  exact ⟨_, _, rfl, rfl⟩

theorem EncodeHead.setlvl (blen : Word32) : EncodeHead.Statement (.setlvl blen) := by
  intro _
  exact ⟨_, _, rfl, rfl⟩

theorem EncodeHead.text (n : Byte) : EncodeHead.Statement (.text n) := by
  intro _
  exact ⟨_, _, rfl, rfl⟩

theorem EncodeHead.msg (time n : Byte) : EncodeHead.Statement (.msg time n) := by
  intro _
  exact ⟨_, _, rfl, rfl⟩

theorem EncodeHead.archive (n : Half) : EncodeHead.Statement (.archive n) := by
  intro _
  exact ⟨_, _, rfl, rfl⟩

theorem EncodeHead.hwtype (n : Byte) : EncodeHead.Statement (.hwtype n) := by
  intro _
  exact ⟨_, _, rfl, rfl⟩

theorem EncodeHead.emuinfo : EncodeHead.Statement .emuinfo := by
  intro _
  exact ⟨_, _, rfl, rfl⟩

theorem EncodeHead.custom (id : BitVec 128) (n : Word32) : EncodeHead.Statement (.custom id n) := by
  intro _
  exact ⟨_, _, rfl, rfl⟩

theorem EncodeHead.snap (kind : Byte) (n : Word24) : EncodeHead.Statement (.snap kind n) := by
  intro _
  exact ⟨_, _, rfl, rfl⟩

theorem EncodeHead.glue : EncodeHead.Statement .glue := by
  intro _
  exact ⟨_, _, rfl, rfl⟩

theorem EncodeHead.unknown (type : Byte) (blen : Word32) : EncodeHead.Statement (.unknown type blen) := by
  intro h
  refine ⟨_, _, rfl, ?_⟩
  simpa [Instr.wellFormed, Instr.op?] using h

theorem EncodeHead.taprec (n : Half) : EncodeHead.Statement (.taprec n) := by
  intro _
  refine ⟨BitVec.ofNat 8 n.toNat, leBytes 1 (n.toNat / 256), rfl, ?_⟩
  apply BitVec.eq_of_toNat_eq
  simp

end Sys2Proof.Laws
end

