-- ==== Sys2Proof/Laws/Replay.lean ====
section
/-! SUPPORT. The machine's recursions over payload, pulse list, symbol and streams, each equal to its
clear form in Safety.lean whenever what it reads lies inside the image. -/

namespace Sys2Proof.Machine

open Sys2Proof

/-! ### Payload (R162, R165) -/

theorem payloadBits_succ (m : Memory) (ptr n k : Nat) :
    payloadBits m ptr (n + 1) k =
      leadingBits ((m.read ptr).getD 0) (if n = 0 then k else 8) ++ payloadBits m (ptr + 1) n k := by
  simp only [payloadBits, List.range_succ_eq_map, List.flatMap_cons, List.flatMap_map]
  have h0 : (0 + 1 = n + 1) = (n = 0) := by simp
  simp only [Nat.add_zero, h0]
  congr 2
  funext i
  simp [show ptr + Nat.succ i = ptr + 1 + i by omega]

/-- A payload inside the image gives every bit of it, in order. -/
theorem payload_eq (m : Memory) (f : Bool → List Command) (k n : Nat) :
    ∀ ptr, ptr + n ≤ m.len → payload m f k ptr n = Emission.all ((payloadBits m ptr n k).flatMap f) := by
  induction n with
  | zero => intro ptr _; rfl
  | succ n ih =>
    intro ptr h
    obtain ⟨v, hv⟩ := exists_read (m := m) (a := ptr) (by omega)
    rw [payloadBits_succ]
    simp [payload, hv, ih (ptr + 1) (by omega)]

/-- A payload stops only at the end of the image. -/
theorem payload_stop {m : Memory} {f : Bool → List Command} {k n : Nat} {w : Stop} :
    ∀ {ptr}, (payload m f k ptr n).stop = some w → w = .truncated ∧ m.len < ptr + n := by
  induction n with
  | zero => intro ptr h; simp [payload] at h
  | succ n ih =>
    intro ptr h
    unfold payload at h
    cases hv : m.read ptr with
    | none =>
      have := (read_eq_none m ptr).1 hv
      simp [hv] at h
      exact ⟨h.symm, by omega⟩
    | some v =>
      simp only [hv, all_seq] at h
      obtain ⟨h1, h2⟩ := ih h
      exact ⟨h1, by omega⟩

@[simp] theorem leadingBits_length (v : Byte) (k : Nat) : (leadingBits v k).length = k := by
  simp [leadingBits]

/-- The number of data bits (R165). -/
theorem payloadBits_length (m : Memory) (k : Nat) (n : Nat) (hk : k ≤ 8) :
    ∀ ptr, (payloadBits m ptr n k).length = dataBitCount n k := by
  induction n with
  | zero => intro ptr; simp [payloadBits, dataBitCount]
  | succ n ih =>
    intro ptr
    rw [payloadBits_succ, List.length_append, ih, leadingBits_length]
    unfold dataBitCount
    split <;> split <;> simp <;> omega

/-! ### Listed pulses (R173) -/

/-- A pulse list inside the image is replayed whole. -/
theorem listedPulses_eq (m : Memory) (w n : Nat) :
    ∀ a, a + w * n ≤ m.len → listedPulses m w a n =
      Emission.all ((List.range n).flatMap fun i => pulse ((m.word 16 (a + w * i) w).getD 0)) := by
  induction n with
  | zero => intro a _; rfl
  | succ n ih =>
    intro a h
    rw [Nat.mul_succ] at h
    obtain ⟨d, hd⟩ := exists_word (m := m) (n := 16) (a := a) (w := w) (by omega)
    simp only [listedPulses, hd, ih (a + w) (by omega), all_seq_all, List.range_succ_eq_map,
      List.flatMap_cons, List.flatMap_map, Nat.mul_zero, Nat.add_zero, Option.getD_some]
    congr 3
    funext i
    rw [show a + w * Nat.succ i = a + w + w * i by rw [Nat.mul_succ]; omega]

/-- A pulse list stops only at the end of the image. -/
theorem listedPulses_stop {m : Memory} {w n : Nat} {r : Stop} :
    ∀ {a}, (listedPulses m w a n).stop = some r → r = .truncated ∧ m.len < a + w * n := by
  induction n with
  | zero => intro a h; simp [listedPulses] at h
  | succ n ih =>
    intro a h
    unfold listedPulses at h
    rw [Nat.mul_succ]
    cases hv : m.word 16 a w with
    | none =>
      have h' := word_none hv
      simp [hv] at h
      exact ⟨h.symm, by omega⟩
    | some v =>
      simp only [hv, all_seq] at h
      obtain ⟨h1, h2⟩ := ih h
      exact ⟨h1, by omega⟩

/-! ### One symbol (R203) -/

/-- Stored durations inside the image: a pulse for each before the first zero. -/
theorem symbolPulses_eq (m : Memory) (w n : Nat) :
    ∀ a, a + w * n ≤ m.len → symbolPulses m w a n =
      Emission.all ((((List.range n).map fun i => (m.word 16 (a + w * i) w).getD 0).takeWhile
        fun d => decide (d ≠ 0)).flatMap pulse) := by
  induction n with
  | zero => intro a _; rfl
  | succ n ih =>
    intro a h
    rw [Nat.mul_succ] at h
    obtain ⟨d, hd⟩ := exists_word (m := m) (n := 16) (a := a) (w := w) (by omega)
    have hmap : ((List.range n).map Nat.succ).map (fun i => (m.word 16 (a + w * i) w).getD 0) =
        (List.range n).map fun i => (m.word 16 (a + w + w * i) w).getD 0 := by
      rw [List.map_map]
      congr 1
      funext i
      simp [show a + w * (i + 1) = a + w + w * i by rw [Nat.mul_succ]; omega]
    simp only [List.range_succ_eq_map, List.map_cons, hmap, symbolPulses, hd, Nat.mul_zero,
      Nat.add_zero, Option.getD_some]
    by_cases h0 : d = 0
    · simp [h0]
    · rw [if_neg h0, ih (a + w) (by omega), List.takeWhile_cons_of_pos (by simpa using h0)]
      rfl

/-- Stored durations stop only at the end of the image. -/
theorem symbolPulses_stop {m : Memory} {w n : Nat} {r : Stop} :
    ∀ {a}, (symbolPulses m w a n).stop = some r → r = .truncated ∧ m.len < a + w * n := by
  induction n with
  | zero => intro a h; simp [symbolPulses] at h
  | succ n ih =>
    intro a h
    unfold symbolPulses at h
    rw [Nat.mul_succ]
    cases hv : m.word 16 a w with
    | none =>
      have h' := word_none hv
      simp [hv] at h
      exact ⟨h.symm, by omega⟩
    | some v =>
      simp only [hv] at h
      split at h
      · simp at h
      · simp only [all_seq] at h
        obtain ⟨h1, h2⟩ := ih h
        exact ⟨h1, by omega⟩

/-- A symbol of its alphabet whose definition lies in the image and whose flags byte has a meaning plays
its commands. -/
theorem symbol_eq {Y : SymbolLayout} {m : Memory} {tab maxp asz idx : Nat}
    (hp : symbolPlays Y m tab maxp asz idx = true)
    (hf : tab + idx * symbolSize Y maxp + Y.flags.off + Y.flags.width ≤ m.len)
    (hd : tab + idx * symbolSize Y maxp + Y.durations.off + Y.durations.width * maxp ≤ m.len) :
    symbol Y m tab maxp asz idx = Emission.all (symbolCommands Y m tab maxp idx) := by
  obtain ⟨v, hv⟩ := exists_field (n := 8) hf
  simp only [symbolPlays, symbolFlags, hv, Option.getD_some, Bool.and_eq_true, decide_eq_true_eq] at hp
  obtain ⟨hi, hs⟩ := hp
  obtain ⟨cs, hcs⟩ := Option.isSome_iff_exists.1 hs
  unfold symbol
  rw [if_neg (by omega)]
  simp [hv, hcs, symbolPulses_eq m _ maxp _ hd, symbolCommands, symbolFlags, symbolDurations]

/-! ### The streams (R205, R206) -/

/-- A run-length table inside the image whose replayed symbols all play is replayed whole. -/
theorem replayRle_eq (L : Layout) (m : Memory) (tab maxp asz : Nat)
    (hsym : ∀ idx, symbolPlays L.symbol m tab maxp asz idx = true →
      symbol L.symbol m tab maxp asz idx = Emission.all (symbolCommands L.symbol m tab maxp idx)) (n : Nat) :
    ∀ a,
    (∀ r, r < n → a + L.rle.size * r + L.rle.symbolIndex.off + L.rle.symbolIndex.width ≤ m.len) →
    (∀ r, r < n → a + L.rle.size * r + L.rle.repeatCount.off + L.rle.repeatCount.width ≤ m.len) →
    (∀ r, r < n → rleRepeat L m a r ≠ 0 → symbolPlays L.symbol m tab maxp asz (rleSymbol L m a r) = true) →
    replayRle L m tab maxp asz a n = Emission.all (rleCommands L m tab maxp a n) := by
  induction n with
  | zero => intro a _ _ _; rfl
  | succ n ih =>
    intro a h1 h2 h3
    have hshift : ∀ r, a + L.rle.size * (r + 1) = a + L.rle.size + L.rle.size * r := by
      intro r; rw [Nat.mul_succ]; omega
    have hidx : ∀ r, rleSymbol L m a (r + 1) = rleSymbol L m (a + L.rle.size) r := by
      intro r; simp [rleSymbol, hshift]
    have hrep : ∀ r, rleRepeat L m a (r + 1) = rleRepeat L m (a + L.rle.size) r := by
      intro r; simp [rleRepeat, hshift]
    have hrest := ih (a + L.rle.size)
      (fun r hr => by have := h1 (r + 1) (by omega); rw [hshift] at this; omega)
      (fun r hr => by have := h2 (r + 1) (by omega); rw [hshift] at this; omega)
      (fun r hr hne => by have := h3 (r + 1) (by omega); rw [hrep, hidx] at this; exact this hne)
    obtain ⟨si, hsi⟩ := exists_field (m := m) (n := 8) (b := a) (f := L.rle.symbolIndex) (by simpa using h1 0 (by omega))
    obtain ⟨rc, hrc⟩ := exists_field (m := m) (n := 16) (b := a) (f := L.rle.repeatCount) (by simpa using h2 0 (by omega))
    have hi0 : rleSymbol L m a 0 = si.toNat := by simp [rleSymbol, hsi]
    have hr0 : rleRepeat L m a 0 = rc.toNat := by simp [rleRepeat, hrc]
    have hhead : Emission.times rc.toNat (symbol L.symbol m tab maxp asz si.toNat) =
        Emission.all (List.replicate rc.toNat (symbolCommands L.symbol m tab maxp si.toNat)).flatten := by
      by_cases h0 : rc.toNat = 0
      · simp [h0, Emission.times]
      · rw [hsym _ (by have := h3 0 (by omega); rw [hr0, hi0] at this; exact this h0), times_all]
    simp only [replayRle, hsi, hrc, hhead, hrest, all_seq_all, rleCommands, List.range_succ_eq_map,
      List.flatMap_cons, List.flatMap_map, hi0, hr0, Nat.succ_eq_add_one, hidx, hrep]

/-- Stream bits inside the image are all read. -/
theorem streamBits_eq (m : Memory) (str n : Nat) :
    ∀ q, (∀ k, k < n → str + (q + k) / 8 < m.len) →
      streamBits m str q n = some ((List.range n).map fun k => (streamBit m str (q + k)).getD false) := by
  induction n with
  | zero => intro q _; rfl
  | succ n ih =>
    intro q h
    obtain ⟨v, hv⟩ := exists_read (m := m) (a := str + q / 8) (by simpa using h 0 (by omega))
    have hrest := ih (q + 1) (fun k hk => by have := h (k + 1) (by omega); rw [show q + 1 + k = q + (k + 1) by omega]; exact this)
    have hmap : ((List.range n).map Nat.succ).map (fun k => (streamBit m str (q + k)).getD false) =
        (List.range n).map fun k => (streamBit m str (q + 1 + k)).getD false := by
      rw [List.map_map]
      congr 1
      funext k
      simp [show q + (k + 1) = q + 1 + k by omega]
    have hb : streamBit m str q = some (v.getLsbD (7 - q % 8)) := by simp [streamBit, hv]
    simp only [streamBits, hrest, hb, List.range_succ_eq_map, List.map_cons, hmap, Nat.add_zero, Option.getD_some]

theorem foldl_bits (bits : List Bool) : ∀ i,
    bits.foldl (fun i v => 2 * i + v.toNat) i = i * 2 ^ bits.length + bits.foldl (fun i v => 2 * i + v.toNat) 0 := by
  induction bits with
  | nil => intro i; simp
  | cons v vs ih =>
    intro i
    simp only [List.foldl_cons, List.length_cons]
    rw [ih, ih (2 * 0 + v.toNat)]
    ring

/-- A packed index is its bits weighed by place (R92). -/
theorem indexOfBits_range (msbFirst : Bool) (f : Nat → Bool) (n : Nat) :
    indexOfBits msbFirst ((List.range n).map f) =
      ((List.range n).map fun k => (f k).toNat * 2 ^ (if msbFirst then n - 1 - k else k)).sum := by
  cases msbFirst with
  | true =>
    simp only [indexOfBits, if_true]
    induction n with
    | zero => rfl
    | succ n ih =>
      rw [List.range_succ, List.map_append, List.foldl_append, ih, List.map_append, List.sum_append]
      have hpow : ∀ k ∈ List.range n, (f k).toNat * 2 ^ (n + 1 - 1 - k) = 2 * ((f k).toNat * 2 ^ (n - 1 - k)) := by
        intro k hk
        have : k < n := List.mem_range.1 hk
        rw [show n + 1 - 1 - k = (n - 1 - k) + 1 by omega, Nat.pow_succ]
        ring
      rw [List.map_congr_left hpow, List.sum_map_mul_left]
      simp
  | false =>
    simp only [indexOfBits, Bool.false_eq_true, if_false]
    induction n generalizing f with
    | zero => rfl
    | succ n ih =>
      rw [List.range_succ_eq_map, List.map_cons, List.foldr_cons, List.map_map, ih, List.map_cons,
        List.sum_cons, List.map_map]
      have hpow : ∀ k ∈ List.range n, ((f (k + 1)).toNat * 2 ^ (k + 1)) = 2 * ((f (k + 1)).toNat * 2 ^ k) := by
        intro k _
        rw [Nat.pow_succ]
        ring
      have := List.map_congr_left hpow
      simp only [Function.comp_def, Nat.succ_eq_add_one]
      rw [this, List.sum_map_mul_left]
      simp

/-- A packed stream inside the image whose symbols all play is replayed whole, and `G.bitpos` ends
behind it. -/
theorem replayData_eq (L : Layout) (msbFirst : Bool) (m : Memory) (tab maxp asz nb str : Nat)
    (hsym : ∀ idx, symbolPlays L.symbol m tab maxp asz idx = true →
      symbol L.symbol m tab maxp asz idx = Emission.all (symbolCommands L.symbol m tab maxp idx)) (n : Nat) :
    ∀ i,
    (∀ k, k < (i + n) * nb → str + k / 8 < m.len) →
    (∀ j, j < n → symbolPlays L.symbol m tab maxp asz (packedIndex msbFirst m str nb (i + j)) = true) →
    replayData L msbFirst m tab maxp asz nb str (i * nb) n =
      { out := Emission.all ((List.range n).flatMap fun j =>
          symbolCommands L.symbol m tab maxp (packedIndex msbFirst m str nb (i + j)))
        bitpos := (i + n) * nb } := by
  induction n with
  | zero => intro i _ _; rfl
  | succ n ih =>
    intro i h1 h2
    have hbits := streamBits_eq m str nb (i * nb) (fun k hk => h1 _ (by
      have : (i + 1) * nb ≤ (i + (n + 1)) * nb := Nat.mul_le_mul_right _ (by omega)
      rw [Nat.succ_mul] at this; omega))
    have hidx : indexOfBits msbFirst ((List.range nb).map fun k => (streamBit m str (i * nb + k)).getD false) =
        packedIndex msbFirst m str nb i := indexOfBits_range _ _ _
    have hhead := hsym _ (by simpa using h2 0 (by omega))
    have hrest := ih (i + 1) (fun k hk => h1 k (by rwa [show i + (n + 1) = i + 1 + n by omega]))
      (fun j hj => by have := h2 (j + 1) (by omega); rwa [show i + (j + 1) = i + 1 + j by omega] at this)
    rw [Nat.succ_mul] at hrest
    simp only [replayData, hbits, hidx, hhead, hrest, all_stop, all_seq_all, List.range_succ_eq_map,
      List.flatMap_cons, List.flatMap_map, Nat.add_zero]
    have hlast : i + 1 + n = i + (n + 1) := by omega
    have htail : (fun j => symbolCommands L.symbol m tab maxp (packedIndex msbFirst m str nb (i + Nat.succ j))) =
        fun j => symbolCommands L.symbol m tab maxp (packedIndex msbFirst m str nb (i + 1 + j)) := by
      funext j
      rw [show i + Nat.succ j = i + 1 + j by omega]
    rw [htail, hlast]

/-! ### Streams in parts, and symbols that end the session (R205, R206, R210, R211) -/

/-- A run-length table is replayed as its first entries, then the rest. -/
theorem replayRle_add (L : Layout) (m : Memory) (tab maxp asz k : Nat) : ∀ a n,
    replayRle L m tab maxp asz a (k + n) =
      (replayRle L m tab maxp asz a k).seq (replayRle L m tab maxp asz (a + L.rle.size * k) n) := by
  induction k with
  | zero => intro a n; simp [replayRle, all_seq]
  | succ k ih =>
    intro a n
    rw [show k + 1 + n = (k + n) + 1 by omega]
    simp only [replayRle]
    split
    · simp
    · split
      · simp
      · rename_i reps _
        rw [ih, show a + L.rle.size * (k + 1) = a + L.rle.size + L.rle.size * k by rw [Nat.mul_succ]; omega]
        generalize Emission.times reps.toNat (symbol L.symbol m tab maxp asz _) = A
        unfold Emission.seq
        cases hA : A.stop with
        | some w => simp [hA]
        | none => cases hB : (replayRle L m tab maxp asz (a + L.rle.size) k).stop <;> simp [hB]

/-- A packed stream whose first symbols all play is replayed as those, then the rest. -/
theorem replayData_add (L : Layout) (msbFirst : Bool) (m : Memory) (tab maxp asz nb str k : Nat) : ∀ q n,
    (replayData L msbFirst m tab maxp asz nb str q k).out.stop = none →
    (replayData L msbFirst m tab maxp asz nb str q (k + n)).out =
      (replayData L msbFirst m tab maxp asz nb str q k).out.seq
        (replayData L msbFirst m tab maxp asz nb str (q + k * nb) n).out := by
  induction k with
  | zero => intro q n _; simp [replayData, all_seq]
  | succ k ih =>
    intro q n h
    rw [show k + 1 + n = (k + n) + 1 by omega]
    simp only [replayData] at h ⊢
    split at h
    · simp at h
    · split at h
      · rename_i h2; simp [h2] at h
      · rename_i h2
        simp only [seq_stop_none] at h
        simp only
        rw [ih _ _ h.2, show q + (k + 1) * nb = q + nb + k * nb by rw [Nat.succ_mul]; omega]
        generalize symbol L.symbol m tab maxp asz _ = A at *
        simp [Emission.seq, h2, h.2]

/-- A symbol index at or beyond the alphabet size is refused (R210). -/
theorem symbol_of_range {Y : SymbolLayout} {m : Memory} {tab maxp asz idx : Nat} (h : asz ≤ idx) :
    symbol Y m tab maxp asz idx = Emission.halt (.refuse .symbolIndexRange) := by
  simp [symbol, h]

/-- A symbol whose flags byte has no meaning is refused (R211). -/
theorem symbol_of_flags {Y : SymbolLayout} {m : Memory} {tab maxp asz idx : Nat} (h : idx < asz)
    (hf : tab + idx * symbolSize Y maxp + Y.flags.off + Y.flags.width ≤ m.len)
    (hp : polarity Y (symbolFlags Y m tab maxp idx) = none) :
    symbol Y m tab maxp asz idx = Emission.halt (.refuse .symbolFlagsRange) := by
  obtain ⟨v, hv⟩ := exists_field (n := 8) hf
  rw [symbolFlags, hv] at hp
  unfold symbol
  rw [if_neg (by omega)]
  simp only [hv]
  rw [show polarity Y v = none from hp]

end Sys2Proof.Machine
end

