-- ==== Sys2Proof/Tests/Slice0.lean ====
section
/-! SUPPORT. The model's own tests. Expected values come from the spec: words from the layouts of
spec/30_encoding.md, traces and totals from spec/95_test_vectors.md (the vector is named in the test's
comment). The witnesses at the end show that the hypotheses of every obligation can be met. -/

namespace Sys2Proof.Tests

set_option Elab.async false

open Sys2Proof Sys2Proof.Machine

/-! ### Helpers -/

/-- `HDR` of the test vectors. -/
def hdr : List Byte := [0x5A, 0x58, 0x54, 0x61, 0x70, 0x65, 0x21, 0x1A, 0x01, 0x14]

/-- A TZX session over `HDR` and the given bytes, indexed, past its prologue, at block `cur`. -/
def tape (bs : List Byte) (cur : Nat) : State :=
  let m := Memory.ofBytes (hdr ++ bs)
  { State.begin { kind := .tzx, img := m, params := defaultParams } .low with
    phase := .running, pos := m.len, cur := cur, bt := tableFrom defaultLayout m 10 m.len
    trace := [.setLevelLow] }

/-- A TAP session past its prologue, at offset `pos`. -/
def tapTape (bs : List Byte) (pos : Nat) : State :=
  { State.begin { kind := .tap, img := Memory.ofBytes bs, params := defaultParams } .low with
    phase := .running, pos := pos, trace := [.setLevelLow] }

/-- A session over the given bytes that has just begun. -/
def idle (k : Kind) (bs : List Byte) : State :=
  State.begin { kind := k, img := Memory.ofBytes bs, params := defaultParams } .low

/-- A TZX session that is indexing at `pos`. -/
def indexing (bs : List Byte) (pos : Nat) : State :=
  { idle .tzx (hdr ++ bs) with phase := .indexing, pos := pos }

/-- The next state of a step, if there is one. -/
def next? (r : Result) : Option State :=
  match r with
  | .next t => some t
  | .fault _ => none
  | .refused _ => none

theorem next_of_isSome {r : Result} (h : (next? r).isSome = true) : r = .next ((next? r).get h) := by
  cases r with
  | next t => rfl
  | fault f => cases h
  | refused f => cases h

/-- One step's trace, cursor and phase. -/
def played (s : State) : Option (List Command × Nat × Phase) :=
  (next? (step s)).map fun t => (t.trace, t.cur, t.phase)

abbrev L : Command := .setLevelLow
abbrev H : Command := .setLevelHigh
abbrev T : Command := .toggleLevel
abbrev M : Command := .advanceOneMillisecond
abbrev A (n : Nat) : Command := .advance (BitVec.ofNat 64 n)

/-- What the decoder reads at the start of the given bytes is `i`, and `i` is spelled by them. -/
def spells (bs : List Byte) (i : Instr) : Prop :=
  decode i.kind defaultLayout (Memory.ofBytes bs) 0 = .ok i ∧ encode i = bs

/-! ### Well-formedness: the three checks refuse -/

/-- The fallback is not for a type byte that has a row. -/
theorem test_unknown_with_a_row_is_ill_formed : (Instr.unknown 0x10 0).wellFormed defaultLayout = false := by decide

/-- An instruction whose row the layout lacks is ill-formed. -/
theorem test_row_outside_layout_is_ill_formed :
    (Instr.tone 1 1).wellFormed { defaultLayout with rows := [] } = false := by decide

/-- `STD` has a pause field under the default layout (R161), and none where a layout leaves it out. -/
theorem test_operand_and_field_agree :
    (Instr.std none 1).wellFormed defaultLayout = false ∧
    (Instr.std (some 1) 1).wellFormed { defaultLayout with std := { defaultLayout.std with pause := none } } = false := by
  decide

/-! ### Decoding: one word written out for every constructor (R72 to R91, R95) -/

theorem test_decode_std : spells [0x10, 0xE8, 0x03, 0x02, 0x01] (.std (some 1000) 258) := by unfold spells; decide
theorem test_decode_turbo : spells [0x11, 0xE8, 0x03, 0x2C, 0x01, 0x01, 0x00, 0x64, 0x00, 0xC8, 0x00, 0x02, 0x00, 0x03,
    0x05, 0x00, 0x01, 0x02, 0x03] (.turbo 1000 300 1 100 200 2 3 (some 5) 0x030201) := by unfold spells; decide
theorem test_decode_tone : spells [0x12, 0x64, 0x00, 0x03, 0x01] (.tone 100 259) := by unfold spells; decide
theorem test_decode_pulses : spells [0x13, 0x03] (.pulses 3) := by unfold spells; decide
theorem test_decode_pdata : spells [0x14, 0x64, 0x00, 0xC8, 0x00, 0x08, 0x07, 0x00, 0x01, 0x02, 0x03]
    (.pdata 100 200 8 (some 7) 0x030201) := by unfold spells; decide
theorem test_decode_direct : spells [0x15, 0x4F, 0x00, 0x07, 0x00, 0x04, 0x01, 0x02, 0x03]
    (.direct 79 (some 7) (some 4) 0x030201) := by unfold spells; decide
theorem test_decode_c64rom : spells [0x16, 0x01, 0x02, 0x03, 0x04] (.c64rom 0x04030201) := by unfold spells; decide
theorem test_decode_c64turbo : spells [0x17, 0x01, 0x02, 0x03, 0x04] (.c64turbo 0x04030201) := by unfold spells; decide
theorem test_decode_csw : spells [0x18, 0x01, 0x02, 0x03, 0x04] (.csw 0x04030201) := by unfold spells; decide
theorem test_decode_gdb : spells [0x19, 0x29, 0x00, 0x00, 0x00, 0x01, 0x00, 0x02, 0x00, 0x00, 0x00, 0x03, 0x04, 0x08,
    0x00, 0x00, 0x00, 0x05, 0x06] (.gdb 41 (some 1) 2 3 4 8 5 6) := by unfold spells; decide
theorem test_decode_pause : spells [0x20, 0xFF, 0xFE] (.pause 0xFEFF) := by unfold spells; decide
theorem test_decode_grps : spells [0x21, 0x05] (.grps 5) := by unfold spells; decide
theorem test_decode_grpe : spells [0x22] .grpe := by unfold spells; decide
theorem test_decode_jump : spells [0x23, 0xFE, 0xFF] (.jump 0xFFFE) := by unfold spells; decide
theorem test_decode_loops : spells [0x24, 0x02, 0x00] (.loops 2) := by unfold spells; decide
theorem test_decode_loope : spells [0x25] .loope := by unfold spells; decide
theorem test_decode_callseq : spells [0x26, 0x02, 0x01] (.callseq 0x0102) := by unfold spells; decide
theorem test_decode_ret : spells [0x27] .ret := by unfold spells; decide
theorem test_decode_select : spells [0x28, 0x02, 0x01] (.select 0x0102) := by unfold spells; decide
theorem test_decode_stop48 : spells [0x2A, 0x00, 0x00, 0x00, 0x00] (.stop48 0) := by unfold spells; decide
theorem test_decode_setlvl : spells [0x2B, 0x01, 0x00, 0x00, 0x00] (.setlvl 1) := by unfold spells; decide
theorem test_decode_text : spells [0x30, 0x03] (.text 3) := by unfold spells; decide
theorem test_decode_msg : spells [0x31, 0x05, 0x03] (.msg 5 3) := by unfold spells; decide
theorem test_decode_archive : spells [0x32, 0x02, 0x01] (.archive 0x0102) := by unfold spells; decide
theorem test_decode_hwtype : spells [0x33, 0x02] (.hwtype 2) := by unfold spells; decide
theorem test_decode_emuinfo : spells [0x34, 0, 0, 0, 0, 0, 0, 0, 0] .emuinfo := by unfold spells; decide
theorem test_decode_custom : spells [0x35, 1, 2, 3, 4, 5, 6, 7, 8, 9, 10, 11, 12, 13, 14, 15, 16, 0x02, 0x01, 0x00, 0x00]
    (.custom 0x100F0E0D0C0B0A090807060504030201 0x0102) := by unfold spells; decide
theorem test_decode_snap : spells [0x40, 0x01, 0x02, 0x03, 0x04] (.snap 1 0x040302) := by unfold spells; decide
theorem test_decode_glue : spells [0x5A, 0, 0, 0, 0, 0, 0, 0, 0, 0] .glue := by unfold spells; decide
theorem test_decode_unknown : spells [0x99, 0x02, 0x00, 0x00, 0x00] (.unknown 0x99 2) := by unfold spells; decide
theorem test_decode_taprec : spells [0x04, 0x01] (.taprec 260) := by unfold spells; decide

/-- A field that lies outside the image gives no instruction (R56). -/
theorem test_decode_outside_image :
    decode .tzx defaultLayout (Memory.ofBytes [0x20, 0x01]) 0 = .error .outsideImage := by decide

/-! ### The host's table words -/

theorem test_table_word_pause : decodeTableWord 24 0x000220 = some (.pause 2) := by decide
theorem test_table_word_record : decodeTableWord 0 0 = some (.taprec 0) := by decide

/-- The word placed at the fetch is the next step's instruction. -/
theorem test_fetch_word_runs :
    (next? (step (State.reset.withFetchWord 24 0x000224))).map (fun t => t.loop.cnt) = some 2 := by decide +kernel

/-- A block longer than the word is whole in the image: its unlisted bytes read as zeros. -/
theorem test_fetch_word_is_whole :
    (next? (step (State.reset.withFetchWord 40 0x0100000099))).map (fun t => (t.cur, t.phase)) =
      some (1, .running) := by decide +kernel

/-! ### Layout as data (R8, G1 to G4) -/

/-- The same session under another layout. -/
def underLayout (s : State) (L : Layout) : State :=
  { s with input := { s.input with params := { s.params with layout := L } } }

/-- A layout that gives `TONE` a pause field of one byte. -/
def pausedTone : State := underLayout (tape [0x12, 0x64, 0x00, 0x01, 0x00, 0x02] 0)
  { defaultLayout with rows := [⟨0x12, .tone, .fixed 5⟩], tone := { defaultLayout.tone with pause := some ⟨4, 1⟩ } }

theorem test_tone_with_a_pause_field : played pausedTone = some ([L, A 100, T, L, M, M], 1, .running) := by
  decide +kernel

/-- A layout with the data tables in front: 3 bytes of definitions and 1 of stream precede the pilot's. -/
theorem test_table_order :
    let L := { defaultLayout with gdb := { defaultLayout.gdb with
      order := [.dataSymbols, .dataStream, .pilotSymbols, .pilotRuns] } }
    gdbTables L { SymbolRegs.reset with totp := 2, npp := 2, asp := 1, totd := 5, npd := 1, asd := 1, nb := 1 } 100 =
      { symD := 100, str := 103, symP := 104, rle := 109, stop := 115 } := by decide

/-- R202 under a layout whose order leaves the data stream out: its end counts for the extent check. -/
theorem test_extent_of_unlisted_table :
    let L := { defaultLayout with gdb := { defaultLayout.gdb with order := [.pilotSymbols, .pilotRuns, .dataSymbols] } }
    let t := gdbTables L { SymbolRegs.reset with totd := 17, npd := 1, asd := 1, nb := 1 } 100
    t.str = 103 ∧ t.stop = 106 := by decide

/-- A layout whose packed stream fills whole 16-bit words: 17 bits take 4 bytes, 3 under the default. -/
theorem test_stream_length :
    let L := { defaultLayout with gdb := { defaultLayout.gdb with stream := { base := 0, scale := 2, unit := 16 } } }
    let g := { SymbolRegs.reset with totd := 17, npd := 1, asd := 1, nb := 1 }
    (gdbTables L g 100).stop = 107 ∧ (gdbTables defaultLayout g 100).stop = 106 := by decide

/-! ### Header check, indexer, TAP start (V2, V19, R128) -/

theorem test_too_small : (next? (step (idle .tzx (hdr.take 9)))).map (fun t => (t.err, t.trace)) =
    some (some (.tooSmall 9), []) := by decide +kernel
theorem test_bad_signature :
    (next? (step (idle .tzx [0x5A, 0x58, 0x54, 0x61, 0x70, 0x65, 0x3F, 0x1A, 0x01, 0x14, 0x25]))).map (fun t => t.err) =
      some (some .badSignature) := by decide +kernel
theorem test_unsupported_version :
    (next? (step (idle .tzx [0x5A, 0x58, 0x54, 0x61, 0x70, 0x65, 0x21, 0x1A, 0x02, 0x00, 0x25]))).map (fun t => t.err) =
      some (some (.unsupportedVersion 2)) := by decide +kernel
theorem test_header_only_is_empty :
    (next? (step (indexing [] 10))).map (fun t => t.err) = some (some .empty) := by decide +kernel

/-- R128: the second block of the spec's indexing example. -/
theorem test_index_step : (next? (step (indexing [0x25, 0x12, 0x64, 0x00, 0x03, 0x00] 11))).map
    (fun t => (t.bt, t.pos)) = some ([{ offset := 11, type := 0x12 }], 16) := by decide +kernel

/-- V16 (b): a size field outside the image ends the indexing at `LEN`. -/
theorem test_index_overrun : (next? (step (indexing [0x11, 0x00] 10))).map (fun t => t.pos) = some 12 := by
  decide +kernel

/-- V20 (d): an empty TAP image plays the framing alone. -/
theorem test_tap_start : played (idle .tap []) = some ([L], 0, .running) := by decide +kernel
theorem test_tap_end : played (tapTape [] 0) = some ([L, M], 0, .done) := by decide +kernel
theorem test_epilogue : played (tape [0x22] 1) = some ([L, M], 1, .done) := by decide +kernel

/-! ### Truncation (V16, V20) -/

theorem test_payload_overruns : (next? (step (tape [0x10, 0x00, 0x00, 0x05, 0x00, 0xFF] 0))).map
    (fun t => (t.err, t.trace)) = some (some (.truncatedBlock 10), [L]) := by decide +kernel
theorem test_skipped_block_is_checked : (next? (step (tape [0x30, 0x05, 0x41] 0))).map (fun t => t.err) =
    some (some (.truncatedBlock 10)) := by decide +kernel
theorem test_generalized_extent : (next? (step (tape [0x19, 0x15, 0x00, 0x00, 0x00, 0x00, 0x00, 0x00, 0x00, 0x00, 0x00,
      0x00, 0x00, 0x10, 0x00, 0x00, 0x00, 0x01, 0x02, 0x00, 0x0A, 0x00, 0x00, 0x14, 0x00, 0xFF] 0))).map
    (fun t => (t.err, t.trace)) = some (some (.truncatedBlock 10), [L]) := by decide +kernel
theorem test_lone_last_byte_of_tap : (next? (step (tapTape [0x01, 0x00, 0xFF, 0x07] 3))).map (fun t => t.err) =
    some (some (.truncatedBlock 3)) := by decide +kernel

/-! ### The signal blocks, one step each -/

/-- V22: a first byte 0x80 selects 3223 pilot pulses; 3241 toggles, 7007756 ticks. -/
theorem test_std_data_pilot : (next? (step (tape [0x10, 0x00, 0x00, 0x01, 0x00, 0x80] 0))).map
    (fun t => (togglesOf t.trace, t.sink.ticks)) = some (3241, 7007756) := by decide +kernel

/-- V18 (b). -/
theorem test_std_empty : played (tape [0x10, 0x00, 0x00, 0x00, 0x00] 0) = some ([L], 0, .refused) := by decide +kernel

/-- V8. -/
theorem test_turbo : played (tape [0x11, 0xE8, 0x03, 0x2C, 0x01, 0x00, 0x00, 0x64, 0x00, 0xC8, 0x00, 0x02, 0x00, 0x03,
      0x02, 0x00, 0x01, 0x00, 0x00, 0xA0] 0) =
    some ([L, A 1000, T, A 1000, T, A 300, T, A 200, T, A 200, T, A 100, T, A 100, T, A 200, T, A 200, T, L, M, M],
      1, .running) := by decide +kernel

/-- V9. -/
theorem test_pdata : played (tape [0x14, 0x64, 0x00, 0xC8, 0x00, 0x08, 0x00, 0x00, 0x01, 0x00, 0x00, 0x80] 0) =
    some ([L, A 200, T, A 200, T] ++ (List.replicate 7 [A 100, T, A 100, T]).flatten ++ [L, M], 1, .running) := by
  decide +kernel

/-- V18 (a). -/
theorem test_pdata_used_bits : played (tape [0x14, 0x01, 0x00, 0x02, 0x00, 0x09, 0x00, 0x00, 0x01, 0x00, 0x00, 0xFF] 0) =
    some ([L], 0, .refused) := by decide +kernel

/-- V11 (b). -/
theorem test_tone : played (tape [0x12, 0x00, 0x00, 0x02, 0x00] 0) = some ([L, A 0, T, A 0, T], 1, .running) := by
  decide +kernel

/-- V11 (a). -/
theorem test_pulses : played (tape [0x13, 0x03, 0x64, 0x00, 0x00, 0x00, 0xC8, 0x00] 0) =
    some ([L, A 100, T, A 0, T, A 200, T], 1, .running) := by decide +kernel

/-- R161: a block without a pause clears `P.hasPause`, one with a pause sets it. -/
theorem test_pulses_has_no_pause :
    (next? (step { tape [0x13, 0x00] 0 with p := { PulseRegs.reset with hasPause := true } })).map
      (fun t => (t.p.hasPause, t.trace)) = some (false, [L]) := by decide +kernel

/-- V10. -/
theorem test_direct : played (tape [0x15, 0x4F, 0x00, 0x00, 0x00, 0x04, 0x01, 0x00, 0x00, 0xA0] 0) =
    some ([L, H, A 79, L, A 79, H, A 79, L, A 79, L, M], 1, .running) := by decide +kernel

/-- V21: 2 ms. -/
theorem test_pause : played (tape [0x20, 0x02, 0x00] 0) = some ([L, L, M, M], 1, .running) := by decide +kernel

/-- V21: the stop-the-tape marker. -/
theorem test_pause_zero : (next? (step (tape [0x20, 0x00, 0x00] 0))).map (fun t => t.sink.ticks) = some 17500000 := by
  decide +kernel

/-- The tape of V13: all four polarities, 3-bit indexes across a byte boundary. -/
def polarityTape : State := tape [0x19, 0x1F, 0x00, 0x00, 0x00, 0x00, 0x00, 0x00, 0x00, 0x00, 0x00, 0x00, 0x00, 0x03,
  0x00, 0x00, 0x00, 0x01, 0x05, 0x00, 0x64, 0x00, 0x02, 0xC8, 0x00, 0x01, 0x2C, 0x01, 0x00, 0x90, 0x01, 0x03, 0xF4,
  0x01, 0x88, 0x80] 0

/-- V13: the indexes are 4, 2, 1. -/
theorem test_gdb : played polarityTape =
    some ([L, H, A 500, T, T, A 300, T, L, A 200, T, L, M], 1, .running) := by decide +kernel

/-- V13 with `SYM_INDEX_MSB_FIRST` false: the indexes are 1, 2, 4. -/
theorem test_gdb_lsb_first :
    let s := polarityTape
    let lsb := { s with input := { s.input with params := { s.params with symIndexMsbFirst := false } } }
    played lsb = some ([L, L, A 200, T, T, A 300, T, H, A 500, T, L, M], 1, .running) := by decide +kernel

/-- V18 (c): an index outside the alphabet, after a symbol that was played. -/
theorem test_gdb_index_range : played (tape [0x19, 0x18, 0x00, 0x00, 0x00, 0x00, 0x00, 0x00, 0x00, 0x00, 0x00, 0x00,
      0x00, 0x02, 0x00, 0x00, 0x00, 0x01, 0x03, 0x00, 0x0A, 0x00, 0x00, 0x14, 0x00, 0x00, 0x1E, 0x00, 0x70] 0) =
    some ([L, A 20, T], 0, .refused) := by decide +kernel

/-- V20 (c): the record before the lone last byte, 10516226 ticks. -/
theorem test_taprec : (next? (step (tapTape [0x01, 0x00, 0xFF, 0x07] 0))).map (fun t => (t.sink.ticks, t.pos)) =
    some (10516226, 3) := by decide +kernel

/-- V18 (e). -/
theorem test_taprec_empty : (next? (step (tapTape [0x00, 0x00] 0))).map (fun t => (t.trace, t.why)) =
    some ([L], some .emptyStandardBlock) := by decide +kernel

/-- R261: the refusal comes before any load. -/
theorem test_taprec_empty_loads_nothing :
    (next? (step (tapTape [0x00, 0x00] 0))).map (fun t => t.p) = some PulseRegs.reset := by decide +kernel

/-! ### Control and skipped blocks (V15, V17) -/

theorem test_loops : (next? (step (tape [0x24, 0x02, 0x00, 0x25] 0))).map (fun t => (t.loop, t.cur)) =
    some ({ cnt := 2, ret := 1, active := true }, 1) := by decide +kernel

/-- R151's example: count 2, return index 4, at block 6. -/
theorem test_loope_back : (next? (exec .loope { tape [] 6 with loop := { cnt := 2, ret := 4, active := true } })).map
    (fun t => (t.loop.cnt, t.cur)) = some (1, 4) := by decide +kernel

/-- V3: a loop end with no loop start. -/
theorem test_loope_alone : played (tape [0x25] 0) = some ([L], 1, .running) := by decide +kernel

theorem test_text : played (tape [0x30, 0x03, 0x41, 0x42, 0x43] 0) = some ([L], 1, .running) := by decide +kernel
theorem test_setlvl : played (tape [0x2B, 0x01, 0x00, 0x00, 0x00, 0x01] 0) = some ([L], 1, .running) := by
  decide +kernel

/-- R230: a layout whose `JUMP` has no body; the field it names lies outside the image and is not read. -/
def shortJump : State := underLayout (tape [0x23] 0) { defaultLayout with rows := [⟨0x23, .jump, .fixed 0⟩] }

theorem test_skip_reads_no_field : played shortJump = some ([L], 1, .running) := by decide +kernel

theorem test_unknown : (next? (step (tape [0x99, 0x02, 0x00, 0x00, 0x00, 0xAA, 0xBB] 0))).map (fun t => (t.cur, t.diag)) =
    some (1, [{ kind := .unsupportedBlock 0x99, blockIndex := 0 }]) := by decide +kernel

/-! ### The sink fold (V23) -/

theorem test_segments : segments .low [L, A 10, T, A 0, T, A 5, H, L, A 3, M] =
    [(.low, 10), (.high, 0), (.low, 5), (.low, 3), (.low, 3500)] := by decide
theorem test_ticks : ticksOf [L, A 10, T, A 0, T, A 5, H, L, A 3, M] = 3518 := by decide

/-! ### Witnesses: the hypotheses of every obligation that has some, met together

Each is named after its obligation; a number tells the clauses of one obligation apart. Clauses over a
range are met at its boundary values. -/

/-- A block table entry for the block at offset 10. -/
def at10 (t : Byte) : Entry := { offset := 10, type := t }

/-- A pause block of a given length, in a running session (R81). -/
def pauseTape : State := tape [0x20, 0x01, 0x00] 0

theorem witness_SessionStartValues :
    (idle .tzx []).input.kind = .tzx ∧ (idle .tap []).input.kind = .tap := by decide

theorem witness_SessionStartMeetsInvariant : (idle .tzx hdr).img.wf = true := by decide +kernel

theorem witness_StepKeepsInvariant : pauseTape.Inv ∧ (∃ t, step pauseTape = .next t) := by
  refine ⟨?_, _, next_of_isSome (by decide +kernel)⟩
  constructor
  case sinkIsFold => exact ⟨.low, by decide +kernel⟩
  all_goals decide +kernel

theorem witness_StepRunsTheDecodedBlock : let s := pauseTape
    s.phase = .running ∧ s.input.kind = .tzx ∧ s.bt[s.cur]? = some (at10 0x20) ∧
    bodySize s.layout s.img 0x20 11 = some 2 ∧ 10 + 1 + 2 = s.len ∧
    decodeBody s.layout s.img 0x20 11 = some (.pause 1) := by decide +kernel

theorem witness_StepRunsTheTapRecord : let s := tapTape [0x01, 0x00, 0xFF] 0
    s.phase = .running ∧ s.input.kind = .tap ∧ s.img.read16 s.pos = some 1 ∧ s.pos + 2 + 1 = s.len := by
  decide +kernel

/-- A block one byte longer than the image. -/
theorem witness_TruncationFailsAtDispatch_1 : let s := tape [0x30, 0x02, 0x41] 0
    s.phase = .running ∧ s.input.kind = .tzx ∧ s.bt[s.cur]? = some (at10 0x30) ∧
    bodySize s.layout s.img 0x30 11 = some 3 ∧ s.len < 10 + 1 + 3 := by decide +kernel

/-- A block whose fields lie outside the image. -/
theorem witness_TruncationFailsAtDispatch_2 : let s := tape [0x11, 0x00] 0
    s.phase = .running ∧ s.input.kind = .tzx ∧ s.bt[s.cur]? = some (at10 0x11) ∧
    s.layout.skips 0x11 = false ∧ decodeBody s.layout s.img 0x11 11 = none := by decide +kernel

/-- A record one byte longer than the image. -/
theorem witness_TruncationFailsAtDispatch_3 : let s := tapTape [0x02, 0x00, 0xFF] 0
    s.phase = .running ∧ s.input.kind = .tap ∧ s.pos < s.len ∧ s.img.read16 s.pos = some 2 ∧
    s.len < s.pos + 2 + 2 := by decide +kernel

/-- A record with half a prefix. -/
theorem witness_TruncationFailsAtDispatch_4 : let s := tapTape [0x01, 0x00, 0xFF, 0x07] 3
    s.phase = .running ∧ s.input.kind = .tap ∧ s.pos < s.len ∧ s.img.read16 s.pos = none := by decide +kernel

theorem witness_StepsKeepInputsAndOnlyAppend : ∃ t, step pauseTape = .next t :=
  ⟨_, next_of_isSome (by decide +kernel)⟩

theorem witness_StepsNeverReadTheSink :
    (∃ t, step pauseTape = .next t) ∧ step { pauseTape with phase := .done } = .fault .sessionEnded :=
  ⟨⟨_, next_of_isSome (by decide +kernel)⟩, rfl⟩

theorem witness_WholeSessionsAgreeForAnyTwoSinks : let s := idle .tap []
    (∃ t, Sys2Proof.core.run 2 s = .next t ∧ t.phase = .done) ∧ Sys2Proof.core.run 3 s = .fault .sessionEnded :=
  ⟨⟨_, next_of_isSome (r := Sys2Proof.core.run 2 (idle .tap [])) (by decide +kernel), by decide +kernel⟩, rfl⟩

theorem witness_StepIsARelationOverInputs :
    (∃ t : State, stepOver pauseTape.input pauseTape.toSession = .next t.toSession ∧ t.input = pauseTape.input) ∧
    stepOver pauseTape.input { pauseTape.toSession with phase := .done } = .fault .sessionEnded := by
  have h := next_of_isSome (r := step pauseTape) (by decide +kernel)
  exact ⟨⟨_, by rw [stepOver_eq, over_toSession, h], by decide +kernel⟩, rfl⟩

/-- `LEN` one below what 4 bits hold, a table entry in it; a TAP session at its end. -/
theorem witness_OffsetsFitTheirWidth :
    let s := { pauseTape with input := { pauseTape.input with params := { defaultParams with offsetWidth := 4 } } }
    let u := tapTape [0x00, 0x00] 2
    (s.Inv ∧ s.len < 2 ^ s.params.offsetWidth ∧ s.bt = [at10 0x20] ∧ ∃ t, step s = .next t) ∧
    (u.Inv ∧ u.len < 2 ^ u.params.offsetWidth ∧ u.input.kind = .tap) := by
  refine ⟨⟨?_, by decide +kernel, by decide +kernel, _, next_of_isSome (by decide +kernel)⟩, ?_, by decide +kernel,
    by decide +kernel⟩
  · constructor
    case sinkIsFold => exact ⟨.low, by decide +kernel⟩
    all_goals decide +kernel
  · constructor
    case sinkIsFold => exact ⟨.low, by decide +kernel⟩
    all_goals decide +kernel

theorem witness_FailingStepsEmitNothing : let s := tape [0x30, 0x05, 0x41] 0
    s.layout = defaultLayout ∧ s.phase.ended = false ∧ ∃ t, step s = .next t ∧ t.phase = .failed :=
  ⟨by decide +kernel, by decide +kernel, _, next_of_isSome (by decide +kernel), by decide +kernel⟩

theorem witness_HeaderChecksInOrder_1 : let s := idle .tzx (hdr.take 9)
    s.phase = .idle ∧ s.input.kind = .tzx ∧ s.len < 10 := by decide +kernel

/-- The last byte of the signature differs. -/
theorem witness_HeaderChecksInOrder_2 : let s := idle .tzx [0x5A, 0x58, 0x54, 0x61, 0x70, 0x65, 0x21, 0x1B, 0x01, 0x14]
    s.phase = .idle ∧ s.input.kind = .tzx ∧ 10 ≤ s.len ∧ s.img.read 7 ≠ some 0x1A := by decide +kernel

/-- The least unsupported major version, and the greatest supported one. -/
theorem witness_HeaderChecksInOrder_3 : ∀ major : Byte, major = 2 ∨ major = 1 →
    let s := idle .tzx [0x5A, 0x58, 0x54, 0x61, 0x70, 0x65, 0x21, 0x1A, major, 0x14]
    s.phase = .idle ∧ s.input.kind = .tzx ∧ 10 ≤ s.len ∧ s.img.read 8 = some major ∧
    (∀ k, k < 8 → s.img.read k = hdr[k]?) ∧
    (s.params.supportedMajor < major.toNat ↔ major = 2) := by
  rintro _ (rfl | rfl) <;> decide +kernel

theorem witness_IndexerRecordsOneBlock : let s := indexing [0x20, 0x01, 0x00] 10
    let u := indexing [0x11, 0x00] 10
    s.phase = .indexing ∧ s.img.read s.pos = some 0x20 ∧ bodySize s.layout s.img 0x20 (s.pos + 1) = some 2 ∧
    u.phase = .indexing ∧ u.img.read u.pos = some 0x11 ∧ bodySize u.layout u.img 0x11 (u.pos + 1) = none := by
  decide +kernel

theorem witness_IndexingEndsInEmptyOrPrologue : let s := indexing [] 10
    let u := { indexing [0x25] 11 with bt := [at10 0x25] }
    s.phase = .indexing ∧ s.len ≤ s.pos ∧ s.bt = [] ∧ u.phase = .indexing ∧ u.len ≤ u.pos ∧ u.bt ≠ [] := by
  decide +kernel

theorem witness_TapSessionStartsRunning : ∀ frame : Bool,
    let s := State.begin { kind := .tap, img := Memory.ofBytes [],
                           params := { defaultParams with tapPrologueEpilogue := frame } } .low
    s.phase = .idle ∧ s.input.kind = .tap ∧ s.params.tapPrologueEpilogue = frame := by decide +kernel

theorem witness_EpilogueEmitsOneMillisecond_1 : let s := tape [0x25] 1
    s.phase = .running ∧ s.input.kind = .tzx ∧ s.cur = s.bt.length := by decide +kernel

theorem witness_EpilogueEmitsOneMillisecond_2 : ∀ frame : Bool,
    let s := { State.begin { kind := .tap, img := Memory.ofBytes [0x01, 0x00, 0xFF],
                             params := { defaultParams with tapPrologueEpilogue := frame } } .low with
      phase := .running, pos := 3 }
    s.phase = .running ∧ s.input.kind = .tap ∧ s.len ≤ s.pos ∧ s.params.tapPrologueEpilogue = frame := by
  decide +kernel

theorem witness_LevelCommandsAndMillisecond : (State.begin Input.reset .low).sink.level = .low ∧
    (State.begin Input.reset .high).sink.level = .high := by decide

theorem witness_HostReadsBackTheTicks : let s := { State.reset with sink := { level := .low, ticks := 2 ^ 64 - 1 } }
    s.sink.ticks < 2 ^ 64 := by decide +kernel

theorem witness_LoopStartRecordsTheContext : ∀ bs : List Byte, bs = [0x24, 0x02, 0x00] ∨ bs = [0x24, 0x02] →
    let s := tape bs 0
    s.phase = .running ∧ s.input.kind = .tzx ∧ s.layout = defaultLayout ∧ s.bt[s.cur]? = some (at10 0x24) ∧
    (s.img.read16 11 = some 2 ↔ bs.length = 3) ∧ (s.len < 13 ↔ bs.length = 2) := by
  rintro _ (rfl | rfl) <;> decide +kernel

theorem witness_LoopEndGoesBackWhileCountLeft :
    let back := { tape [] 0 with loop := { cnt := 1, ret := 0, active := true } }
    let done := { tape [] 0 with loop := { cnt := 0, ret := 0, active := true } }
    let none := { tape [] 0 with loop := { cnt := 1, ret := 0, active := false } }
    (back.loop.active = true ∧ 0 < back.loop.cnt.toNat) ∧ done.loop.cnt = 0 ∧ none.loop.active = false := by decide

theorem witness_LoopBodyRunsCountPlusOneTimes : ∀ u : State, ((fun v : State => v.emit L) u).loop = u.loop :=
  fun _ => rfl

/-- First payload bytes on both sides of the threshold. -/
theorem witness_StandardBlockPlays : ∀ f : Byte, f = 0x7F ∨ f = 0x80 →
    let s := tape [0x10, 0x00, 0x00, 0x01, 0x00, f] 0
    s.bt[s.cur]? = some (at10 0x10) ∧ (1 : Half) ≠ 0 ∧ 10 + 1 + s.layout.std.data + 1 = s.len ∧
    s.img.read (10 + 1 + s.layout.std.data) = some f ∧ (f.toNat < s.params.flagThreshold ↔ f = 0x7F) := by
  rintro _ (rfl | rfl) <;> decide +kernel

theorem witness_TapRecordPlays : ∀ f : Byte, f = 0x7F ∨ f = 0x80 →
    let s := tapTape [0x01, 0x00, f] 0
    (1 : Half) ≠ 0 ∧ s.pos + 2 + 1 = s.len ∧ s.img.read (s.pos + 2) = some f ∧
    (f.toNat < s.params.flagThreshold ↔ f = 0x7F) := by
  rintro _ (rfl | rfl) <;> decide +kernel

theorem witness_EmptyStandardPayloadIsRefused : let s := tape [0x10, 0x00, 0x00, 0x00, 0x00] 0
    s.bt[s.cur]? = some (at10 0x10) := by decide +kernel

theorem witness_TapRecordEqualsStandardBlock : let s := tapTape [0x01, 0x00, 0xFF] 0
    let u := tape [0x10, 0xE8, 0x03, 0x01, 0x00, 0xFF] 0
    u.bt[u.cur]? = some (at10 0x10) ∧ (1 : Half) ≠ 0 ∧ s.params.flagThreshold = u.params.flagThreshold ∧
    s.pos + 2 + 1 ≤ s.len ∧
    ∀ k, k < 1 → s.img.read (s.pos + 2 + k) = u.img.read (10 + 1 + u.layout.std.data + k) := by decide +kernel

/-- Eight bits of the last byte, and no payload with a `usedBits` that is not looked at. -/
theorem witness_TurboBlockPlays : let s := tape [0x11, 0, 0, 0, 0, 0, 0, 0, 0, 0, 0, 0, 0, 8, 0, 0, 1, 0, 0, 0xFF] 0
    s.bt[s.cur]? = some (at10 0x11) ∧ 10 + 1 + s.layout.turbo.data + (1 : Word24).toNat ≤ s.len ∧
    (8 : Byte).toNat ≤ 8 ∧ 10 + 1 + s.layout.turbo.data + (0 : Word24).toNat ≤ s.len := by decide +kernel

theorem witness_PureDataBlockPlays : let s := tape [0x14, 1, 0, 2, 0, 8, 0, 0, 1, 0, 0, 0xFF] 0
    s.bt[s.cur]? = some (at10 0x14) ∧ 10 + 1 + s.layout.pdata.data + (1 : Word24).toNat ≤ s.len ∧
    (8 : Byte).toNat ≤ 8 ∧ 10 + 1 + s.layout.pdata.data + (0 : Word24).toNat ≤ s.len := by decide +kernel

theorem witness_PureTonePlays : let s := tape [0x12, 0x64, 0x00, 0x03, 0x00] 0
    (s.bt[s.cur]? = some (at10 0x12) ∧ s.img.optField 16 11 s.layout.tone.pause = some none) ∧
    pausedTone.bt[pausedTone.cur]? = some (at10 0x12) ∧
    pausedTone.img.optField 16 11 pausedTone.layout.tone.pause = some (some 2) := by decide +kernel

theorem witness_PulseSequencePlays : let s := tape [0x13, 0x02, 0x64, 0x00, 0x00, 0x00] 0
    s.bt[s.cur]? = some (at10 0x13) ∧ s.img.optField 16 11 s.layout.pulses.pause = some none ∧ 10 + 1 + s.layout.pulses.list.off + s.layout.pulses.list.width * (2 : Byte).toNat = s.len := by
  decide +kernel

theorem witness_DirectRecordingPlays : let s := tape [0x15, 79, 0, 0, 0, 8, 1, 0, 0, 0xA0] 0
    s.bt[s.cur]? = some (at10 0x15) ∧ 10 + 1 + s.layout.direct.data + (1 : Word24).toNat = s.len ∧
    ((some 8 : Option Byte).getD 8).toNat ≤ 8 ∧ ((none : Option Byte).getD 8).toNat ≤ 8 ∧
    10 + 1 + s.layout.direct.data + (0 : Word24).toNat ≤ s.len := by decide +kernel

theorem witness_UsedBitsAboveEightAreRefused : let s := tape [0x14, 1, 0, 2, 0, 9, 0, 0, 1, 0, 0, 0xFF] 0
    s.bt[s.cur]? = some (at10 0x14) ∧ (1 : Word24) ≠ 0 ∧ 8 < (9 : Byte).toNat := by decide +kernel

theorem witness_PauseBlockPlays : ∀ bs : List Byte, bs = [0x20, 0x00, 0x00] ∨ bs = [0x20, 0x00] →
    let s := tape bs 0
    s.phase = .running ∧ s.input.kind = .tzx ∧ s.layout = defaultLayout ∧ s.bt[s.cur]? = some (at10 0x20) ∧
    (s.img.read16 11 = some 0 ↔ bs.length = 3) ∧ (s.len < 13 ↔ bs.length = 2) := by
  rintro _ (rfl | rfl) <;> decide +kernel

/-- With a payload and a pause, and without both. -/
theorem witness_PilotTrainTogglesAndTicks : let m := Memory.ofBytes [0xA0]
    let p := { PulseRegs.reset with bitsLast := 8, dataLen := 1, hasPause := true }
    let q := { PulseRegs.reset with bitsLast := 9, dataLen := 0, hasPause := false }
    (p.dataPtr + p.dataLen.toNat ≤ m.len ∧ p.bitsLast.toNat ≤ 8 ∧ p.hasPause = true) ∧
    (q.dataPtr + q.dataLen.toNat ≤ m.len ∧ q.dataLen = 0 ∧ q.hasPause = false) := by decide +kernel

/-- With a payload and a pause, and without both. -/
theorem witness_DirectRecordingNeverToggles : let m := Memory.ofBytes [0xA0]
    let p := { PulseRegs.reset with bitsLast := 8, dataLen := 1, hasPause := true }
    let q := { PulseRegs.reset with bitsLast := 9, dataLen := 0, hasPause := false }
    (p.dataPtr + p.dataLen.toNat ≤ m.len ∧ p.bitsLast.toNat ≤ 8 ∧ p.hasPause = true) ∧
    (q.dataPtr + q.dataLen.toNat ≤ m.len ∧ q.dataLen = 0 ∧ q.hasPause = false) := by decide +kernel

/-- The tape of V12: two pilot symbols, eight data symbols. -/
def gdbTape : State := tape [0x19, 0x29, 0x00, 0x00, 0x00, 0x01, 0x00, 0x02, 0x00, 0x00, 0x00, 0x02, 0x02, 0x08, 0x00, 0x00,
  0x00, 0x02, 0x02, 0x00, 0x78, 0x08, 0x00, 0x00, 0x00, 0x9B, 0x02, 0xDF, 0x02, 0x00, 0x03, 0x00, 0x01, 0x01, 0x00,
  0x00, 0x57, 0x03, 0x57, 0x03, 0x00, 0xAE, 0x06, 0xAE, 0x06, 0xA5] 0

theorem witness_GeneralizedBlockPlays : let s := gdbTape
    s.layout = defaultLayout ∧ s.bt[s.cur]? = some (at10 0x19) ∧ 45 ≤ s.len ∧
    55 + (ceilLog2 2 * 8 + 7) / 8 = s.len ∧ 29 ≤ s.len ∧
    (∀ r, r < 2 → rleRepeat s.layout s.img 39 r ≠ 0 → rleSymbol s.layout s.img 39 r < 2 ∧
      (symbolFlags s.layout.symbol s.img 29 2 (rleSymbol s.layout s.img 39 r)).toNat ≤ 3) ∧
    (∀ j, j < 8 → packedIndex true s.img 55 1 j < 2 ∧
      (symbolFlags s.layout.symbol s.img 45 2 (packedIndex true s.img 55 1 j)).toNat ≤ 3) := by decide +kernel

/-- A run-length table one byte beyond the image, and a data stream three. -/
theorem witness_GeneralizedBlockBeyondImageFails : let s := tape (List.replicate 1 0x19 ++ List.replicate 23 0) 0
    s.layout = defaultLayout ∧ s.bt[s.cur]? = some (at10 0x19) ∧
    ((1 : Word32) ≠ 0 ∧ s.len < 29 + (2 * 1 + 1) * 1 + 3 * 1) ∧
    ((16 : Word32) ≠ 0 ∧ s.len < 29 + (2 * 1 + 1) * 2 + (ceilLog2 2 * 16 + 7) / 8) := by decide +kernel

/-- V18 (d): flags byte 4. -/
theorem witness_BadPilotSymbolIsRefused_1 :
    let s := tape [0x19, 0x14, 0, 0, 0, 0, 0, 1, 0, 0, 0, 1, 1, 0, 0, 0, 0, 0, 0, 4, 0x0A, 0,
      0, 1, 0] 0
    s.layout = defaultLayout ∧ s.bt[s.cur]? = some (at10 0x19) ∧ 29 + 3 + 3 * 1 ≤ s.len ∧
    rleRepeat s.layout s.img 32 0 ≠ 0 ∧
    3 < (symbolFlags s.layout.symbol s.img 29 1 (rleSymbol s.layout s.img 32 0)).toNat := by decide +kernel

/-- An entry that names symbol 1 of an alphabet of one. -/
theorem witness_BadPilotSymbolIsRefused_2 :
    let s := tape [0x19, 0x14, 0, 0, 0, 0, 0, 1, 0, 0, 0, 1, 1, 0, 0, 0, 0, 0, 0, 0, 0x0A, 0,
      1, 1, 0] 0
    s.layout = defaultLayout ∧ s.bt[s.cur]? = some (at10 0x19) ∧ 29 + 3 + 3 * 1 ≤ s.len ∧
    rleRepeat s.layout s.img 32 0 ≠ 0 ∧ 1 ≤ rleSymbol s.layout s.img 32 0 := by decide +kernel

/-- V18 (c): index 3 of an alphabet of three, after one symbol that plays. -/
theorem witness_BadDataSymbolIsRefused_1 :
    let s := tape [0x19, 0x18, 0, 0, 0, 0, 0, 0, 0, 0, 0, 0, 0, 2, 0, 0, 0, 1, 3, 0, 0x0A, 0, 0,
      0x14, 0, 0, 0x1E, 0, 0x70] 0
    s.layout = defaultLayout ∧ s.bt[s.cur]? = some (at10 0x19) ∧
    29 + (2 * 1 + 1) * 3 + (ceilLog2 3 * 2 + 7) / 8 ≤ s.len ∧
    (∀ k, k < 1 → packedIndex true s.img 38 2 k < 3 ∧
      (symbolFlags s.layout.symbol s.img 29 1 (packedIndex true s.img 38 2 k)).toNat ≤ 3) ∧
    3 ≤ packedIndex true s.img 38 2 1 := by decide +kernel

/-- Symbol 1 has flags byte 4; symbol 0 plays before it. -/
theorem witness_BadDataSymbolIsRefused_2 :
    let s := tape [0x19, 0x15, 0, 0, 0, 0, 0, 0, 0, 0, 0, 0, 0, 2, 0, 0, 0, 1, 2, 0, 0x0A, 0, 4,
      0x14, 0, 0x40] 0
    s.layout = defaultLayout ∧ s.bt[s.cur]? = some (at10 0x19) ∧
    29 + (2 * 1 + 1) * 2 + (ceilLog2 2 * 2 + 7) / 8 ≤ s.len ∧
    (∀ k, k < 1 → packedIndex true s.img 35 1 k < 2 ∧
      (symbolFlags s.layout.symbol s.img 29 1 (packedIndex true s.img 35 1 k)).toNat ≤ 3) ∧
    3 < (symbolFlags s.layout.symbol s.img 29 1 (packedIndex true s.img 35 1 1)).toNat := by decide +kernel

/-- The twenty skipped instructions, each of which meets the hypotheses on the instruction. -/
theorem witness_SkippedBlocksOnlyAdvance :
    (tape [0x22] 0).bt[(tape [0x22] 0).cur]? = some (at10 0x22) ∧
    ∀ i ∈ ([.c64rom 0, .c64turbo 0, .csw 0, .grps 0, .grpe, .jump 0, .callseq 0, .ret, .select 0, .stop48 0, .setlvl 0,
        .text 0, .msg 0 0, .archive 0, .hwtype 0, .emuinfo, .custom 0 0, .snap 0 0, .glue, .unknown 0x99 0] : List Instr),
      i.kind = .tzx ∧ i.op? ∉ ([.std, .turbo, .tone, .pulses, .pdata, .direct, .gdb, .pause, .loops, .loope]
        : List Op).map some := by
  refine ⟨by decide +kernel, ?_⟩
  decide

/-- A block that just fits, a fallback block, and one whose named field lies outside the image. -/
theorem witness_SkippedBlocksNeedOnlyTheirSize :
    (∀ s ∈ [tape [0x30, 0x01, 0x41] 0, tape [0x99, 0x00, 0x00, 0x00, 0x00] 0, shortJump],
      s.phase = .running ∧ s.input.kind = .tzx ∧ ∃ e, s.bt[s.cur]? = some e ∧ s.layout.skips e.type = true ∧
        ∃ size, bodySize s.layout s.img e.type (e.offset + 1) = some size ∧ e.offset + 1 + size = s.len) ∧
    decodeBody shortJump.layout shortJump.img 0x23 11 = none := by
  refine ⟨?_, by decide +kernel⟩
  intro s hs
  simp only [List.mem_cons, List.not_mem_nil, or_false] at hs
  rcases hs with rfl | rfl | rfl
  · exact ⟨rfl, rfl, at10 0x30, by decide +kernel, by decide +kernel, 2, by decide +kernel, by decide +kernel⟩
  · exact ⟨rfl, rfl, at10 0x99, by decide +kernel, by decide +kernel, 4, by decide +kernel, by decide +kernel⟩
  · exact ⟨rfl, rfl, at10 0x23, by decide +kernel, by decide +kernel, 0, by decide +kernel, by decide +kernel⟩

theorem witness_BlocksNeedATableEntry : State.reset.bt[State.reset.cur]? = none := by decide

theorem witness_InstructionsKeepTheirFrame : ∃ t, exec (.pause 1) pauseTape = .next t :=
  ⟨_, next_of_isSome (by decide +kernel)⟩

theorem witness_NoUnwrittenRegisterIsRead :
    (∃ t, exec (.pause 1) pauseTape = .next t) ∧ exec (.tone 1 1) State.reset = .fault .noBlockAtCursor :=
  ⟨witness_InstructionsKeepTheirFrame, rfl⟩

theorem witness_RefusalsHaveTheirReasons : let s := tape [0x10, 0x00, 0x00, 0x00, 0x00] 0
    s.phase = .running ∧ ∃ t, exec (.std (some 0) 0) s = .next t ∧ t.phase = .refused :=
  ⟨by decide +kernel, _, next_of_isSome (by decide +kernel), by decide +kernel⟩

theorem witness_DecodeInvertsEncode : ∀ i ∈ ([.std (some 1000) 2, .unknown 0x99 2, .taprec 4] : List Instr),
    i.wellFormed defaultLayout = true ∧
    ∀ k, k < (encode i).length → (Memory.ofBytes (encode i)).read (0 + k) = (encode i)[k]? := by decide +kernel

theorem witness_DecodedInstructionsAreWellFormed :
    decode .tzx defaultLayout (Memory.ofBytes [0x25]) 0 = .ok .loope := by decide

theorem witness_TypeBytesWithoutRowTakeTheFallback :
    defaultLayout.row? 0x0F = none ∧ defaultLayout.row? 0x5B = none ∧ defaultLayout.row? 0x5A ≠ none := by decide

theorem witness_MemReadIsLittleEndian : 0 + 2 = (Memory.ofBytes [1, 2]).len ∧ (Memory.ofBytes [1, 2]).len < 1 + 2 := by
  decide

/-- R13's table, each row at both ends of its range. -/
theorem test_ceil_log2 :
    [1, 2, 3, 4, 5, 8, 9, 16, 17, 32, 33, 64, 65, 128, 129, 256].map ceilLog2 =
      [0, 1, 2, 2, 3, 3, 4, 4, 5, 5, 6, 6, 7, 7, 8, 8] := by decide

theorem witness_CeilLog2IsLeast : (1 ≤ 1 ∧ 1 ≤ 256) ∧ 1 ≤ 256 ∧ 256 ≤ 256 ∧ 7 < ceilLog2 256 := by decide

theorem witness_OperandsAreAssembled :
    (8 ≤ 8 ∧ 7 < 8) ∧ (Memory.ofBytes [1, 2]).read (0 + 15 / 8) = some 2 := by decide

end Sys2Proof.Tests
end

section
/-! The integer logarithm of R13: on its domain the table is Mathlib's `Nat.clog 2`, so that the least-exponent
law and each row of the table come from the library's facts about `clog`. -/

namespace Sys2Proof.Machine

/-- Between two neighbouring powers of two the upper logarithm is the greater exponent. -/
theorem clog_two_eq_succ {n k : Nat} (above : 2 ^ k < n) (upTo : n ≤ 2 ^ (k + 1)) : Nat.clog 2 n = k + 1 :=
  le_antisymm (Nat.clog_le_of_le_pow upTo) ((Nat.lt_clog_iff_pow_lt one_lt_two).2 above)

/-- One case per row of R13's table. -/
theorem ceilLog2_eq_clog {n : Nat} (upTo : n ≤ 256) : ceilLog2 n = Nat.clog 2 n := by
  unfold ceilLog2
  split_ifs with h1 h2 h4 h8 h16 h32 h64 h128
  · exact (Nat.clog_of_right_le_one h1 2).symm
  · exact (clog_two_eq_succ (k := 0) (not_le.1 h1) h2).symm
  · exact (clog_two_eq_succ (k := 1) (not_le.1 h2) h4).symm
  · exact (clog_two_eq_succ (k := 2) (not_le.1 h4) h8).symm
  · exact (clog_two_eq_succ (k := 3) (not_le.1 h8) h16).symm
  · exact (clog_two_eq_succ (k := 4) (not_le.1 h16) h32).symm
  · exact (clog_two_eq_succ (k := 5) (not_le.1 h32) h64).symm
  · exact (clog_two_eq_succ (k := 6) (not_le.1 h64) h128).symm
  · exact (clog_two_eq_succ (k := 7) (not_le.1 h128) upTo).symm

/-- A row of R13's table: it spans what lies above one power of two, up to the next. -/
theorem ceilLog2_eq_succ {n k : Nat} (upTo : n ≤ 256) (above : 2 ^ k < n) (within : n ≤ 2 ^ (k + 1)) :
    ceilLog2 n = k + 1 :=
  (ceilLog2_eq_clog upTo).trans (clog_two_eq_succ above within)

theorem le_two_pow_ceilLog2 {n : Nat} (upTo : n ≤ 256) : n ≤ 2 ^ ceilLog2 n := by
  rw [ceilLog2_eq_clog upTo]
  exact Nat.le_pow_clog one_lt_two n

theorem two_pow_lt_of_lt_ceilLog2 {n k : Nat} (upTo : n ≤ 256) (below : k < ceilLog2 n) : 2 ^ k < n := by
  rw [ceilLog2_eq_clog upTo] at below
  exact Nat.pow_lt_of_lt_clog below

/-- Settles O57: on the domain of R13's table `ceilLog2` is the upper logarithm to base two, which gives both
the rows and the least exponent. -/
theorem ceilLog2IsLeast : Obligations.CeilLog2IsLeast := by
  intro n _ upTo
  have row (k : Nat) : 2 ^ k < n ∧ n ≤ 2 ^ (k + 1) → ceilLog2 n = k + 1 := fun ⟨above, within⟩ =>
    ceilLog2_eq_succ upTo above within
  refine ⟨?_, ?_, row 1, row 2, row 3, row 4, row 5, row 6, fun above => row 7 ⟨above, upTo⟩,
    le_two_pow_ceilLog2 upTo, fun _ => two_pow_lt_of_lt_ceilLog2 upTo⟩
  · rintro rfl; rfl
  · rintro rfl; rfl

end Sys2Proof.Machine
end

section
/-! The sink commands of 40_sink_commands.md. -/

namespace Sys2Proof.Machine

open Sys2Proof

/-- Settles O21: `emit` applies the command to the sink by definition, and a run that ends in `advance` has
the segments of its beginning, then those of the one `advance` from the level reached. -/
theorem advanceHoldsTheLevel : Obligations.AdvanceHoldsTheLevel := by
  refine ⟨fun _ _ => rfl, fun v cs n => ?_⟩
  rw [segments_append]
  rfl

end Sys2Proof.Machine
end

section
/-! Loop start (42_control_flow.md): a block in the running phase either fails the dispatch check or runs, and
what the default layout reads of a block of type 0x24. -/

namespace Sys2Proof.Machine

open Sys2Proof

/-- A block that passes the dispatch check and decodes is executed (R133, R134). -/
theorem step_eq_exec_of_decodeBody {s : State} {e : Entry} {size : Nat} {i : Instr}
    (running : s.phase = .running) (tzx : s.input.kind = .tzx) (entry : s.bt[s.cur]? = some e)
    (sized : bodySize s.layout s.img e.type (e.offset + 1) = some size) (fits : e.offset + 1 + size ≤ s.len)
    (decoded : decodeBody s.layout s.img e.type (e.offset + 1) = some i) : step s = exec i s := by
  simp [step, running, runStep, tzx, runBlock, entry, blockFits, sized, fits, runEntry, decoded]

/-- A block that ends beyond the image fails at dispatch (R133). -/
theorem step_eq_raise_of_bodySize {s : State} {e : Entry} {size : Nat}
    (running : s.phase = .running) (tzx : s.input.kind = .tzx) (entry : s.bt[s.cur]? = some e)
    (sized : bodySize s.layout s.img e.type (e.offset + 1) = some size) (overruns : s.len < e.offset + 1 + size) :
    step s = .next (s.raise (.truncatedBlock e.offset)) := by
  simp [step, running, runStep, tzx, runBlock, entry, blockFits, sized, overruns]

/-- The body of a loop start is its two count bytes (R82). -/
theorem bodySize_loops (m : Memory) (b : Nat) : bodySize defaultLayout m 0x24 b = some 2 := rfl

/-- A loop start reads its count at the body (R82). -/
theorem decodeBody_loops (m : Memory) (b : Nat) :
    decodeBody defaultLayout m 0x24 b = (m.read16 b).map Instr.loops :=
  Option.map_eq_bind.symm

/-- Settles O26: the block rule writes cursor and context whatever they held; at dispatch, the block of three
bytes is whole exactly where its count can be read. -/
theorem loopStartRecordsTheContext : Obligations.LoopStartRecordsTheContext := by
  intro s count
  refine ⟨rfl, fun o running tzx layout entry => ?_⟩
  have sized : bodySize s.layout s.img 0x24 (o + 1) = some 2 := by rw [layout]; exact bodySize_loops ..
  refine ⟨fun counted => ?_, fun overruns => step_eq_raise_of_bodySize running tzx entry sized overruns⟩
  have fits : o + 1 + 2 ≤ s.len := (read16_isSome s.img (o + 1)).1 (by rw [counted]; rfl)
  have decoded : decodeBody s.layout s.img 0x24 (o + 1) = some (.loops count) := by
    rw [layout, decodeBody_loops, counted]; rfl
  exact step_eq_exec_of_decodeBody running tzx entry sized fits decoded

end Sys2Proof.Machine
end

section
/-! The pause rule (43_pulse_train.md R160): one low level, then a run of milliseconds that keeps it. -/

namespace Sys2Proof.Machine

open Sys2Proof

/-- The forced millisecond and the `p - 1` more are `max(p, 1)` together, because `p - 1` stops at 0. -/
theorem pause_eq_pausePlays (p : Nat) : pause p = pausePlays p := by
  have count : max p 1 = p - 1 + 1 := by omega
  simp only [pause, pausePlays, ms, List.flatten_replicate_singleton, count, List.replicate_succ,
    List.cons_append, List.nil_append]

/-- Every millisecond lasts 3500 ticks (R107). -/
theorem ticksOf_milliseconds (n : Nat) : ticksOf (List.replicate n .advanceOneMillisecond) = 3500 * n := by
  simp [ticksOf, Command.ticks, msTicks, Nat.mul_comm]

/-- Milliseconds keep the level (R107). -/
theorem levelAfter_milliseconds (v : Level) (n : Nat) :
    levelAfter v (List.replicate n .advanceOneMillisecond) = v := by
  induction n with
  | zero => rfl
  | succ n ih => rw [List.replicate_succ, levelAfter_cons]; exact ih

/-- Every millisecond is a segment of its own at the level held (R33 (a)). -/
theorem segments_milliseconds (v : Level) (n : Nat) :
    segments v (List.replicate n .advanceOneMillisecond) = List.replicate n (v, 3500) := by
  induction n with
  | zero => rfl
  | succ n ih => simp only [List.replicate_succ, segments, ih, msTicks]

/-- Settles O23: the pause is one `setLevelLow`, which makes every level low and takes no tick, followed by
`max(p, 1)` milliseconds, each of 3500 ticks at that level. -/
theorem pauseForcesOneMillisecond : Obligations.PauseForcesOneMillisecond := by
  intro p
  rw [pause_eq_pausePlays, pausePlays]
  refine ⟨rfl, ?_, fun v => ⟨?_, ?_⟩⟩
  · rw [ticksOf_cons, ticksOf_milliseconds, Command.ticks, Nat.zero_add]
  · rw [levelAfter_cons]
    exact levelAfter_milliseconds .low _
  · rw [segments, segments_milliseconds]

end Sys2Proof.Machine
end

section
/-! The pause block (44_direct_and_pause.md R192): the pause it plays is never empty, so the pause rule gives
exactly its milliseconds, and its body is one 16-bit operand. -/

namespace Sys2Proof.Machine

open Sys2Proof

/-- A pause block never plays zero milliseconds: 0 stands for `STOP_PAUSE_MS` (R192). -/
theorem stopPause_pos (q : Half) : 0 < (stopPause q).toNat := by
  unfold stopPause
  split_ifs with stop
  · decide
  · exact Nat.pos_of_ne_zero fun zero => stop (BitVec.eq_of_toNat_eq zero)

/-- A pause that is not empty forces no millisecond beyond its own (R160). -/
theorem pause_eq_of_pos {p : Nat} (pos : 0 < p) :
    pause p = .setLevelLow :: List.replicate p .advanceOneMillisecond := by
  rw [pause_eq_pausePlays, pausePlays, max_eq_left pos]

/-- Milliseconds add their ticks to the reference sink and leave its level (R107). -/
theorem applyAll_milliseconds (k : Sink) (n : Nat) :
    k.applyAll (List.replicate n .advanceOneMillisecond) = { k with ticks := k.ticks + 3500 * n } := by
  have level := applyAll_level (List.replicate n .advanceOneMillisecond) k
  have ticks := applyAll_ticks (List.replicate n .advanceOneMillisecond) k
  rw [levelAfter_milliseconds] at level
  rw [ticksOf_milliseconds] at ticks
  rw [← level, ← ticks]

/-- The block rule loads the pause, plays it and passes to the next block (R192). -/
theorem exec_pause (q : Half) (s : State) :
    exec (.pause q) s =
      .next (({ s with p := s.p.loadPause (some (stopPause q)) } : State).emitAll
        (pause (stopPause q).toNat)).nextBlock := rfl

/-- A block whose body is one 16-bit operand runs with it where it can be read, and fails at dispatch where it
lies beyond `LEN`: the dispatch check and the operand want the same two bytes (R133, R134). -/
theorem step_of_halfOperand {s : State} {o : Nat} {type : Byte} {instr : Half → Instr}
    (running : s.phase = .running) (tzx : s.input.kind = .tzx)
    (entry : s.bt[s.cur]? = some { offset := o, type := type })
    (sized : bodySize s.layout s.img type (o + 1) = some 2)
    (reads : decodeBody s.layout s.img type (o + 1) = (s.img.read16 (o + 1)).map instr) :
    (∀ v, s.img.read16 (o + 1) = some v → step s = exec (instr v) s) ∧
    (s.len < o + 3 → step s = .next (s.raise (.truncatedBlock o))) := by
  refine ⟨fun v read => ?_, fun overruns => step_eq_raise_of_bodySize running tzx entry sized overruns⟩
  have fits : o + 1 + 2 ≤ s.len := (read16_isSome s.img (o + 1)).1 (by rw [read]; rfl)
  exact step_eq_exec_of_decodeBody running tzx entry sized fits (by rw [reads, read]; rfl)

/-- The body of a pause block is the two bytes of its pause (R81). -/
theorem bodySize_pause (m : Memory) (b : Nat) : bodySize defaultLayout m 0x20 b = some 2 := rfl

/-- A pause block reads its pause at the body (R81). -/
theorem decodeBody_pause (m : Memory) (b : Nat) :
    decodeBody defaultLayout m 0x20 b = (m.read16 b).map Instr.pause :=
  Option.map_eq_bind.symm

/-- Settles O39: the pause a block plays is positive, so the rule's forced millisecond is one of its own; at
dispatch, the block of three bytes is whole exactly where its pause can be read. -/
theorem pauseBlockPlays : Obligations.PauseBlockPlays := by
  intro s q p cs t
  have played : pause p.toNat = cs := pause_eq_of_pos (stopPause_pos q)
  have sounded : s.sink.applyAll cs = t.sink := by
    rw [applyAll_cons, applyAll_milliseconds]; rfl
  have executed : exec (.pause q) s = .next t := by
    calc exec (.pause q) s
      _ = .next (({ s with p := s.p.loadPause (some p) } : State).emitAll (pause p.toNat)).nextBlock :=
        exec_pause q s
      _ = .next { t with sink := s.sink.applyAll cs } := by rw [played]; rfl
      _ = .next t := by rw [sounded]
  refine ⟨executed, fun o running tzx layout entry => ?_⟩
  obtain ⟨runs, fails⟩ := step_of_halfOperand running tzx entry
    (by rw [layout]; exact bodySize_pause ..) (by rw [layout]; exact decodeBody_pause ..)
  exact ⟨fun read => (runs q read).trans executed, fails⟩

end Sys2Proof.Machine
end

section
/-! Fatal errors (60_exceptions.md R276): a raise ends the session in a final phase, and no final phase has a
step (R277). -/

namespace Sys2Proof.Machine

open Sys2Proof

/-- Done, Failed and Refused have no step (R277). -/
theorem step_eq_fault_of_ended {s : State} (ended : s.phase.ended = true) : step s = .fault .sessionEnded := by
  unfold step
  cases phase : s.phase with
  | idle | indexing | running => simp [phase, Phase.ended] at ended
  | done | failed | refused => rfl

/-- Settles O7: the two writes are the definition of `raise`, and the phase they leave, Failed, is final, so
that no step follows in which a handler could run. -/
theorem raiseWritesPhaseAndErrorOnly : Obligations.RaiseWritesPhaseAndErrorOnly := by
  intro s e
  have failed : (s.raise e).phase.ended = true := by rw [raise_phase]; rfl
  exact ⟨rfl, step_eq_fault_of_ended failed⟩

end Sys2Proof.Machine
end

section
/-! What an instruction does, as data. `effect i s` says which registers an instruction loads, which commands it
emits, how it ends and where it goes on; it reads neither the sink, nor `AW`, nor any register of `P.*` and `G.*`.
`exec` is nothing but running it (`exec_eq_effect`). The frame, the noninterference statements, the reasons of a
refusal and the commands of a failing step are facts about effects. -/

namespace Sys2Proof.Machine

open Sys2Proof

/-- What an instruction does to a session. -/
structure Effect where
  /-- The loads of `P.*`. -/
  loadP  : PulseRegs → PulseRegs
  /-- The loads of `G.*`. -/
  loadG  : SymbolRegs → SymbolRegs
  /-- What is appended to `DIAG`. -/
  events : List DiagEvent
  /-- The commands, and what stopped them. -/
  out    : Emission
  /-- The offset an error names. -/
  offset : Nat
  /-- `CUR` afterwards, if nothing stopped the commands. -/
  cur    : Nat
  /-- `POS` afterwards, if nothing stopped the commands. -/
  pos    : Nat
  /-- What becomes of the loop context, if nothing stopped the commands. -/
  loop   : LoopContext → LoopContext

/-- The effect of passing to the next block. -/
def Effect.pass (s : State) : Effect where
  loadP := id
  loadG := id
  events := []
  out := Emission.all []
  offset := 0
  cur := s.cur + 1
  pos := s.pos
  loop := id

/-- The loads and the commands of an effect, whatever stopped them. -/
def Effect.play (x : Effect) (s : State) : State :=
  { s with
    p := x.loadP s.p
    g := x.loadG s.g
    diag := s.diag ++ x.events
    sink := s.sink.applyAll x.out.cmds
    trace := s.trace ++ x.out.cmds }

/-- The state an effect leads to (R134, R276, R284). -/
def Effect.run (x : Effect) (s : State) : State :=
  match x.out.stop with
  | none => { x.play s with cur := x.cur, pos := x.pos, loop := x.loop s.loop }
  | some .truncated => (x.play s).raise (.truncatedBlock x.offset)
  | some (.refuse w) => (x.play s).refuse w

/-! ### What the instructions load -/

/-- The loads of `STD` before it looks at its payload's length (R170). -/
def payloadLoad (q : Option Half) (ptr : Nat) (len : Half) (p : PulseRegs) : PulseRegs :=
  { p with pauseMs := q.getD p.pauseMs, dataPtr := ptr, dataLen := len.setWidth 24 }

/-- The loads of a standard-speed payload but the pilot count (R170, R261). -/
def standardLoad (q : Option Half) (ptr : Nat) (len : Half) (p : PulseRegs) : PulseRegs :=
  { payloadLoad q ptr len p with
    pilotLength := stdPilotLen
    sync1 := stdSync1
    sync2 := stdSync2
    bit0 := stdBit0
    bit1 := stdBit1
    bitsLast := 8
    hasPause := q.isSome }

/-- The load of the pilot count (R169). -/
def pilotCountLoad (s : State) (first : Byte) (p : PulseRegs) : PulseRegs :=
  { p with pilotCount := standardPilotCount s.params.flagThreshold first }

/-- The loads of `TURBO` (R171). -/
def turboLoad (pilotLength sync1 sync2 bit0 bit1 pilotCount : Half) (usedBits : Byte) (q : Option Half)
    (len : Word24) (ptr : Nat) (p : PulseRegs) : PulseRegs :=
  { p.loadPause q with
    pilotLength := pilotLength
    sync1 := sync1
    sync2 := sync2
    bit0 := bit0
    bit1 := bit1
    pilotCount := pilotCount
    bitsLast := usedBits
    dataLen := len
    dataPtr := ptr }

/-- The loads of `TONE` (R172). -/
def toneLoad (pulseLength count : Half) (q : Option Half) (_ : PulseRegs) : PulseRegs :=
  { PulseRegs.reset.loadPause q with pilotLength := pulseLength, pilotCount := count }

/-- The loads of `PULSES` (R173). -/
def pulsesLoad (n : Byte) (q : Option Half) (ptr : Nat) (p : PulseRegs) : PulseRegs :=
  { p.loadPause q with dataPtr := ptr, dataLen := n.setWidth 24 }

/-- The loads of `PDATA` (R174). -/
def pdataLoad (bit0 bit1 : Half) (usedBits : Byte) (q : Option Half) (len : Word24) (ptr : Nat) (p : PulseRegs) :
    PulseRegs :=
  turboLoad 0 0 0 bit0 bit1 0 usedBits q len ptr p

/-- The loads of `DIRECT` (R190). -/
def directLoad (tps : Half) (q : Option Half) (used : Option Byte) (len : Word24) (ptr : Nat) (p : PulseRegs) :
    PulseRegs :=
  { p.loadPause q with tps := tps, bitsLast := used.getD 8, dataLen := len, dataPtr := ptr }

/-- The loads of `G.*` by `GDB` (R201). -/
def gdbLoad (q : Option Half) (totp : Word32) (npp asp : Byte) (totd : Word32) (npd asd : Byte) (g : SymbolRegs) :
    SymbolRegs :=
  { g with
    pauseMs := q.getD g.pauseMs
    totp := totp
    npp := npp
    asp := BitVec.ofNat 9 (alphabetSize asp)
    totd := totd
    npd := npd
    asd := BitVec.ofNat 9 (alphabetSize asd)
    nb := BitVec.ofNat 4 (ceilLog2 (alphabetSize asd)) }

/-! ### The effects -/

/-- A block that loads `P.*` and emits. -/
def Effect.block (s : State) (o : Nat) (load : PulseRegs → PulseRegs) (out : Emission) : Effect :=
  { Effect.pass s with offset := o, loadP := load, out := out }

/-- A block that loads `P.*` and plays a pilot train of what it has loaded: nothing of it was in a register
before, so the train is that of loads into registers of any contents. -/
def Effect.train (s : State) (o : Nat) (load : PulseRegs → PulseRegs) : Effect :=
  Effect.block s o load (pilotTrain s.img (load PulseRegs.reset))

/-- A non-empty standard-speed payload (R169, R170, R261). -/
def Effect.standard (s : State) (o : Nat) (q : Option Half) (ptr : Nat) (len : Half) : Effect :=
  match s.img.read ptr with
  | none => Effect.block s o (standardLoad q ptr len) (Emission.halt .truncated)
  | some first => Effect.train s o fun p => pilotCountLoad s first (standardLoad q ptr len p)

/-- A block with a pause field of the layout's own (R161). -/
def Effect.paused (s : State) (o : Nat) (f : Option FieldPos) (rule : Option Half → Effect) : Effect :=
  match s.img.optField 16 (o + 1) f with
  | none => Effect.block s o id (Emission.halt .truncated)
  | some q => rule q

/-- The event of `State.report`. -/
def reported (s : State) (k : DiagKind) : List DiagEvent :=
  if s.params.reportDiag then [{ kind := k, blockIndex := s.cur }] else []

/-- The event of a skipped block (R230). -/
def skipEvents (s : State) : List DiagEvent :=
  match s.bt[s.cur]? with
  | some e => reported s (.unsupportedBlock e.type)
  | none => []

/-- The event of a generalized block (R209). -/
def alphabetEvents (s : State) (asp asd : Byte) : List DiagEvent :=
  if asp = 0 ∨ asd = 0 then reported s .alphabetSizeZero else []

/-- A generalized block after its loads, over registers of no particular contents before them. -/
def blankGdb (s : State) (q : Option Half) (totp : Word32) (npp asp : Byte) (totd : Word32) (npd asd : Byte) :
    State :=
  ({ s with p := PulseRegs.reset, g := SymbolRegs.reset } : State).loadGdb q totp npp asp totd npd asd

/-- A generalized block (R200). -/
def Effect.gdb (s : State) (o : Nat) (q : Option Half) (totp : Word32) (npp asp : Byte) (totd : Word32)
    (npd asd : Byte) : Effect :=
  let b := blankGdb s q totp npp asp totd npd asd
  let t := gdbTables s.layout b.g (o + 1 + s.layout.gdb.tables)
  let load := gdbLoad q totp npp asp totd npd asd
  { Effect.pass s with
    offset := o
    loadP := fun p => { p with hasPause := q.isSome }
    loadG := if s.len < t.stop then load else fun g => gdbRegs { s with g := load g } t
    events := alphabetEvents s asp asd
    out := if s.len < t.stop then Emission.halt .truncated else gdbEmission b t }

theorem goesBack_iff {l : LoopContext} : l.goesBack = true ↔ l.active = true ∧ 0 < l.cnt.toNat := by
  simp [LoopContext.goesBack]

/-- `LOOPE` (R151). -/
def Effect.loope (s : State) : Effect :=
  if s.loop.goesBack then
    { Effect.pass s with cur := s.loop.ret, loop := fun l => { l with cnt := l.cnt - 1 } }
  else { Effect.pass s with loop := fun l => { l with active := false } }

/-- What an instruction does; `none` where its block has no table entry. -/
def effect (i : Instr) (s : State) : Option Effect :=
  match i with
  | .std q len => (s.bt[s.cur]?).map fun e =>
    let ptr := e.offset + 1 + s.layout.std.data
    if len = 0 then Effect.block s e.offset (payloadLoad q ptr len) (Emission.halt (.refuse .emptyStandardBlock))
    else Effect.standard s e.offset q ptr len
  | .turbo pilotLength sync1 sync2 bit0 bit1 pilotCount usedBits q len => (s.bt[s.cur]?).map fun e =>
    Effect.train s e.offset (turboLoad pilotLength sync1 sync2 bit0 bit1 pilotCount usedBits q len
      (e.offset + 1 + s.layout.turbo.data))
  | .tone pulseLength count => (s.bt[s.cur]?).map fun e =>
    Effect.paused s e.offset s.layout.tone.pause fun q => Effect.train s e.offset (toneLoad pulseLength count q)
  | .pulses n => (s.bt[s.cur]?).map fun e =>
    Effect.paused s e.offset s.layout.pulses.pause fun q =>
      let load := pulsesLoad n q (e.offset + 1 + s.layout.pulses.list.off)
      let p := load PulseRegs.reset
      Effect.block s e.offset load
        ((listedPulses s.img s.layout.pulses.list.width p.dataPtr p.dataLen.toNat).seq
          (Emission.all (blockPause p)))
  | .pdata bit0 bit1 usedBits q len => (s.bt[s.cur]?).map fun e =>
    Effect.train s e.offset (pdataLoad bit0 bit1 usedBits q len (e.offset + 1 + s.layout.pdata.data))
  | .direct tps q used len => (s.bt[s.cur]?).map fun e =>
    let load := directLoad tps q used len (e.offset + 1 + s.layout.direct.data)
    Effect.block s e.offset load (directRecording s.img (load PulseRegs.reset))
  | .gdb _ q totp npp asp totd npd asd => (s.bt[s.cur]?).map fun e =>
    Effect.gdb s e.offset q totp npp asp totd npd asd
  | .pause q =>
    let load := fun p : PulseRegs => p.loadPause (some (stopPause q))
    some (Effect.block s 0 load (Emission.all (blockPause (load PulseRegs.reset))))
  | .loops count => some
    { Effect.pass s with loop := fun _ => { cnt := count, ret := s.cur + 1, active := true } }
  | .loope => some (Effect.loope s)
  | .taprec n => some
    { (if n = 0 then Effect.block s s.pos id (Emission.halt (.refuse .emptyStandardBlock))
      else Effect.standard s s.pos (some tapPauseMs) (s.pos + recordPrefix) n) with
      cur := s.cur, pos := s.pos + recordPrefix + n.toNat }
  | .c64rom _ | .c64turbo _ | .csw _ | .grps _ | .grpe | .jump _ | .callseq _ | .ret | .select _ | .stop48 _
  | .setlvl _ | .text _ | .msg _ _ | .archive _ | .hwtype _ | .emuinfo | .custom _ _ | .snap _ _ | .glue
  | .unknown _ _ => some { Effect.pass s with events := skipEvents s }

/-! ### `exec` runs the effect -/

/-- A block closes with the state its effect leads to. -/
theorem closeBlock_eq_run (x : Effect) (goOn : State → State) (s u : State)
    (loads : u = { s with p := x.loadP s.p, g := x.loadG s.g, diag := s.diag ++ x.events })
    (onward : goOn (x.play s) = { x.play s with cur := x.cur, pos := x.pos, loop := x.loop s.loop }) :
    closeBlock x.offset x.out goOn u = .next (x.run s) := by
  have played : u.emitAll x.out.cmds = x.play s := by rw [loads]; rfl
  unfold closeBlock Effect.run
  rw [played, onward]
  match x.out.stop with
  | none => rfl
  | some .truncated => rfl
  | some (.refuse w) => rfl

/-- A block that appends nothing to `DIAG`, loads `P.*` alone and passes to the next block. -/
theorem closeBlock_eq_run_block (s : State) (o : Nat) (load : PulseRegs → PulseRegs) {out blank : Emission}
    (same : out = blank) :
    closeBlock o out State.nextBlock { s with p := load s.p } = .next ((Effect.block s o load blank).run s) := by
  rw [same]
  refine closeBlock_eq_run (Effect.block s o load blank) _ s _ ?_ rfl
  simp [Effect.block, Effect.pass]

/-- No command and no stop: the loads and the way on are all that is left of a run. -/
theorem run_of_silent {x : Effect} (silent : x.out = Emission.all []) (s : State) :
    x.run s = { s with
      p := x.loadP s.p, g := x.loadG s.g, diag := s.diag ++ x.events
      cur := x.cur, pos := x.pos, loop := x.loop s.loop } := by
  simp [Effect.run, Effect.play, silent]

/-- A halt before any command. -/
theorem run_of_halt_truncated {x : Effect} (halted : x.out = Emission.halt .truncated) (s : State) :
    x.run s = ({ s with p := x.loadP s.p, g := x.loadG s.g, diag := s.diag ++ x.events } : State).raise
      (.truncatedBlock x.offset) := by
  simp [Effect.run, Effect.play, halted]

/-- A refusal before any command. -/
theorem run_of_halt_refuse {x : Effect} {w : SessionRefusal} (halted : x.out = Emission.halt (.refuse w)) (s : State) :
    x.run s = ({ s with p := x.loadP s.p, g := x.loadG s.g, diag := s.diag ++ x.events } : State).refuse w := by
  simp [Effect.run, Effect.play, halted]

/-- Reporting appends the event of the channel (R35). -/
theorem report_eq_reported (s : State) (k : DiagKind) : s.report k = { s with diag := s.diag ++ reported s k } := by
  unfold State.report reported
  split <;> simp

/-- A skipped block passes on, with its event (R230). -/
theorem skip_eq_run (s : State) : s.skip = ({ Effect.pass s with events := skipEvents s } : Effect).run s := by
  rw [run_of_silent rfl]
  unfold State.skip skipEvents
  cases s.bt[s.cur]? with
  | none => simp [State.nextBlock, Effect.pass]
  | some e => simp [report_eq_reported, State.nextBlock, Effect.pass]

/-- A pilot train plays only what is loaded, so a load that fixes all it plays makes it the same train from any
registers: the pause register is played only where it is loaded (R161). -/
theorem pilotTrain_turboLoad (m : Memory) (pilotLength sync1 sync2 bit0 bit1 pilotCount : Half) (usedBits : Byte)
    (q : Option Half) (len : Word24) (ptr : Nat) (p p' : PulseRegs) :
    pilotTrain m (turboLoad pilotLength sync1 sync2 bit0 bit1 pilotCount usedBits q len ptr p) =
      pilotTrain m (turboLoad pilotLength sync1 sync2 bit0 bit1 pilotCount usedBits q len ptr p') := by
  cases q <;> rfl

/-- The same for standard speed. -/
theorem pilotTrain_standardLoad (s : State) (first : Byte) (q : Option Half) (ptr : Nat) (len : Half)
    (p p' : PulseRegs) :
    pilotTrain s.img (pilotCountLoad s first (standardLoad q ptr len p)) =
      pilotTrain s.img (pilotCountLoad s first (standardLoad q ptr len p')) := by
  cases q <;> rfl

/-- The same for direct recording. -/
theorem directRecording_directLoad (m : Memory) (tps : Half) (q : Option Half) (used : Option Byte) (len : Word24)
    (ptr : Nat) (p p' : PulseRegs) :
    directRecording m (directLoad tps q used len ptr p) = directRecording m (directLoad tps q used len ptr p') := by
  cases q <;> rfl

/-- A standard-speed payload without a first byte is truncated (R169). -/
theorem standard_of_unread {s : State} {ptr : Nat} (missing : s.img.read ptr = none) (o : Nat) (q : Option Half)
    (len : Half) : Effect.standard s o q ptr len = Effect.block s o (standardLoad q ptr len) (Emission.halt .truncated) := by
  rw [Effect.standard, missing]

/-- Its first byte chooses the pilot (R169). -/
theorem standard_of_read {s : State} {ptr : Nat} {first : Byte} (read : s.img.read ptr = some first) (o : Nat)
    (q : Option Half) (len : Half) :
    Effect.standard s o q ptr len = Effect.train s o fun p => pilotCountLoad s first (standardLoad q ptr len p) := by
  rw [Effect.standard, read]

/-- A standard-speed payload, in a block or in a record, does what its effect says. -/
theorem standardSignal_eq_run (s : State) (o : Nat) (q : Option Half) (ptr : Nat) (len : Half)
    (goOn : State → State) (cur pos : Nat) (onward : ∀ u : State, u.cur = s.cur → u.pos = s.pos →
      goOn u = { u with cur := cur, pos := pos }) :
    standardSignal o goOn ((s.loadPayload q ptr len).loadStandard q.isSome) =
      .next (({ Effect.standard s o q ptr len with cur := cur, pos := pos } : Effect).run s) := by
  rcases standardSignal_cases o goOn ((s.loadPayload q ptr len).loadStandard q.isSome) with
    ⟨missing, answer⟩ | ⟨first, read, answer⟩
  · rw [answer, standard_of_unread (s := s) (ptr := ptr) missing, run_of_halt_truncated rfl]
    simp [Effect.block, Effect.pass, State.loadPayload, State.loadStandard, standardLoad, payloadLoad]
  · rw [answer, standard_of_read (s := s) (ptr := ptr) read]
    let x : Effect := { Effect.train s o fun p => pilotCountLoad s first (standardLoad q ptr len p) with
      cur := cur, pos := pos }
    have train : pilotTrain s.img (pilotCountLoad s first (standardLoad q ptr len s.p)) = x.out :=
      pilotTrain_standardLoad s first q ptr len s.p PulseRegs.reset
    refine (congrArg (closeBlock o · goOn _) train).trans (closeBlock_eq_run x goOn s _ ?_ (onward _ rfl rfl))
    simp [x, Effect.train, Effect.block, Effect.pass, State.loadPilotCount, State.loadPayload, State.loadStandard,
      pilotCountLoad, standardLoad, payloadLoad]

@[simp] theorem standard_cur (s : State) (o : Nat) (q : Option Half) (ptr : Nat) (len : Half) :
    (Effect.standard s o q ptr len).cur = s.cur + 1 := by
  unfold Effect.standard; split <;> rfl

@[simp] theorem standard_pos (s : State) (o : Nat) (q : Option Half) (ptr : Nat) (len : Half) :
    (Effect.standard s o q ptr len).pos = s.pos := by
  unfold Effect.standard; split <;> rfl

/-- The tables lie where the loaded fields put them. -/
theorem gdbTables_gdbLoad (L : Layout) (first : Nat) (q : Option Half) (totp : Word32) (npp asp : Byte)
    (totd : Word32) (npd asd : Byte) (g g' : SymbolRegs) :
    gdbTables L (gdbLoad q totp npp asp totd npd asd g) first =
      gdbTables L (gdbLoad q totp npp asp totd npd asd g') first := rfl

/-- A generalized block plays only what it has loaded. -/
theorem gdbEmission_loadGdb (s : State) (t : GdbTables) (q : Option Half) (totp : Word32) (npp asp : Byte)
    (totd : Word32) (npd asd : Byte) :
    gdbEmission (s.loadGdb q totp npp asp totd npd asd) t = gdbEmission (blankGdb s q totp npp asp totd npd asd) t := by
  have stream : ∀ g g' : SymbolRegs,
      (dataStream s.layout s.params.symIndexMsbFirst s.img
        ((gdbLoad q totp npp asp totd npd asd g).usePilotTables t) t).out =
      (dataStream s.layout s.params.symIndexMsbFirst s.img
        ((gdbLoad q totp npp asp totd npd asd g').usePilotTables t) t).out := by
    intro g g'
    unfold dataStream SymbolRegs.usePilotTables
    by_cases pilots : 0 < totp.toNat <;> by_cases datas : 0 < totd.toNat <;> simp [gdbLoad, pilots, datas]
  unfold gdbEmission blankGdb
  rw [gdbPause_loadGdb, gdbPause_loadGdb]
  exact congrArg (fun e => Emission.seq _ (Emission.seq e _)) (stream s.g SymbolRegs.reset)

/-- A generalized block does what its effect says. -/
theorem execGdb_eq_run {s : State} {e : Entry} (entry : s.bt[s.cur]? = some e) (blen : Word32) (q : Option Half)
    (totp : Word32) (npp asp : Byte) (totd : Word32) (npd asd : Byte) :
    execGdb blen q totp npp asp totd npd asd s =
      .next ((Effect.gdb s e.offset q totp npp asp totd npd asd).run s) := by
  have loaded : (s.loadGdb q totp npp asp totd npd asd).reportAlphabet asp asd =
      { s.loadGdb q totp npp asp totd npd asd with diag := s.diag ++ alphabetEvents s asp asd } := by
    unfold State.reportAlphabet alphabetEvents
    split
    · exact report_eq_reported _ _
    · rw [List.append_nil]; rfl
  rw [execGdb, atBlock_of_entry entry]
  dsimp only
  rw [loaded]
  let t := gdbTables s.layout (blankGdb s q totp npp asp totd npd asd).g (e.offset + 1 + s.layout.gdb.tables)
  by_cases beyond : s.len < t.stop
  · refine (if_pos beyond).trans ?_
    rw [run_of_halt_truncated (if_pos beyond)]
    simp only [Effect.gdb]
    rw [if_pos beyond]
    rfl
  · refine (if_neg beyond).trans ?_
    rw [gdbReplay_eq]
    let x := Effect.gdb s e.offset q totp npp asp totd npd asd
    have played : gdbEmission (s.loadGdb q totp npp asp totd npd asd) t = x.out :=
      (gdbEmission_loadGdb s t q totp npp asp totd npd asd).trans (if_neg beyond).symm
    refine (congrArg (closeBlock e.offset · _ _) played).trans (closeBlock_eq_run x _ s _ ?_ rfl)
    simp only [x, Effect.gdb]
    rw [if_neg beyond]
    rfl

/-- A block with a pause field of the layout's own does what its effect says, if its rule does. -/
theorem readPause_eq_run (s : State) (o : Nat) (f : Option FieldPos) (rule : Option Half → Result)
    (ruleEffect : Option Half → Effect) (rules : ∀ q, rule q = .next ((ruleEffect q).run s)) :
    readPause o f s rule = .next ((Effect.paused s o f ruleEffect).run s) := by
  rcases readPause_cases o f s rule with ⟨q, read, answer⟩ | ⟨missing, answer⟩
  · rw [answer, rules, Effect.paused, read]
  · rw [answer, Effect.paused, missing, run_of_halt_truncated rfl]
    simp [Effect.block, Effect.pass]

/-- A rule that needs a table entry does what its effect at the entry says, or faults. -/
theorem atBlock_eq_effect (s : State) (rule : Nat → Result) (ruleEffect : Entry → Effect)
    (rules : ∀ e, s.bt[s.cur]? = some e → rule e.offset = .next ((ruleEffect e).run s)) :
    atBlock s rule = ((s.bt[s.cur]?).map ruleEffect).elim (.fault .noBlockAtCursor) fun x => .next (x.run s) := by
  rcases atBlock_cases s rule with ⟨e, entry, answer⟩ | ⟨missing, answer⟩
  · rw [answer, entry]
    exact rules e entry
  · rw [answer, missing]
    rfl

/-- `exec` runs the effect, and faults where there is none. -/
theorem exec_eq_effect (i : Instr) (s : State) :
    exec i s = (effect i s).elim (.fault .noBlockAtCursor) fun x => .next (x.run s) := by
  cases i with
  | std q len =>
    show execStd q len s = _
    refine atBlock_eq_effect s _ _ fun e _ => ?_
    by_cases empty : len = 0
    · simp only [empty, if_true]
      rw [run_of_halt_refuse rfl]
      simp [Effect.block, Effect.pass, payloadLoad, State.loadPayload]
    · simp only [empty, if_false]
      have onward (u : State) (cur : u.cur = s.cur) (pos : u.pos = s.pos) :
          u.nextBlock = { u with cur := s.cur + 1, pos := s.pos } := by rw [← cur, ← pos]; rfl
      rw [standardSignal_eq_run s _ q _ len _ _ _ onward, ← standard_cur s e.offset q _ len, ← standard_pos]
  | turbo pilotLength sync1 sync2 bit0 bit1 pilotCount usedBits q len =>
    show execTurbo pilotLength sync1 sync2 bit0 bit1 pilotCount usedBits q len s = _
    refine atBlock_eq_effect s _ _ fun e _ => ?_
    exact closeBlock_eq_run_block s e.offset (turboLoad pilotLength sync1 sync2 bit0 bit1 pilotCount usedBits q len
      (e.offset + 1 + s.layout.turbo.data)) (pilotTrain_turboLoad ..)
  | pdata bit0 bit1 usedBits q len =>
    show execPdata bit0 bit1 usedBits q len s = _
    refine atBlock_eq_effect s _ _ fun e _ => ?_
    exact closeBlock_eq_run_block s e.offset (pdataLoad bit0 bit1 usedBits q len
      (e.offset + 1 + s.layout.pdata.data)) (pilotTrain_turboLoad ..)
  | tone pulseLength count =>
    show execTone pulseLength count s = _
    refine atBlock_eq_effect s _ _ fun e _ => readPause_eq_run s _ _ _ _ fun q => ?_
    exact closeBlock_eq_run_block s e.offset (toneLoad pulseLength count q) rfl
  | pulses n =>
    show execPulses n s = _
    refine atBlock_eq_effect s _ _ fun e _ => readPause_eq_run s _ _ _ _ fun q => ?_
    exact closeBlock_eq_run_block s e.offset (pulsesLoad n q (e.offset + 1 + s.layout.pulses.list.off))
      (by cases q <;> rfl)
  | direct tps q used len =>
    show execDirect tps q used len s = _
    refine atBlock_eq_effect s _ _ fun e _ => ?_
    exact closeBlock_eq_run_block s e.offset (directLoad tps q used len (e.offset + 1 + s.layout.direct.data))
      (directRecording_directLoad ..)
  | gdb blen q totp npp asp totd npd asd =>
    show execGdb blen q totp npp asp totd npd asd s = _
    refine atBlock_eq_effect s _ _ fun e entry => ?_
    rw [← execGdb_eq_run entry blen, execGdb, atBlock_of_entry entry]
  | pause q =>
    exact closeBlock_eq_run_block s 0 (fun p => p.loadPause (some (stopPause q))) (out := Emission.all _) rfl
  | loops count =>
    show execLoops count s = .next (Effect.run _ s)
    rw [run_of_silent rfl]
    simp [execLoops, Effect.pass]
  | loope =>
    show execLoope s = .next ((Effect.loope s).run s)
    unfold execLoope Effect.loope
    split <;> rw [run_of_silent rfl] <;> simp [Effect.pass]
  | taprec n =>
    show execTaprec n s = .next _
    unfold execTaprec
    by_cases empty : n = 0
    · simp only [empty, if_true]
      rw [run_of_halt_refuse rfl]
      simp [Effect.block, Effect.pass]
    · simp only [empty, if_false]
      exact standardSignal_eq_run s _ (some tapPauseMs) _ n _ _ _ fun u cur pos => by
        simp [State.nextRecord, ← cur, ← pos]
  | c64rom _ | c64turbo _ | csw _ | grps _ | grpe | jump _ | callseq _ | ret | select _ | stop48 _ | setlvl _
  | text _ | msg _ _ | archive _ | hwtype _ | emuinfo | custom _ _ | snap _ _ | glue | unknown _ _ =>
    exact congrArg _ (skip_eq_run s)

end Sys2Proof.Machine
end

section
/-! The frame of every instruction, and what no instruction reads (10_state.md section 2, 20_memory.md). -/

namespace Sys2Proof.Machine

open Sys2Proof

/-! ### What running an effect leaves unchanged -/

@[simp] theorem run_input (x : Effect) (s : State) : (x.run s).input = s.input := by
  unfold Effect.run; split <;> rfl
@[simp] theorem run_bt (x : Effect) (s : State) : (x.run s).bt = s.bt := by
  unfold Effect.run; split <;> rfl
@[simp] theorem run_p (x : Effect) (s : State) : (x.run s).p = x.loadP s.p := by
  unfold Effect.run; split <;> rfl
@[simp] theorem run_g (x : Effect) (s : State) : (x.run s).g = x.loadG s.g := by
  unfold Effect.run; split <;> rfl
@[simp] theorem run_diag (x : Effect) (s : State) : (x.run s).diag = s.diag ++ x.events := by
  unfold Effect.run; split <;> rfl
@[simp] theorem run_sink (x : Effect) (s : State) : (x.run s).sink = s.sink.applyAll x.out.cmds := by
  unfold Effect.run; split <;> rfl
@[simp] theorem run_trace (x : Effect) (s : State) : (x.run s).trace = s.trace ++ x.out.cmds := by
  unfold Effect.run; split <;> rfl

/-- An effect ends in the phase it found, in Failed, or in Refused, and only then in an error or a reason. -/
theorem run_cases (x : Effect) (s : State) :
    (x.out.stop = none ∧ (x.run s).phase = s.phase ∧ (x.run s).err = s.err ∧ (x.run s).why = s.why ∧
      (x.run s).cur = x.cur ∧ (x.run s).pos = x.pos ∧ (x.run s).loop = x.loop s.loop) ∨
    (x.out.stop = some .truncated ∧ (x.run s).phase = .failed ∧ (x.run s).err = some (.truncatedBlock x.offset) ∧
      (x.run s).why = s.why ∧ (x.run s).cur = s.cur ∧ (x.run s).pos = s.pos ∧ (x.run s).loop = s.loop) ∨
    (∃ w, x.out.stop = some (.refuse w) ∧ (x.run s).phase = .refused ∧ (x.run s).err = s.err ∧
      (x.run s).why = some w ∧ (x.run s).cur = s.cur ∧ (x.run s).pos = s.pos ∧ (x.run s).loop = s.loop) := by
  unfold Effect.run
  match stop : x.out.stop with
  | none => exact .inl ⟨rfl, rfl, rfl, rfl, rfl, rfl, rfl⟩
  | some .truncated => exact .inr (.inl ⟨rfl, rfl, rfl, rfl, rfl, rfl, rfl⟩)
  | some (.refuse w) => exact .inr (.inr ⟨w, rfl, rfl, rfl, rfl, rfl, rfl, rfl⟩)

/-- An instruction answers a next state exactly where it has an effect. -/
theorem exec_eq_next {i : Instr} {s t : State} : exec i s = .next t ↔ ∃ x, effect i s = some x ∧ t = x.run s := by
  rw [exec_eq_effect]
  cases effect i s with
  | none => simp
  | some x => simp [eq_comm]

/-- An instruction faults exactly where it has no effect. -/
theorem exec_eq_fault {i : Instr} {s : State} {f : Fault} :
    exec i s = .fault f ↔ effect i s = none ∧ f = .noBlockAtCursor := by
  rw [exec_eq_effect]
  cases effect i s with
  | none => simp [eq_comm]
  | some x => simp

/-! ### The kinds of effects -/

/-- The rows of the blocks that load `P.*`, all but `GDB`'s. -/
def isSignalRow : Op → Bool
  | .std | .turbo | .tone | .pulses | .pdata | .direct | .pause => true
  | _ => false

theorem mem_of_isSignalRow {op : Op} (loads : isSignalRow op = true) :
    op ∈ ([.std, .turbo, .tone, .pulses, .pdata, .direct, .gdb, .pause] : List Op) := by
  cases op <;> simp [isSignalRow] at loads ⊢

/-- The effects an instruction can have, by the kind of its row. -/
inductive Effect.Of (s : State) : Instr → Effect → Prop where
  | block {i : Instr} {op : Op} (isRow : i.op? = some op) (loads : isSignalRow op = true) (tzx : i.kind = .tzx)
      (o : Nat) (load : PulseRegs → PulseRegs) (out : Emission) : Of s i (Effect.block s o load out)
  | gdb (blen : Word32) (q : Option Half) (totp : Word32) (npp asp : Byte) (totd : Word32) (npd asd : Byte)
      (o : Nat) : Of s (.gdb blen q totp npp asp totd npd asd) (Effect.gdb s o q totp npp asp totd npd asd)
  | loops (count : Half) : Of s (.loops count)
      { Effect.pass s with loop := fun _ => { cnt := count, ret := s.cur + 1, active := true } }
  | loope : Of s .loope (Effect.loope s)
  | skip {i : Instr} (skips : ∀ op, i.op? = some op → Op.skips op = true) (tzx : i.kind = .tzx) :
      Of s i { Effect.pass s with events := skipEvents s }
  | record (n : Half) (o : Nat) (load : PulseRegs → PulseRegs) (out : Emission) : Of s (.taprec n)
      { Effect.block s o load out with cur := s.cur, pos := s.pos + recordPrefix + n.toNat }

/-- A standard-speed payload loads `P.*` and emits. -/
theorem standard_eq_block (s : State) (o : Nat) (q : Option Half) (ptr : Nat) (len : Half) :
    ∃ load out, Effect.standard s o q ptr len = Effect.block s o load out := by
  unfold Effect.standard
  split
  · exact ⟨_, _, rfl⟩
  · exact ⟨_, _, rfl⟩

/-- A block whose pause is read from the image loads `P.*` and emits. -/
theorem paused_eq_block (s : State) (o : Nat) (f : Option FieldPos) (rule : Option Half → Effect)
    (rules : ∀ q, ∃ load out, rule q = Effect.block s o load out) :
    ∃ load out, Effect.paused s o f rule = Effect.block s o load out := by
  unfold Effect.paused
  split
  · exact ⟨_, _, rfl⟩
  · exact rules _

/-- Every effect is of its instruction's kind. -/
theorem effect_of {i : Instr} {s : State} {x : Effect} (has : effect i s = some x) : Effect.Of s i x := by
  cases i with
  | std q len =>
    obtain ⟨e, _, rfl⟩ := Option.map_eq_some_iff.1 has
    dsimp only
    split
    · exact .block rfl rfl rfl _ _ _
    · obtain ⟨load, out, same⟩ := standard_eq_block s e.offset q (e.offset + 1 + s.layout.std.data) len
      rw [same]
      exact .block rfl rfl rfl _ _ _
  | turbo | pdata | direct =>
    obtain ⟨e, _, rfl⟩ := Option.map_eq_some_iff.1 has
    exact .block rfl rfl rfl _ _ _
  | tone pulseLength count =>
    obtain ⟨e, _, rfl⟩ := Option.map_eq_some_iff.1 has
    obtain ⟨load, out, same⟩ := paused_eq_block s e.offset s.layout.tone.pause
      (fun q => Effect.train s e.offset (toneLoad pulseLength count q)) fun q => ⟨_, _, rfl⟩
    rw [same]
    exact .block rfl rfl rfl _ _ _
  | pulses n =>
    obtain ⟨e, _, rfl⟩ := Option.map_eq_some_iff.1 has
    obtain ⟨load, out, same⟩ := paused_eq_block s e.offset s.layout.pulses.pause _ fun q => ⟨_, _, rfl⟩
    rw [same]
    exact .block rfl rfl rfl _ _ _
  | gdb blen q totp npp asp totd npd asd =>
    obtain ⟨e, _, rfl⟩ := Option.map_eq_some_iff.1 has
    exact .gdb ..
  | pause q => cases has; exact .block rfl rfl rfl _ _ _
  | loops count => cases has; exact .loops count
  | loope => cases has; exact .loope
  | taprec n =>
    cases has
    split
    · exact .record n _ _ _
    · obtain ⟨load, out, same⟩ := standard_eq_block s s.pos (some tapPauseMs) (s.pos + recordPrefix) n
      rw [same]
      exact .record n _ _ _
  | c64rom _ | c64turbo _ | csw _ | grps _ | grpe | jump _ | callseq _ | ret | select _ | stop48 _ | setlvl _
  | text _ | msg _ _ | archive _ | hwtype _ | emuinfo | custom _ _ | snap _ _ | glue | unknown _ _ =>
    cases has
    exact .skip (by simp [Instr.op?, Op.skips]) rfl

/-! ### The frame -/

section
variable {s : State} {i : Instr} {x : Effect} (of : Effect.Of s i x)
include of

theorem Effect.Of.loop_eq (notStart : i.op? ≠ some .loops) (notEnd : i.op? ≠ some .loope) : x.loop = id := by
  cases of with
  | loops => exact absurd rfl notStart
  | loope => exact absurd rfl notEnd
  | block | gdb | skip | record => rfl

theorem Effect.Of.pos_eq (tzx : i.kind = .tzx) : x.pos = s.pos := by
  cases of with
  | record => cases tzx
  | loope => unfold Effect.loope; split <;> rfl
  | block | gdb | loops | skip => rfl

theorem Effect.Of.record_cur (tap : i.kind = .tap) : x.cur = s.cur ∧ x.events = [] := by
  cases of with
  | record => exact ⟨rfl, rfl⟩
  | block _ _ tzx | skip _ tzx => rw [tap] at tzx; cases tzx
  | gdb | loops | loope => cases tap

theorem Effect.Of.loadG_eq (notGdb : i.op? ≠ some .gdb) : x.loadG = id := by
  cases of with
  | gdb => exact absurd rfl notGdb
  | loope => unfold Effect.loope; split <;> rfl
  | block | loops | skip | record => rfl

/-- Control and skipped blocks load nothing and emit nothing. -/
theorem Effect.Of.silent (tzx : i.kind = .tzx)
    (noSignal : i.op? ∉ ([.std, .turbo, .tone, .pulses, .pdata, .direct, .gdb, .pause] : List Op).map some) :
    x.loadP = id ∧ x.out = Emission.all [] := by
  cases of with
  | record => cases tzx
  | gdb => simp [Instr.op?] at noSignal
  | block isRow loads => exact absurd (isRow ▸ List.mem_map_of_mem (mem_of_isSignalRow loads)) noSignal
  | loope => unfold Effect.loope; split <;> exact ⟨rfl, rfl⟩
  | loops | skip => exact ⟨rfl, rfl⟩

theorem Effect.Of.gdb_loadP (gdb : i.op? = some .gdb) (p : PulseRegs) :
    x.loadP p = { p with hasPause := (x.loadP p).hasPause } := by
  cases of with
  | gdb => rfl
  | block isRow loads => rw [isRow] at gdb; cases gdb; cases loads
  | skip skips => cases skips _ gdb
  | loops | loope | record => cases gdb

end

/-- Settles O49: each clause is a fact about the kinds of effects, and what a stop discards, the way on, is in none
of them. -/
theorem instructionsKeepTheirFrame : Obligations.InstructionsKeepTheirFrame := by
  intro i s t ran
  obtain ⟨x, has, rfl⟩ := exec_eq_next.1 ran
  have of := effect_of has
  refine ⟨run_input x s, fun a => congrArg (fun m : Input => m.img.read a) (run_input x s), run_bt x s,
    ⟨x.out.cmds, run_trace x s, run_sink x s⟩, ?_, ?_, ?_, ?_, ?_, ?_, ?_, ?_, ?_, ?_⟩
  · intro notStart notEnd
    rcases run_cases x s with ⟨_, _, _, _, _, _, loop⟩ | ⟨_, _, _, _, _, _, loop⟩ | ⟨_, _, _, _, _, _, _, loop⟩
    · rw [loop, of.loop_eq notStart notEnd]; rfl
    · exact loop
    · exact loop
  · intro tzx
    rcases run_cases x s with ⟨_, _, _, _, _, pos, _⟩ | ⟨_, _, _, _, _, pos, _⟩ | ⟨_, _, _, _, _, _, pos, _⟩
    · rw [pos, of.pos_eq tzx]
    · exact pos
    · exact pos
  · intro tap
    obtain ⟨stays, noEvent⟩ := of.record_cur tap
    refine ⟨?_, by simp [noEvent]⟩
    rcases run_cases x s with ⟨_, _, _, _, cur, _⟩ | ⟨_, _, _, _, cur, _⟩ | ⟨_, _, _, _, _, cur, _⟩
    · rw [cur, stays]
    · exact cur
    · exact cur
  · intro notGdb; rw [run_g, of.loadG_eq notGdb]; rfl
  · intro tzx noSignal; rw [run_p, (of.silent tzx noSignal).1]; rfl
  · intro gdb; rw [run_p]; exact of.gdb_loadP gdb s.p
  · intro tzx noSignal; simp [(of.silent tzx noSignal).2]
  · rcases run_cases x s with ⟨_, phase, _⟩ | ⟨_, phase, _⟩ | ⟨_, _, phase, _⟩ <;> simp [phase]
  · rcases run_cases x s with ⟨_, _, err, _⟩ | ⟨_, phase, _⟩ | ⟨_, _, _, err, _⟩ <;> simp [*]
  · rcases run_cases x s with ⟨_, _, _, why, _⟩ | ⟨_, _, _, why, _⟩ | ⟨_, _, phase, _⟩ <;> simp [*]

/-! ### What is not read -/

/-- An instruction's effect reads no register of `P.*` and `G.*`, and of the loop context `LOOP_RET` only where it
is active (R23, R36). -/
theorem effect_of_registers (i : Instr) (s : State) (p : PulseRegs) (g : SymbolRegs) (r : Nat)
    (kept : s.loop.active = true → r = s.loop.ret) :
    effect i { s with p := p, g := g, loop := { s.loop with ret := r } } = effect i s := by
  cases i with
  | loope =>
    refine congrArg some ?_
    unfold Effect.loope
    by_cases back : s.loop.goesBack = true
    · have active : s.loop.active = true := (goesBack_iff.1 back).1
      rw [if_pos (show LoopContext.goesBack { s.loop with ret := r } = true from back), if_pos back, kept active]
      rfl
    · rw [if_neg (show ¬LoopContext.goesBack { s.loop with ret := r } = true from back), if_neg back]
      rfl
  | _ => rfl

/-- What becomes of the loop context does not depend on its `LOOP_RET`, and where it leaves the context active it
keeps a `LOOP_RET` that an active context had. -/
theorem Effect.Of.loop_ret {s : State} {i : Instr} {x : Effect} (of : Effect.Of s i x) (l : LoopContext) (r : Nat)
    (kept : l.active = true → r = l.ret) :
    ∃ r', x.loop { l with ret := r } = { x.loop l with ret := r' } ∧
      ((x.loop l).active = true → r' = (x.loop l).ret) := by
  cases of with
  | loops => exact ⟨_, rfl, fun _ => rfl⟩
  | loope =>
    unfold Effect.loope
    split
    · exact ⟨r, rfl, kept⟩
    · exact ⟨r, rfl, fun active => by cases active⟩
  | block | gdb | skip | record => exact ⟨r, rfl, kept⟩

/-- Settles O50: over other contents of the registers an instruction has the same effect, and running it differs
only in what those registers hold. -/
theorem noUnwrittenRegisterIsRead : Obligations.NoUnwrittenRegisterIsRead := by
  intro i s p g r u
  have kept (active : s.loop.active = true) : u.loop.ret = s.loop.ret := if_pos active
  have same : effect i u = effect i s := effect_of_registers i s p g _ kept
  refine ⟨fun t ran => ?_, fun f faults => ?_⟩
  · obtain ⟨x, has, rfl⟩ := exec_eq_next.1 ran
    obtain ⟨r', loops, ret⟩ := (effect_of has).loop_ret s.loop u.loop.ret kept
    have runs : exec i u = .next (x.run u) := exec_eq_next.2 ⟨x, same.trans has, rfl⟩
    have loops' : x.loop u.loop = { x.loop s.loop with ret := r' } := loops
    rw [runs]
    unfold Effect.run
    match x.out.stop with
    | none => exact ⟨x.loadP p, x.loadG g, r', by simp only [loops']; rfl, ret⟩
    | some .truncated => exact ⟨x.loadP p, x.loadG g, u.loop.ret, rfl, kept⟩
    | some (.refuse w) => exact ⟨x.loadP p, x.loadG g, u.loop.ret, rfl, kept⟩
  · obtain ⟨none, rfl⟩ := exec_eq_fault.1 faults
    exact exec_eq_fault.2 ⟨same.trans none, rfl⟩

/-- Settles O48: the instructions that need a table entry are those whose effect is looked up at one. -/
theorem blocksNeedATableEntry : Obligations.BlocksNeedATableEntry := by
  intro i s missing
  rw [exec_eq_fault]
  cases i <;> simp [effect, missing, Instr.op?]

end Sys2Proof.Machine
end

section
/-! The step by phase: session start, indexing, and the four things the running phase does (41_sequencer.md,
47_tap_adapter.md). -/

namespace Sys2Proof.Machine

open Sys2Proof

theorem step_of_idle {s : State} (idle : s.phase = .idle) : step s = .next (startSession s) := by
  simp [step, idle]

theorem step_of_indexing {s : State} (indexing : s.phase = .indexing) : step s = .next (indexStep s) := by
  simp [step, indexing]

theorem startSession_of_tzx {s : State} (tzx : s.input.kind = .tzx) : startSession s = startTzx s := by
  simp [startSession, tzx]

theorem startSession_of_tap {s : State} (tap : s.input.kind = .tap) : startSession s = startTap s := by
  simp [startSession, tap]

/-- The first header error ends the session (R123). -/
theorem startTzx_of_error {s : State} {e : FatalError} (error : headerError s.params s.img = some e) :
    startTzx s = { s with phase := .failed, err := some e } := by
  unfold startTzx; dsimp only; rw [error]; rfl

/-- A header without error starts the indexer behind it (R124). -/
theorem startTzx_of_accepted {s : State} (accepted : headerError s.params s.img = none) :
    startTzx s = { s with phase := .indexing, pos := headerLen, bt := [] } := by
  unfold startTzx; dsimp only; rw [accepted]

theorem indexStep_of_read {s : State} {t : Byte} (read : s.img.read s.pos = some t) : indexStep s = indexBlock t s := by
  simp [indexStep, read]

/-- The indexer at the end of the image, with an empty table. -/
theorem indexStep_of_empty {s : State} (unread : s.img.read s.pos = none) (empty : s.bt = []) :
    indexStep s = s.raise .empty := by
  simp [indexStep, unread, endIndexing, empty]

/-- The indexer at the end of the image, with a table. -/
theorem indexStep_of_blocks {s : State} (unread : s.img.read s.pos = none) (blocks : s.bt ≠ []) :
    indexStep s = prologue s := by
  simp [indexStep, unread, endIndexing, blocks]

/-- What the running phase does: the epilogue, an instruction, a skipped block whose fields are not read, or the
error of a block or record that does not fit. -/
inductive Move where
  | finish
  | run (i : Instr)
  | skip
  | fail (offset : Nat)

/-- The move at a table entry (R133, R134, R230). -/
def moveAt (s : State) (e : Entry) : Move :=
  if blockFits s e then
    match decodeBody s.layout s.img e.type (e.offset + 1) with
    | some i => .run i
    | none => if s.layout.skips e.type then .skip else .fail e.offset
  else .fail e.offset

/-- The move of a running session (R131, R260). -/
def move (s : State) : Move :=
  match s.input.kind with
  | .tzx =>
    match s.bt[s.cur]? with
    | none => .finish
    | some e => moveAt s e
  | .tap =>
    if s.len ≤ s.pos then .finish
    else
      match fetchRecord s with
      | some i => .run i
      | none => .fail s.pos

/-- The epilogue of either container (R132, R264). -/
def anyEpilogue (s : State) : State :=
  match s.input.kind with
  | .tzx => epilogue s
  | .tap => epilogueTap s

theorem anyEpilogue_of_tzx {s : State} (tzx : s.input.kind = .tzx) : anyEpilogue s = epilogue s := by
  simp [anyEpilogue, tzx]

theorem anyEpilogue_of_tap {s : State} (tap : s.input.kind = .tap) : anyEpilogue s = epilogueTap s := by
  simp [anyEpilogue, tap]

/-- What a move answers. -/
def Move.perform (v : Move) (s : State) : Result :=
  match v with
  | .finish => .next (anyEpilogue s)
  | .run i => exec i s
  | .skip => .next s.skip
  | .fail o => .next (s.raise (.truncatedBlock o))

/-- A block that fits is run, or skipped where its fields cannot be read and need not be. -/
theorem runEntry_eq_perform (s : State) (e : Entry) :
    (if blockFits s e then runEntry s e else .next (s.raise (.truncatedBlock e.offset))) =
      (moveAt s e).perform s := by
  unfold moveAt runEntry
  cases blockFits s e with
  | false => rfl
  | true =>
    cases decodeBody s.layout s.img e.type (e.offset + 1) with
    | some i => rfl
    | none => cases s.layout.skips e.type <;> rfl

/-- A running session performs its move. -/
theorem step_of_running {s : State} (running : s.phase = .running) : step s = (move s).perform s := by
  simp only [step, running, runStep, move]
  cases kind : s.input.kind with
  | tzx =>
    unfold runBlock
    cases s.bt[s.cur]? with
    | none => rw [Move.perform, anyEpilogue_of_tzx kind]
    | some e => exact runEntry_eq_perform s e
  | tap =>
    simp only [runRecord]
    split_ifs
    · rw [Move.perform, anyEpilogue_of_tap kind]
    · cases fetchRecord s <;> rfl

/-- A TZX session past its table finishes. -/
theorem move_of_no_entry {s : State} (tzx : s.input.kind = .tzx) (missing : s.bt[s.cur]? = none) :
    move s = .finish := by simp [move, tzx, missing]

theorem move_of_entry {s : State} {e : Entry} (tzx : s.input.kind = .tzx) (entry : s.bt[s.cur]? = some e) :
    move s = moveAt s e := by simp [move, tzx, entry]

/-- A block that does not fit the image fails (R133). -/
theorem moveAt_of_not_fits {s : State} {e : Entry}
    (overruns : ∀ size, bodySize s.layout s.img e.type (e.offset + 1) = some size → s.len < e.offset + 1 + size) :
    moveAt s e = .fail e.offset := by
  have not_fits : blockFits s e = false := by
    unfold blockFits
    cases sized : bodySize s.layout s.img e.type (e.offset + 1) with
    | none => rfl
    | some size => exact decide_eq_false (by have := overruns size sized; omega)
  simp [moveAt, not_fits]

/-- A block that fits the image and cannot be read is skipped, or fails (R230, R56; log 28). -/
theorem moveAt_of_no_fields {s : State} {e : Entry}
    (unread : decodeBody s.layout s.img e.type (e.offset + 1) = none) (reads : s.layout.skips e.type = false) :
    moveAt s e = .fail e.offset := by
  simp [moveAt, unread, reads]

/-- The size of a block that fits. -/
theorem exists_size_of_fits {s : State} {e : Entry} (fits : blockFits s e = true) :
    ∃ size, bodySize s.layout s.img e.type (e.offset + 1) = some size ∧ e.offset + 1 + size ≤ s.len := by
  unfold blockFits at fits
  cases sized : bodySize s.layout s.img e.type (e.offset + 1) with
  | none => simp [sized] at fits
  | some size => exact ⟨size, rfl, by simpa [sized] using fits⟩

/-- The record that is fetched at `POS` lies in the image (R260, R262). -/
theorem fetchRecord_eq_some {s : State} {i : Instr} : fetchRecord s = some i ↔
    ∃ n, s.img.read16 s.pos = some n ∧ s.pos + 2 + n.toNat ≤ s.len ∧ i = .taprec n := by
  unfold fetchRecord decodeRecord
  cases read : s.img.read16 s.pos with
  | none => simp
  | some n =>
    have fits : recordFits s n = true ↔ s.pos + 2 + n.toNat ≤ s.len := decide_eq_true_iff
    simp only [fits, Option.map_some, Option.some.injEq]
    constructor
    · intro fetched
      split_ifs at fetched with within
      exact ⟨n, rfl, within, (Option.some.inj fetched).symm⟩
    · rintro ⟨_, rfl, within, rfl⟩
      exact if_pos within

/-- What is run of a TZX session is the block at `BT[CUR]`, which fits the image (R131, R133, R134). -/
theorem move_tzx_run {s : State} {i : Instr} (tzx : s.input.kind = .tzx) (run : move s = .run i) :
    ∃ e size, s.bt[s.cur]? = some e ∧ bodySize s.layout s.img e.type (e.offset + 1) = some size ∧
      e.offset + 1 + size ≤ s.len ∧ decodeBody s.layout s.img e.type (e.offset + 1) = some i := by
  cases entry : s.bt[s.cur]? with
  | none => rw [move_of_no_entry tzx entry] at run; cases run
  | some e =>
    rw [move_of_entry tzx entry, moveAt] at run
    by_cases fits : blockFits s e = true
    swap
    · rw [if_neg fits] at run; cases run
    rw [if_pos fits] at run
    obtain ⟨size, sized, within⟩ := exists_size_of_fits fits
    refine ⟨e, size, rfl, sized, within, ?_⟩
    cases decoded : decodeBody s.layout s.img e.type (e.offset + 1) with
    | some j => rw [decoded] at run; cases run; rfl
    | none => cases skips : s.layout.skips e.type <;> simp [decoded, skips] at run

/-- What is run of a TAP session is the record at `POS`, which fits the image (R260, R262). -/
theorem move_tap_run {s : State} {i : Instr} (tap : s.input.kind = .tap) (run : move s = .run i) :
    ∃ n, i = .taprec n ∧ s.pos + 2 + n.toNat ≤ s.len := by
  simp only [move, tap] at run
  split_ifs at run
  cases fetched : fetchRecord s with
  | none => rw [fetched] at run; cases run
  | some j =>
    rw [fetched] at run
    cases run
    obtain ⟨n, _, fits, rfl⟩ := fetchRecord_eq_some.1 fetched
    exact ⟨n, rfl, fits⟩

/-- A block's body decodes to an instruction of a TZX image. -/
theorem decodeBody_kind {L : Layout} {m : Memory} {t : Byte} {b : Nat} {i : Instr}
    (decoded : decodeBody L m t b = some i) : i.kind = .tzx := by
  unfold decodeBody at decoded
  split at decoded
  · exact (decodeRow_op decoded).2
  · simp only [decodeFallback, Option.bind_eq_bind, Option.bind_eq_some_iff, Option.some.injEq] at decoded
    obtain ⟨_, _, rfl⟩ := decoded
    rfl

/-- What is run belongs to the container of the session. -/
theorem move_run_kind {s : State} {i : Instr} (run : move s = .run i) : i.kind = s.input.kind := by
  cases kind : s.input.kind with
  | tzx => obtain ⟨_, _, _, _, _, decoded⟩ := move_tzx_run kind run; exact decodeBody_kind decoded
  | tap => obtain ⟨n, rfl, _⟩ := move_tap_run kind run; rfl

/-- What a running session runs has an effect: it has a table entry where it needs one. -/
theorem exists_effect_of_run {s : State} {i : Instr} (run : move s = .run i) : ∃ x, effect i s = some x := by
  cases kind : s.input.kind with
  | tzx =>
    obtain ⟨e, _, entry, _⟩ := move_tzx_run kind run
    cases i <;> exact ⟨_, by simp only [effect, entry]; rfl⟩
  | tap => obtain ⟨n, rfl, _⟩ := move_tap_run kind run; exact ⟨_, rfl⟩

/-- All that a step can answer. -/
theorem step_cases {s t : State} (stepped : step s = .next t) :
    (s.phase = .idle ∧ t = startSession s) ∨ (s.phase = .indexing ∧ t = indexStep s) ∨
    (s.phase = .running ∧
      ((move s = .finish ∧ t = anyEpilogue s) ∨ (∃ i x, move s = .run i ∧ effect i s = some x ∧ t = x.run s) ∨
        (move s = .skip ∧ t = s.skip) ∨ (∃ o, move s = .fail o ∧ t = s.raise (.truncatedBlock o)))) := by
  cases phase : s.phase with
  | idle => rw [step_of_idle phase] at stepped; cases stepped; exact .inl ⟨rfl, rfl⟩
  | indexing => rw [step_of_indexing phase] at stepped; cases stepped; exact .inr (.inl ⟨rfl, rfl⟩)
  | running =>
    rw [step_of_running phase] at stepped
    refine .inr (.inr ⟨rfl, ?_⟩)
    cases moves : move s with
    | finish => rw [moves] at stepped; cases stepped; exact .inl ⟨rfl, rfl⟩
    | run i =>
      rw [moves] at stepped
      obtain ⟨x, has, rfl⟩ := exec_eq_next.1 stepped
      exact .inr (.inl ⟨i, x, rfl, has, rfl⟩)
    | skip => rw [moves] at stepped; cases stepped; exact .inr (.inr (.inl ⟨rfl, rfl⟩))
    | fail o => rw [moves] at stepped; cases stepped; exact .inr (.inr (.inr ⟨o, rfl, rfl⟩))
  | done | failed | refused =>
    rw [step_eq_fault_of_ended (by rw [phase]; rfl)] at stepped
    cases stepped

/-- Every phase but the final three has a step. -/
theorem exists_step_of_live {s : State} (live : s.phase.ended = false) : ∃ t, step s = .next t := by
  cases phase : s.phase with
  | idle => exact ⟨_, step_of_idle phase⟩
  | indexing => exact ⟨_, step_of_indexing phase⟩
  | running =>
    rw [step_of_running phase]
    cases moves : move s with
    | run i =>
      obtain ⟨x, has⟩ := exists_effect_of_run moves
      exact ⟨x.run s, exec_eq_next.2 ⟨x, has, rfl⟩⟩
    | finish | skip | fail => exact ⟨_, rfl⟩
  | done | failed | refused => rw [phase] at live; cases live

/-- Settles O8: the live phases step, where a table entry has been fetched before one is needed; the final ones
fault. -/
theorem exactlyTheFinalPhasesHaveNoStep : Obligations.ExactlyTheFinalPhasesHaveNoStep := by
  intro s
  cases ended : s.phase.ended with
  | true => simp [step_eq_fault_of_ended ended]
  | false =>
    obtain ⟨t, stepped⟩ := exists_step_of_live ended
    simp [stepped]

/-- Settles O4: the earlier lemma on a block that fits and decodes is the statement. -/
theorem stepRunsTheDecodedBlock : Obligations.StepRunsTheDecodedBlock :=
  fun _ _ _ _ running tzx entry sized fits decoded => step_eq_exec_of_decodeBody running tzx entry sized fits decoded

/-- Settles O5: a record that fits is fetched, and it is not at the end of the image, for its two length bytes are
in it. -/
theorem stepRunsTheTapRecord : Obligations.StepRunsTheTapRecord := by
  intro s n running tap read fits
  refine ⟨by rw [decodeRecord, read]; rfl, ?_⟩
  have fetched : fetchRecord s = some (.taprec n) := fetchRecord_eq_some.2 ⟨n, read, fits, rfl⟩
  have inside : ¬s.len ≤ s.pos := by omega
  rw [step_of_running running]
  simp [move, tap, inside, fetched, Move.perform]

/-- Settles O6: a block fails by its size or by its fields, a record where the fetch finds none that fits. -/
theorem truncationFailsAtDispatch : Obligations.TruncationFailsAtDispatch := by
  refine ⟨fun s e running tzx entry broken => ?_, fun s running tap inside overruns => ?_⟩
  · have fails : move s = .fail e.offset := by
      rw [move_of_entry tzx entry]
      rcases broken with overruns | ⟨reads, unread⟩
      · exact moveAt_of_not_fits overruns
      · exact moveAt_of_no_fields unread reads
    rw [step_of_running running, fails]
    rfl
  · have unfetched : fetchRecord s = none := by
      by_contra fetched
      obtain ⟨i, fetched⟩ := Option.ne_none_iff_exists'.1 fetched
      obtain ⟨n, read, fits, _⟩ := fetchRecord_eq_some.1 fetched
      have := overruns n read
      omega
    rw [step_of_running running]
    simp [move, tap, show ¬s.len ≤ s.pos by omega, unfetched, Move.perform, State.raise]

/-! ### Session start, indexing, epilogue -/

/-- The signature matches exactly where its eight bytes stand at the offsets 0 to 7 (R121). -/
theorem signatureMatches_iff (m : Memory) : signatureMatches m = true ↔ ∀ k, k < 8 → m.read k = signature[k]? := by
  have length : signature.length = 8 := rfl
  rw [signatureMatches, decide_eq_true_eq, List.ext_getElem?_iff]
  constructor
  · intro same k below
    have := same k
    simpa [length, below, List.getElem?_range] using this
  · intro same k
    by_cases below : k < 8
    · simp [length, below, same k below]
    · simp [length, below]

/-- Settles O16: the first check that fails decides (R123). -/
theorem headerChecksInOrder : Obligations.HeaderChecksInOrder := by
  intro s idle tzx magic
  rw [step_of_idle idle, startSession_of_tzx tzx]
  have matching : signatureMatches s.img = true ↔ ∀ k, k < 8 → s.img.read k = magic[k]? := signatureMatches_iff s.img
  refine ⟨fun small => ?_, fun large ⟨k, below, differs⟩ => ?_, fun major large same version => ?_⟩
  · rw [startTzx_of_error (e := .tooSmall s.len) (by simp [headerError, headerLen, small])]
  · have mismatch : ¬signatureMatches s.img = true := fun same => differs (matching.1 same k below)
    rw [startTzx_of_error (e := .badSignature) (by simp [headerError, headerLen, mismatch, large])]
  · have version' : s.img.read signature.length = some major := version
    refine ⟨fun newer => ?_, fun supported => ?_⟩
    · rw [startTzx_of_error (e := .unsupportedVersion major)
        (by simp [headerError, headerLen, large, matching.2 same, version', newer])]
    · rw [startTzx_of_accepted
        (by simp [headerError, headerLen, not_lt.2 large, matching.2 same, version', not_lt.2 supported])]
      rfl

/-- Settles O17: the indexer reads a type byte at `POS`, so it records a block; `POS` moves by the block's size. -/
theorem indexerRecordsOneBlock : Obligations.IndexerRecordsOneBlock := by
  intro s t indexing read
  have records : step s = .next (indexBlock t s) := by rw [step_of_indexing indexing, indexStep_of_read read]
  refine ⟨fun size sized => ?_, fun overrun => ?_⟩
  · rw [records, indexBlock, sized]
  · rw [records, indexBlock, overrun]

/-- Settles O18: no type byte can be read at or beyond `LEN`. -/
theorem indexingEndsInEmptyOrPrologue : Obligations.IndexingEndsInEmptyOrPrologue := by
  intro s indexing beyond
  have unread := (read_eq_none s.img s.pos).2 beyond
  rw [step_of_indexing indexing]
  refine ⟨fun empty => ?_, fun blocks => ?_⟩
  · rw [indexStep_of_empty unread empty]
    rfl
  · rw [indexStep_of_blocks unread blocks]
    rfl

theorem tapFrame_of_true {pr : Params} (framed : pr.tapPrologueEpilogue = true) (cs : List Command) :
    tapFrame pr cs = cs := if_pos framed

theorem tapFrame_of_false {pr : Params} (bare : pr.tapPrologueEpilogue = false) (cs : List Command) :
    tapFrame pr cs = [] := by simp [tapFrame, bare]

/-- Settles O19: the one step of a TAP session's start is the frame's first command, if there is a frame. -/
theorem tapSessionStartsRunning : Obligations.TapSessionStartsRunning := by
  intro s idle tap
  have starts : step s = .next { ({ s with phase := .running } : State).emitAll (tapFrame s.params [.setLevelLow]) with
      pos := 0 } := by rw [step_of_idle idle, startSession_of_tap tap]; rfl
  rw [starts]
  refine ⟨fun framed => ?_, fun bare => ?_⟩
  · rw [tapFrame_of_true framed]
    rfl
  · rw [tapFrame_of_false bare]
    simp

/-- Settles O20: behind the last block or record the move is the epilogue. -/
theorem epilogueEmitsOneMillisecond : Obligations.EpilogueEmitsOneMillisecond := by
  refine ⟨fun s running tzx atEnd => ?_, fun s running tap atEnd => ?_⟩
  · have finishes : move s = .finish := move_of_no_entry tzx (by simp [atEnd])
    rw [step_of_running running, finishes, Move.perform, anyEpilogue_of_tzx tzx]
    rfl
  · have finishes : move s = .finish := by simp [move, tap, atEnd]
    rw [step_of_running running, finishes, Move.perform, anyEpilogue_of_tap tap]
    dsimp only [epilogueTap]
    refine ⟨fun framed => ?_, fun bare => ?_⟩
    · rw [tapFrame_of_true framed]
      rfl
    · rw [tapFrame_of_false bare]
      simp

end Sys2Proof.Machine
end

section
/-! What a step does to the trace and the sink, and that it reads neither the sink nor `AW` (10_state.md section 9,
40_sink_commands.md section 4, 00_scope.md section 6): it emits some commands, and over any other sink and any other
width of an offset it does the same and emits the same. -/

namespace Sys2Proof.Machine

open Sys2Proof

/-- The state over another sink and another `AW`. -/
def State.under (s : State) (k : Sink) (w : Nat) : State :=
  { s with sink := k, input := { s.input with params := { s.params with offsetWidth := w } } }

/-- `t` is `s` after `cs`, over the inputs of `s`. -/
structure Emits (s t : State) (cs : List Command) : Prop where
  input : t.input = s.input
  trace : t.trace = s.trace ++ cs
  sink : t.sink = s.sink.applyAll cs

/-- From `s` the machine emits `cs` and comes to `t`, and so it does over any sink and any `AW`. -/
structure Plays (f : State → Result) (s t : State) (cs : List Command) : Prop extends Emits s t cs where
  blind : ∀ k w, f (s.under k w) = .next (t.under (k.applyAll cs) w)

theorem Emits.trans {s t u : State} {cs ds : List Command} (first : Emits s t cs) (second : Emits t u ds) :
    Emits s u (cs ++ ds) where
  input := second.input.trans first.input
  trace := by rw [second.trace, first.trace, List.append_assoc]
  sink := by rw [second.sink, first.sink, applyAll_append]

/-- Over its own `AW` a state with its inputs unchanged differs in its sink alone. -/
theorem under_own {s t : State} (kept : t.input = s.input) (k : Sink) :
    t.under k s.params.offsetWidth = { t with sink := k } := by
  unfold State.under State.params
  rw [← kept]

/-- Over its own sink a state with its inputs unchanged differs in `AW` alone. -/
theorem under_sink {s t : State} (kept : t.input = s.input) (w : Nat) :
    t.under t.sink w = { t with input := { s.input with params := { s.params with offsetWidth := w } } } := by
  unfold State.under State.params
  rw [kept]

/-! ### The parts of a step -/

theorem plays_startSession (s : State) :
    ∃ cs, Plays (fun u => .next (startSession u)) s (startSession s) cs := by
  cases kind : s.input.kind with
  | tzx =>
    have kinds (k : Sink) (w : Nat) : (s.under k w).input.kind = .tzx := kind
    rw [startSession_of_tzx kind]
    refine ⟨[], ?_⟩
    cases error : headerError s.params s.img with
    | some e =>
      have errors (k : Sink) (w : Nat) : headerError (s.under k w).params (s.under k w).img = some e := error
      rw [startTzx_of_error error]
      exact ⟨⟨rfl, by simp, rfl⟩, fun k w => by rw [startSession_of_tzx (kinds k w), startTzx_of_error (errors k w)]; rfl⟩
    | none =>
      have accepted (k : Sink) (w : Nat) : headerError (s.under k w).params (s.under k w).img = none := error
      rw [startTzx_of_accepted error]
      exact ⟨⟨rfl, by simp, rfl⟩, fun k w => by
        rw [startSession_of_tzx (kinds k w), startTzx_of_accepted (accepted k w)]; rfl⟩
  | tap =>
    have kinds (k : Sink) (w : Nat) : (s.under k w).input.kind = .tap := kind
    rw [startSession_of_tap kind]
    exact ⟨tapFrame s.params [.setLevelLow], ⟨rfl, rfl, rfl⟩, fun k w => by rw [startSession_of_tap (kinds k w)]; rfl⟩

theorem plays_indexStep (s : State) : ∃ cs, Plays (fun u => .next (indexStep u)) s (indexStep s) cs := by
  cases read : s.img.read s.pos with
  | some type =>
    have reads (k : Sink) (w : Nat) : (s.under k w).img.read (s.under k w).pos = some type := read
    rw [indexStep_of_read read]
    exact ⟨[], ⟨rfl, by simp [indexBlock], rfl⟩, fun k w => by rw [indexStep_of_read (reads k w)]; rfl⟩
  | none =>
    have unread (k : Sink) (w : Nat) : (s.under k w).img.read (s.under k w).pos = none := read
    by_cases empty : s.bt = []
    · have empties (k : Sink) (w : Nat) : (s.under k w).bt = [] := empty
      rw [indexStep_of_empty read empty]
      exact ⟨[], ⟨rfl, by simp, rfl⟩, fun k w => by rw [indexStep_of_empty (unread k w) (empties k w)]; rfl⟩
    · have blocks (k : Sink) (w : Nat) : (s.under k w).bt ≠ [] := empty
      rw [indexStep_of_blocks read empty]
      exact ⟨[.setLevelLow], ⟨rfl, rfl, rfl⟩, fun k w => by rw [indexStep_of_blocks (unread k w) (blocks k w)]; rfl⟩

theorem plays_anyEpilogue (s : State) : ∃ cs, Plays (fun u => .next (anyEpilogue u)) s (anyEpilogue s) cs := by
  cases kind : s.input.kind with
  | tzx =>
    have kinds (k : Sink) (w : Nat) : (s.under k w).input.kind = .tzx := kind
    rw [anyEpilogue_of_tzx kind]
    exact ⟨[.advanceOneMillisecond], ⟨rfl, rfl, rfl⟩, fun k w => by rw [anyEpilogue_of_tzx (kinds k w)]; rfl⟩
  | tap =>
    have kinds (k : Sink) (w : Nat) : (s.under k w).input.kind = .tap := kind
    rw [anyEpilogue_of_tap kind]
    exact ⟨tapFrame s.params [.advanceOneMillisecond], ⟨rfl, rfl, rfl⟩, fun k w => by
      rw [anyEpilogue_of_tap (kinds k w)]; rfl⟩

/-- An instruction's effect reads neither the sink nor `AW`. -/
theorem effect_under (i : Instr) (s : State) (k : Sink) (w : Nat) : effect i (s.under k w) = effect i s := by
  cases i <;> rfl

theorem run_under (x : Effect) (s : State) (k : Sink) (w : Nat) :
    x.run (s.under k w) = (x.run s).under (k.applyAll x.out.cmds) w := by
  unfold Effect.run
  match x.out.stop with
  | none => rfl
  | some .truncated => rfl
  | some (.refuse _) => rfl

theorem plays_exec {i : Instr} {s t : State} (ran : exec i s = .next t) : ∃ cs, Plays (exec i) s t cs := by
  obtain ⟨x, has, rfl⟩ := exec_eq_next.1 ran
  refine ⟨x.out.cmds, ⟨run_input x s, run_trace x s, run_sink x s⟩, fun k w => ?_⟩
  exact exec_eq_next.2 ⟨x, (effect_under i s k w).trans has, (run_under x s k w).symm⟩

theorem plays_skip (s : State) : Plays (fun u => .next u.skip) s s.skip [] := by
  refine ⟨⟨skip_input s, by simp, skip_sink s⟩, fun k w => ?_⟩
  rw [skip_eq_run, skip_eq_run s]
  exact congrArg _ (run_under { Effect.pass s with events := skipEvents s } s k w)

/-- What a running session does next reads neither the sink nor `AW`. -/
theorem move_under (s : State) (k : Sink) (w : Nat) : move (s.under k w) = move s := rfl

/-! ### A step, and a run of steps -/

/-- A step emits some commands, and over any sink and any `AW` the same. -/
theorem plays_step {s t : State} (stepped : step s = .next t) : ∃ cs, Plays step s t cs := by
  have live (k : Sink) (w : Nat) : (s.under k w).phase = s.phase := rfl
  rcases step_cases stepped with ⟨idle, rfl⟩ | ⟨indexing, rfl⟩ | ⟨running, moved⟩
  · obtain ⟨cs, plays⟩ := plays_startSession s
    exact ⟨cs, plays.toEmits, fun k w => by rw [step_of_idle ((live k w).trans idle)]; exact plays.blind k w⟩
  · obtain ⟨cs, plays⟩ := plays_indexStep s
    exact ⟨cs, plays.toEmits, fun k w => by rw [step_of_indexing ((live k w).trans indexing)]; exact plays.blind k w⟩
  · have performs (k : Sink) (w : Nat) : step (s.under k w) = (move s).perform (s.under k w) := by
      rw [step_of_running ((live k w).trans running), move_under]
    rcases moved with ⟨moves, rfl⟩ | ⟨i, x, moves, has, rfl⟩ | ⟨moves, rfl⟩ | ⟨o, moves, rfl⟩
    · obtain ⟨cs, plays⟩ := plays_anyEpilogue s
      exact ⟨cs, plays.toEmits, fun k w => by rw [performs, moves]; exact plays.blind k w⟩
    · obtain ⟨cs, plays⟩ := plays_exec (exec_eq_next.2 ⟨x, has, rfl⟩)
      exact ⟨cs, plays.toEmits, fun k w => by rw [performs, moves]; exact plays.blind k w⟩
    · exact ⟨[], (plays_skip s).toEmits, fun k w => by rw [performs, moves]; exact (plays_skip s).blind k w⟩
    · exact ⟨[], ⟨rfl, by simp, rfl⟩, fun k w => by rw [performs, moves]; rfl⟩

/-- A step that faults faults over any sink and any `AW`: only the phase decides. -/
theorem step_under_of_fault {s : State} {f : Fault} (faults : step s = .fault f) (k : Sink) (w : Nat) :
    step (s.under k w) = .fault f := by
  cases ended : s.phase.ended with
  | false => obtain ⟨t, stepped⟩ := exists_step_of_live ended; rw [stepped] at faults; cases faults
  | true =>
    rw [step_eq_fault_of_ended ended] at faults
    rw [step_eq_fault_of_ended (show (s.under k w).phase.ended = true from ended), faults]

/-- The machine refuses no step. -/
theorem step_ne_refused (s : State) (f : Refusal) : step s ≠ .refused f := by
  intro refused
  cases ended : s.phase.ended with
  | false => obtain ⟨t, stepped⟩ := exists_step_of_live ended; rw [stepped] at refused; cases refused
  | true => rw [step_eq_fault_of_ended ended] at refused; cases refused

theorem run_succ_of_next {s t : State} (stepped : step s = .next t) (n : Nat) :
    Sys2Proof.core.run (n + 1) s = Sys2Proof.core.run n t := by
  simp only [Host.Core.run, show Sys2Proof.core.step s = .next t from stepped]

theorem run_succ_of_fault {s : State} {f : Fault} (faults : step s = .fault f) (n : Nat) :
    Sys2Proof.core.run (n + 1) s = .fault f := by
  simp only [Host.Core.run, show Sys2Proof.core.step s = .fault f from faults]

/-- A run is a step and a shorter run, or the fault of a session that has ended. -/
theorem step_cases_for_run (s : State) : (∃ t, step s = .next t) ∨ ∃ f, step s = .fault f := by
  cases stepped : step s with
  | next t => exact .inl ⟨t, rfl⟩
  | fault f => exact .inr ⟨f, rfl⟩
  | refused f => exact absurd stepped (step_ne_refused s f)

/-- A run of any length emits some commands, and over any sink and any `AW` the same. -/
theorem plays_run (n : Nat) : ∀ {s t : State}, Sys2Proof.core.run n s = .next t →
    ∃ cs, Plays (Sys2Proof.core.run n) s t cs := by
  induction n with
  | zero => rintro s _ ⟨⟩; exact ⟨[], ⟨rfl, by simp, rfl⟩, fun k w => rfl⟩
  | succ n ih =>
    intro s t ran
    rcases step_cases_for_run s with ⟨u, stepped⟩ | ⟨f, faults⟩
    · rw [run_succ_of_next stepped] at ran
      obtain ⟨cs, first⟩ := plays_step stepped
      obtain ⟨ds, rest⟩ := ih ran
      refine ⟨cs ++ ds, first.toEmits.trans rest.toEmits, fun k w => ?_⟩
      rw [run_succ_of_next (first.blind k w), applyAll_append]
      exact rest.blind _ w
    · rw [run_succ_of_fault faults] at ran
      cases ran

/-- A run that faults faults over any sink and any `AW`. -/
theorem run_under_of_fault (n : Nat) : ∀ {s : State} {f : Fault}, Sys2Proof.core.run n s = .fault f →
    ∀ k w, Sys2Proof.core.run n (s.under k w) = .fault f := by
  induction n with
  | zero => rintro s f ⟨⟩
  | succ n ih =>
    intro s f ran k w
    rcases step_cases_for_run s with ⟨u, stepped⟩ | ⟨f', faults⟩
    · obtain ⟨cs, first⟩ := plays_step stepped
      rw [run_succ_of_next stepped] at ran
      rw [run_succ_of_next (first.blind k w)]
      exact ih ran _ w
    · rw [run_succ_of_fault faults] at ran
      rw [run_succ_of_fault (step_under_of_fault faults k w), ran]

/-! ### The obligations -/

/-- Settles O10: a step emits over the inputs it found. -/
theorem stepsKeepInputsAndOnlyAppend : Obligations.StepsKeepInputsAndOnlyAppend := by
  intro s t stepped
  obtain ⟨cs, plays⟩ := plays_step stepped
  exact ⟨plays.input, fun a => congrArg (fun x : Input => x.img.read a) plays.input, cs, plays.trace, plays.sink⟩

/-- Settles O11: the same step over another sink, at the same `AW`. -/
theorem stepsNeverReadTheSink : Obligations.StepsNeverReadTheSink := by
  intro s k
  refine ⟨fun t stepped => ?_, fun r faults => step_under_of_fault faults k s.params.offsetWidth⟩
  obtain ⟨cs, plays⟩ := plays_step stepped
  exact ⟨k.applyAll cs, (plays.blind k s.params.offsetWidth).trans (by rw [under_own plays.input])⟩

/-- Settles O12: the same run over another sink, whose count grows by the ticks of the trace as that of the first
does. -/
theorem wholeSessionsAgreeForAnyTwoSinks : Obligations.WholeSessionsAgreeForAnyTwoSinks := by
  intro x v k n s u
  refine ⟨fun t ran => ?_, fun r faults => run_under_of_fault n faults k s.params.offsetWidth⟩
  obtain ⟨cs, plays⟩ := plays_run n ran
  have trace : t.trace = cs := plays.trace
  refine ⟨?_, k.applyAll cs, (plays.blind k s.params.offsetWidth).trans (congrArg _ (under_own plays.input _)), ?_⟩
  · rw [plays.sink, applyAll_ticks, trace]
    exact Nat.zero_add _
  · rw [applyAll_ticks, trace]

/-- Settles O13: a step is the relation's by definition, and leaves the inputs as it found them. -/
theorem stepIsARelationOverInputs : Obligations.StepIsARelationOverInputs := by
  intro x r
  rw [stepOver_eq]
  refine ⟨fun t => ?_, fun f => ?_⟩
  · cases stepped : step { r with input := x } with
    | next u =>
      obtain ⟨cs, plays⟩ := plays_step stepped
      have kept : u.input = x := plays.input
      constructor
      · rintro ⟨⟩; exact ⟨rfl, kept⟩
      · rintro ⟨same, input⟩
        have session : u.toSession = t.toSession := Host.Outcome.next.inj same
        rw [← over_toSession u, ← over_toSession t, session, kept, input]
    | fault f => simp
    | refused f => simp
  · cases step { r with input := x } with
    | next | fault | refused => simp

/-- Settles O14: an entry points at a byte of the image, and a TAP session's `POS` does not pass its end; a step
over another `AW` does the same. -/
theorem offsetsFitTheirWidth : Obligations.OffsetsFitTheirWidth := by
  constructor
  · intro s inv fits
    refine ⟨fun e entry => ?_, fun tap => lt_of_le_of_lt (inv.tapCursor tap) fits⟩
    exact lt_trans (read_lt (inv.entriesPointAtTypes e entry).2) fits
  · intro s w x
    refine ⟨fun t stepped => ?_, fun r faults => step_under_of_fault faults s.sink w⟩
    obtain ⟨cs, plays⟩ := plays_step stepped
    exact (plays.blind s.sink w).trans (by rw [← plays.sink, under_sink plays.input])

end Sys2Proof.Machine
end

section
/-! The session invariant (10_state.md, 41_sequencer.md section 4): it holds at every session start and every step
keeps it. -/

namespace Sys2Proof.Machine

open Sys2Proof

/-- Settles O1: the values `State.begin` writes. -/
theorem sessionStartValues : Obligations.SessionStartValues := by
  refine ⟨⟨Input.reset, .low, rfl⟩, fun x v => ?_⟩
  refine ⟨rfl, rfl, rfl, fun tzx => ?_, fun tap => ?_, rfl, rfl, rfl, rfl, rfl, rfl, rfl⟩
  · simp [State.begin, tzx, firstOffset, headerLen]
  · simp [State.begin, tap, firstOffset]

/-- The session start over a canonical image meets the invariant (R36). -/
theorem begin_inv {x : Input} (wf : x.img.wf = true) (v : Level) : (State.begin x v).Inv where
  imgWf := wf
  sinkIsFold := ⟨v, rfl⟩
  errOnlyFailed := by simp [State.begin]
  whyOnlyRefused := by simp [State.begin]
  noEarlyCommand := fun _ => rfl
  firstCommand := fun _ => .inl rfl
  prologueDone := fun _ later => by cases later
  entriesPointAtTypes := fun e entry => by cases entry
  entriesIncrease := .nil
  indexerAhead := fun indexing => by cases indexing
  tableNotEmpty := fun _ running => by cases running
  curInTable := le_rfl
  loopBehind := fun active => by cases active
  cursorsAtStart := fun _ => ⟨rfl, rfl, rfl⟩
  tapHasNoTable := fun _ => rfl
  tapNeverIndexes := fun _ indexing => by cases indexing
  tapCursor := fun tap => by simp [State.begin, show x.kind = .tap from tap, firstOffset]

/-- Settles O2: the reset state is a session start over the empty image. -/
theorem sessionStartMeetsInvariant : Obligations.SessionStartMeetsInvariant :=
  ⟨begin_inv rfl .low, fun _ v wf => begin_inv wf v⟩

/-- The sink stays the fold of the trace (R33). -/
theorem Emits.sinkIsFold {s t : State} {cs : List Command} (emits : Emits s t cs)
    (fold : ∃ v, s.sink = Sink.applyAll { level := v, ticks := 0 } s.trace) :
    ∃ v, t.sink = Sink.applyAll { level := v, ticks := 0 } t.trace := by
  obtain ⟨v, fold⟩ := fold
  exact ⟨v, by rw [emits.sink, emits.trace, applyAll_append, fold]⟩

section
variable {s : State} (inv : s.Inv)
include inv

/-- A session that has not failed holds no error. -/
theorem State.Inv.err_eq_none (live : s.phase ≠ .failed) : s.err = none :=
  Option.not_isSome_iff_eq_none.1 fun some => live (inv.errOnlyFailed.2 some)

theorem State.Inv.why_eq_none (live : s.phase ≠ .refused) : s.why = none :=
  Option.not_isSome_iff_eq_none.1 fun some => live (inv.whyOnlyRefused.2 some)

/-- A session that has not been refused may fail. -/
theorem State.Inv.raise (live : s.phase ≠ .refused) (e : FatalError) : (s.raise e).Inv where
  imgWf := inv.imgWf
  sinkIsFold := inv.sinkIsFold
  errOnlyFailed := by simp
  whyOnlyRefused := by simp [inv.why_eq_none live]
  noEarlyCommand := fun early => by cases early
  firstCommand := inv.firstCommand
  prologueDone := fun _ _ live => absurd rfl live
  entriesPointAtTypes := inv.entriesPointAtTypes
  entriesIncrease := inv.entriesIncrease
  indexerAhead := fun indexing => by cases indexing
  tableNotEmpty := fun _ running => by cases running
  curInTable := inv.curInTable
  loopBehind := inv.loopBehind
  cursorsAtStart := fun early => by cases early
  tapHasNoTable := inv.tapHasNoTable
  tapNeverIndexes := fun _ indexing => by cases indexing
  tapCursor := inv.tapCursor

/-- What a running session comes to keeps the invariant if it emits over the same inputs and table, and holds its
error, its reason and its cursors rightly. -/
theorem State.Inv.of_running (running : s.phase = .running) {t : State} {cs : List Command} (emits : Emits s t cs)
    (table : t.bt = s.bt) (later : t.phase.beforeFirstCommand = false)
    (err : t.phase = .failed ↔ t.err.isSome = true) (why : t.phase = .refused ↔ t.why.isSome = true)
    (cur : t.cur ≤ s.bt.length) (loop : t.loop.active = true → t.loop.ret ≤ t.cur)
    (pos : s.input.kind = .tap → t.pos ≤ s.len) : t.Inv := by
  have started : s.input.framed = true → s.trace ≠ [] := fun framed =>
    inv.prologueDone framed (by rw [running]; rfl) (by rw [running]; decide)
  exact {
    imgWf := by rw [State.img, emits.input]; exact inv.imgWf
    sinkIsFold := emits.sinkIsFold inv.sinkIsFold
    errOnlyFailed := err
    whyOnlyRefused := why
    noEarlyCommand := fun early => by rw [later] at early; cases early
    firstCommand := fun framed => by
      rw [emits.input] at framed
      refine .inr ?_
      rw [emits.trace, List.head?_append_of_ne_nil _ (started framed)]
      exact (inv.firstCommand framed).resolve_left (started framed)
    prologueDone := fun framed _ _ => by
      rw [emits.input] at framed
      rw [emits.trace]
      exact List.append_ne_nil_of_left_ne_nil (started framed) _
    entriesPointAtTypes := by rw [table, State.img, emits.input]; exact inv.entriesPointAtTypes
    entriesIncrease := by rw [table]; exact inv.entriesIncrease
    indexerAhead := fun indexing => by rw [indexing] at later; cases later
    tableNotEmpty := fun tzx _ => by rw [table]; exact inv.tableNotEmpty (emits.input ▸ tzx) running
    curInTable := by rw [table]; exact cur
    loopBehind := loop
    cursorsAtStart := fun early => by rw [later] at early; cases early
    tapHasNoTable := fun tap => by rw [table]; exact inv.tapHasNoTable (emits.input ▸ tap)
    tapNeverIndexes := fun _ indexing => by rw [indexing] at later; cases later
    tapCursor := fun tap => by rw [State.len, emits.input]; exact pos (emits.input ▸ tap) }

/-- The start of a session keeps the invariant: a header error, an indexer behind the header, or a TAP session's
frame. -/
theorem State.Inv.startSession (idle : s.phase = .idle) : (startSession s).Inv := by
  have early : s.phase.beforeFirstCommand = true := by rw [idle]; rfl
  have silent : s.trace = [] := inv.noEarlyCommand early
  obtain ⟨cur, inactive, cnt⟩ := inv.cursorsAtStart early
  have noError : s.err = none := inv.err_eq_none (by rw [idle]; decide)
  have noReason : s.why = none := inv.why_eq_none (by rw [idle]; decide)
  cases kind : s.input.kind with
  | tzx =>
    rw [startSession_of_tzx kind]
    cases error : headerError s.params s.img with
    | some e => rw [startTzx_of_error error]; exact inv.raise (by rw [idle]; decide) e
    | none =>
      rw [startTzx_of_accepted error]
      exact {
        imgWf := inv.imgWf
        sinkIsFold := inv.sinkIsFold
        errOnlyFailed := by simp [noError]
        whyOnlyRefused := by simp [noReason]
        noEarlyCommand := fun _ => silent
        firstCommand := fun _ => .inl silent
        prologueDone := fun _ later => by cases later
        entriesPointAtTypes := fun e entry => by cases entry
        entriesIncrease := .nil
        indexerAhead := fun _ => ⟨le_rfl, fun e entry => by cases entry⟩
        tableNotEmpty := fun _ running => by cases running
        curInTable := by simp [cur]
        loopBehind := inv.loopBehind
        cursorsAtStart := fun _ => ⟨cur, inactive, cnt⟩
        tapHasNoTable := fun _ => rfl
        tapNeverIndexes := fun tap => by rw [show s.input.kind = .tzx from kind] at tap; cases tap
        tapCursor := fun tap => by rw [show s.input.kind = .tzx from kind] at tap; cases tap }
  | tap =>
    rw [startSession_of_tap kind]
    have frame : s.input.framed = true → tapFrame s.params [.setLevelLow] = [.setLevelLow] := fun framed =>
      tapFrame_of_true (by simpa [Input.framed, kind] using framed) _
    have trace : (startTap s).trace = tapFrame s.params [.setLevelLow] := by
      show s.trace ++ _ = _
      rw [silent]
      rfl
    exact {
      imgWf := inv.imgWf
      sinkIsFold := Emits.sinkIsFold (s := s) ⟨rfl, rfl, rfl⟩ inv.sinkIsFold
      errOnlyFailed := by simp [startTap, noError]
      whyOnlyRefused := by simp [startTap, noReason]
      noEarlyCommand := fun early => by cases early
      firstCommand := fun framed => by rw [trace, frame framed]; exact .inr rfl
      prologueDone := fun framed _ _ => by rw [trace, frame framed]; exact List.cons_ne_nil _ _
      entriesPointAtTypes := inv.entriesPointAtTypes
      entriesIncrease := inv.entriesIncrease
      indexerAhead := fun indexing => by cases indexing
      tableNotEmpty := fun tzx => absurd (kind.symm.trans tzx) (by decide)
      curInTable := inv.curInTable
      loopBehind := inv.loopBehind
      cursorsAtStart := fun early => by cases early
      tapHasNoTable := inv.tapHasNoTable
      tapNeverIndexes := fun _ indexing => by cases indexing
      tapCursor := fun _ => Nat.zero_le _ }

/-- An indexed block: it points at its type byte, and `POS` passes it (R125). -/
theorem State.Inv.indexBlock (indexing : s.phase = .indexing) {type : Byte} (read : s.img.read s.pos = some type) :
    (indexBlock type s).Inv := by
  obtain ⟨behind, ahead⟩ := inv.indexerAhead indexing
  have passes : s.pos < (Machine.indexBlock type s).pos := by
    have := read_lt read
    unfold Machine.indexBlock
    dsimp only
    cases bodySize s.layout s.img type (s.pos + 1) with
    | some size => dsimp only; omega
    | none => exact this
  have entries (e : Entry) : e ∈ (Machine.indexBlock type s).bt ↔ e ∈ s.bt ∨ e = { offset := s.pos, type := type } := by
    simp [Machine.indexBlock]
  exact {
    imgWf := inv.imgWf
    sinkIsFold := inv.sinkIsFold
    errOnlyFailed := inv.errOnlyFailed
    whyOnlyRefused := inv.whyOnlyRefused
    noEarlyCommand := inv.noEarlyCommand
    firstCommand := inv.firstCommand
    prologueDone := inv.prologueDone
    entriesPointAtTypes := fun e entry => by
      rcases (entries e).1 entry with old | rfl
      · exact inv.entriesPointAtTypes e old
      · exact ⟨behind, read⟩
    entriesIncrease := by
      refine List.pairwise_append.2 ⟨inv.entriesIncrease, List.pairwise_singleton .., fun a old c new => ?_⟩
      rw [List.mem_singleton.1 new]
      exact ahead a old
    indexerAhead := fun _ => ⟨behind.trans passes.le, fun e entry => by
      rcases (entries e).1 entry with old | rfl
      · exact (ahead e old).trans passes
      · exact passes⟩
    tableNotEmpty := fun _ running => by rw [show s.phase = .running from running] at indexing; cases indexing
    curInTable := inv.curInTable.trans (by simp [Machine.indexBlock])
    loopBehind := inv.loopBehind
    cursorsAtStart := inv.cursorsAtStart
    tapHasNoTable := fun tap => absurd indexing (inv.tapNeverIndexes tap)
    tapNeverIndexes := inv.tapNeverIndexes
    tapCursor := fun tap => absurd indexing (inv.tapNeverIndexes tap) }

/-- The prologue emits the first command of the session, at the first block (R130). -/
theorem State.Inv.prologue (indexing : s.phase = .indexing) (blocks : s.bt ≠ []) : (prologue s).Inv := by
  have early : s.phase.beforeFirstCommand = true := by rw [indexing]; rfl
  obtain ⟨_, inactive, _⟩ := inv.cursorsAtStart early
  have trace : (Machine.prologue s).trace = [.setLevelLow] := by
    show s.trace ++ _ = _
    rw [inv.noEarlyCommand early]
    rfl
  have notTap : s.input.kind ≠ .tap := fun tap => inv.tapNeverIndexes tap indexing
  exact {
    imgWf := inv.imgWf
    sinkIsFold := Emits.sinkIsFold (s := s) ⟨rfl, rfl, rfl⟩ inv.sinkIsFold
    errOnlyFailed := by simp [Machine.prologue, inv.err_eq_none (by rw [indexing]; decide)]
    whyOnlyRefused := by simp [Machine.prologue, inv.why_eq_none (by rw [indexing]; decide)]
    noEarlyCommand := fun early => by cases early
    firstCommand := fun _ => by rw [trace]; exact .inr rfl
    prologueDone := fun _ _ _ => by rw [trace]; exact List.cons_ne_nil _ _
    entriesPointAtTypes := inv.entriesPointAtTypes
    entriesIncrease := inv.entriesIncrease
    indexerAhead := fun indexing => by cases indexing
    tableNotEmpty := fun _ _ => blocks
    curInTable := Nat.zero_le _
    loopBehind := fun active => by rw [show s.loop.active = true from active] at inactive; cases inactive
    cursorsAtStart := fun early => by cases early
    tapHasNoTable := fun tap => absurd tap notTap
    tapNeverIndexes := fun _ indexing => by cases indexing
    tapCursor := fun tap => absurd tap notTap }

/-- An indexer step keeps the invariant. -/
theorem State.Inv.indexStep (indexing : s.phase = .indexing) : (indexStep s).Inv := by
  cases read : s.img.read s.pos with
  | some type => rw [indexStep_of_read read]; exact inv.indexBlock indexing read
  | none =>
    by_cases empty : s.bt = []
    · rw [indexStep_of_empty read empty]; exact inv.raise (by rw [indexing]; decide) _
    · rw [indexStep_of_blocks read empty]; exact inv.prologue indexing empty

/-- The epilogue keeps the invariant. -/
theorem State.Inv.anyEpilogue (running : s.phase = .running) : (anyEpilogue s).Inv := by
  obtain ⟨cs, plays⟩ := plays_anyEpilogue s
  let t := Machine.anyEpilogue s
  have done : t = { s with phase := .done, trace := t.trace, sink := t.sink } := by
    unfold t Machine.anyEpilogue
    split <;> rfl
  have err := inv.err_eq_none (by rw [running]; decide)
  have why := inv.why_eq_none (by rw [running]; decide)
  refine inv.of_running (t := t) running plays.toEmits ?_ ?_ ?_ ?_ ?_ ?_ ?_
  · rw [done]
  · rw [done]; rfl
  · rw [done]; simp [err]
  · rw [done]; simp [why]
  · rw [done]; exact inv.curInTable
  · rw [done]; exact inv.loopBehind
  · rw [done]; exact inv.tapCursor

end

/-! ### Instructions -/

/-- Where an instruction leaves the loop context active, `LOOP_RET` is not beyond the cursor it leaves (R136). -/
theorem Effect.Of.loopBehind {s : State} {i : Instr} {x : Effect} (of : Effect.Of s i x)
    (behind : s.loop.active = true → s.loop.ret ≤ s.cur) (active : (x.loop s.loop).active = true) :
    (x.loop s.loop).ret ≤ x.cur := by
  cases of with
  | block | gdb | skip => exact (behind active).trans (Nat.le_succ _)
  | loops => exact le_rfl
  | record => exact behind active
  | loope =>
    unfold Effect.loope at active ⊢
    split at active
    · rw [if_pos ‹_›]
    · cases active

/-- No block leaves the cursor further than one beyond its own index: a loop goes back (R136, R151). -/
theorem Effect.Of.cur_le {s : State} {i : Instr} {x : Effect} (of : Effect.Of s i x)
    (behind : s.loop.active = true → s.loop.ret ≤ s.cur) : x.cur ≤ s.cur + 1 := by
  cases of with
  | block | gdb | skip | loops => exact le_rfl
  | record => exact Nat.le_succ _
  | loope =>
    unfold Effect.loope
    split
    · rename_i back
      have active : s.loop.active = true := (goesBack_iff.1 back).1
      exact (behind active).trans (Nat.le_succ _)
    · exact le_rfl

/-- What a running session runs keeps its cursors within table and image (R131, R262). -/
theorem cursors_of_run {s : State} (inv : s.Inv) {i : Instr} {x : Effect} (moves : move s = .run i)
    (of : Effect.Of s i x) : x.cur ≤ s.bt.length ∧ (s.input.kind = .tap → x.pos ≤ s.len) := by
  cases kind : s.input.kind with
  | tzx =>
    obtain ⟨e, _, entry, _⟩ := move_tzx_run kind moves
    obtain ⟨inside, _⟩ := List.getElem?_eq_some_iff.1 entry
    exact ⟨(of.cur_le inv.loopBehind).trans inside, fun tap => by cases tap⟩
  | tap =>
    obtain ⟨n, rfl, fits⟩ := move_tap_run kind moves
    cases of with
    | record => exact ⟨inv.curInTable, fun _ => fits⟩
    | block _ _ tzx | skip _ tzx => cases tzx

/-- An instruction keeps the invariant. -/
theorem State.Inv.run {s : State} (inv : s.Inv) (running : s.phase = .running) {i : Instr} {x : Effect}
    (moves : move s = .run i) (has : effect i s = some x) : (x.run s).Inv := by
  have of := effect_of has
  obtain ⟨inTable, inImage⟩ := cursors_of_run inv moves of
  have noError := inv.err_eq_none (by rw [running]; decide)
  have noReason := inv.why_eq_none (by rw [running]; decide)
  have emits : Emits s (x.run s) x.out.cmds := ⟨run_input x s, run_trace x s, run_sink x s⟩
  rcases run_cases x s with ⟨_, phase, err, why, cur, pos, loop⟩ | ⟨_, phase, err, why, cur, pos, loop⟩ |
    ⟨w, _, phase, err, why, cur, pos, loop⟩
  · refine inv.of_running running emits (run_bt x s) ?_ ?_ ?_ ?_ ?_ ?_
    · rw [phase, running]; rfl
    · simp [phase, running, err, noError]
    · simp [phase, running, why, noReason]
    · rw [cur]; exact inTable
    · rw [loop, cur]; exact of.loopBehind inv.loopBehind
    · rw [pos]; exact inImage
  · refine inv.of_running running emits (run_bt x s) ?_ ?_ ?_ ?_ ?_ ?_
    · rw [phase]; rfl
    · simp [phase, err]
    · simp [phase, why, noReason]
    · rw [cur]; exact inv.curInTable
    · rw [loop, cur]; exact inv.loopBehind
    · rw [pos]; exact inv.tapCursor
  · refine inv.of_running running emits (run_bt x s) ?_ ?_ ?_ ?_ ?_ ?_
    · rw [phase]; rfl
    · simp [phase, err, noError]
    · simp [phase, why]
    · rw [cur]; exact inv.curInTable
    · rw [loop, cur]; exact inv.loopBehind
    · rw [pos]; exact inv.tapCursor

/-- A skip is made only of a block of the table of a TZX session. -/
theorem move_skip_entry {s : State} (moves : move s = .skip) :
    s.input.kind = .tzx ∧ ∃ e, s.bt[s.cur]? = some e := by
  cases kind : s.input.kind with
  | tzx =>
    cases entry : s.bt[s.cur]? with
    | none => rw [move_of_no_entry kind entry] at moves; cases moves
    | some e => exact ⟨rfl, e, rfl⟩
  | tap =>
    simp only [move, kind] at moves
    split_ifs at moves
    cases fetched : fetchRecord s <;> simp [fetched] at moves

/-- A skipped block keeps the invariant. -/
theorem State.Inv.skip {s : State} (inv : s.Inv) (running : s.phase = .running) (moves : move s = .skip) :
    s.skip.Inv := by
  obtain ⟨tzx, e, entry⟩ := move_skip_entry moves
  obtain ⟨inside, _⟩ := List.getElem?_eq_some_iff.1 entry
  refine inv.of_running running (plays_skip s).toEmits (skip_bt s) ?_ ?_ ?_ ?_ ?_ ?_
  · rw [skip_phase, running]; rfl
  · rw [skip_phase, skip_err]; exact inv.errOnlyFailed
  · rw [skip_phase, skip_why]; exact inv.whyOnlyRefused
  · rw [skip_cur]; exact inside
  · rw [skip_loop, skip_cur]; exact fun active => (inv.loopBehind active).trans (Nat.le_succ _)
  · intro tap; rw [tzx] at tap; cases tap

/-- Settles O3: the invariant by the kind of step. -/
theorem stepKeepsInvariant : Obligations.StepKeepsInvariant := by
  intro s t inv stepped
  rcases step_cases stepped with ⟨idle, rfl⟩ | ⟨indexing, rfl⟩ | ⟨running, moved⟩
  · exact inv.startSession idle
  · exact inv.indexStep indexing
  · rcases moved with ⟨_, rfl⟩ | ⟨i, x, moves, has, rfl⟩ | ⟨moves, rfl⟩ | ⟨o, _, rfl⟩
    · exact inv.anyEpilogue running
    · exact inv.run running moves has
    · exact inv.skip running moves
    · exact inv.raise (by rw [running]; decide) _

end Sys2Proof.Machine
end

section
/-! Every session ends (41_sequencer.md R136). The indexer moves through the image; a TAP session moves through it
record by record; the interpreter runs no loop start twice, for a loop end goes back behind the last loop start that
ran, and then counts down. -/

namespace Sys2Proof.Machine

open Sys2Proof

/-- The session comes to a final phase. -/
def Ends (s : State) : Prop := ∃ (n : Nat) (t : State), Sys2Proof.core.run n s = .next t ∧ t.phase.ended = true

theorem ends_of_ended {s : State} (ended : s.phase.ended = true) : Ends s := ⟨0, s, rfl, ended⟩

theorem ends_of_step {s t : State} (stepped : step s = .next t) (ends : Ends t) : Ends s := by
  obtain ⟨n, u, ran, ended⟩ := ends
  exact ⟨n + 1, u, (run_succ_of_next stepped n).trans ran, ended⟩

/-- A session ends if each step ends it or keeps a predicate and makes a rank smaller. -/
theorem ends_of_rank {α : Type} [LT α] [WellFoundedLT α] (P : State → Prop) (rank : State → α)
    (advances : ∀ s, P s → ∃ t, step s = .next t ∧ (Ends t ∨ (P t ∧ rank t < rank s))) : ∀ s, P s → Ends s := by
  intro s
  induction s using (InvImage.wf rank wellFounded_lt).induction with
  | h s ih =>
    intro holds
    obtain ⟨t, stepped, ended | ⟨holds', smaller⟩⟩ := advances s holds
    · exact ends_of_step stepped ended
    · exact ends_of_step stepped (ih t smaller holds')

/-! ### The interpreter -/

/-- An instruction goes on to the next block and keeps `LOOP_CNT` and `LOOP_RET`, or is a loop start, or goes back
with a smaller count (R134, R150, R151). -/
theorem Effect.Of.advances {s : State} {i : Instr} {x : Effect} (of : Effect.Of s i x) (tzx : i.kind = .tzx) :
    (x.cur = s.cur + 1 ∧ (x.loop s.loop).cnt = s.loop.cnt ∧ (x.loop s.loop).ret = s.loop.ret) ∨
    (x.cur = s.cur + 1 ∧ (x.loop s.loop).ret = s.cur + 1) ∨
    (x.cur = s.loop.ret ∧ (x.loop s.loop).cnt.toNat < s.loop.cnt.toNat ∧ (x.loop s.loop).ret = s.loop.ret) := by
  cases of with
  | block | gdb | skip => exact .inl ⟨rfl, rfl, rfl⟩
  | loops => exact .inr (.inl ⟨rfl, rfl⟩)
  | record => cases tzx
  | loope =>
    unfold Effect.loope
    split
    · rename_i back
      have positive : 0 < s.loop.cnt.toNat := (goesBack_iff.1 back).2
      refine .inr (.inr ⟨rfl, ?_, rfl⟩)
      show (s.loop.cnt - 1).toNat < s.loop.cnt.toNat
      have := s.loop.cnt.isLt
      bv_omega
    · exact .inl ⟨rfl, rfl, rfl⟩

/-- The interpreter within its table, `LOOP_RET` not beyond the cursor. -/
structure Interprets (s : State) : Prop where
  running : s.phase = .running
  tzx : s.input.kind = .tzx
  behind : s.loop.ret ≤ s.cur
  inTable : s.cur ≤ s.bt.length

/-- What is left of the table behind the last loop start that ran, the rounds left of its loop, and the blocks ahead:
loop starts, rounds and blocks make it smaller, in this order. -/
def blocksLeft (s : State) : ℕ ×ₗ ℕ ×ₗ ℕ :=
  toLex (s.bt.length - s.loop.ret, toLex (s.loop.cnt.toNat, s.bt.length - s.cur))

theorem blocksLeft_lt {s t : State} : blocksLeft t < blocksLeft s ↔
    t.bt.length - t.loop.ret < s.bt.length - s.loop.ret ∨ t.bt.length - t.loop.ret = s.bt.length - s.loop.ret ∧
      (t.loop.cnt.toNat < s.loop.cnt.toNat ∨
        t.loop.cnt.toNat = s.loop.cnt.toNat ∧ t.bt.length - t.cur < s.bt.length - s.cur) := by
  simp only [blocksLeft, Prod.Lex.toLex_lt_toLex]

/-- An instruction that is not stopped leaves the interpreter with less to do. -/
theorem Interprets.run {s : State} (interprets : Interprets s) {i : Instr} {x : Effect} (moves : move s = .run i)
    (has : effect i s = some x) (unstopped : x.out.stop = none) :
    Interprets (x.run s) ∧ blocksLeft (x.run s) < blocksLeft s := by
  obtain ⟨running, tzx, behind, _⟩ := interprets
  obtain ⟨e, _, entry, _⟩ := move_tzx_run tzx moves
  obtain ⟨inside, _⟩ := List.getElem?_eq_some_iff.1 entry
  rcases run_cases x s with ⟨_, phase, _, _, cur, _, loop⟩ | ⟨stop, _⟩ | ⟨w, stop, _⟩
  swap
  · rw [unstopped] at stop; cases stop
  swap
  · rw [unstopped] at stop; cases stop
  have advances := (effect_of has).advances ((move_run_kind moves).trans tzx)
  rw [blocksLeft_lt, run_bt, cur, loop]
  refine ⟨⟨phase.trans running, by rw [run_input, tzx], ?_, ?_⟩, ?_⟩
  · rw [cur, loop]; omega
  · rw [cur, run_bt]; omega
  · rcases advances with ⟨next, cnt, ret⟩ | ⟨next, ret⟩ | ⟨next, cnt, ret⟩
    · rw [cnt]; omega
    · omega
    · omega

/-- A skipped block leaves the interpreter with less to do. -/
theorem Interprets.skip {s : State} (interprets : Interprets s) (moves : move s = .skip) :
    Interprets s.skip ∧ blocksLeft s.skip < blocksLeft s := by
  obtain ⟨running, tzx, behind, _⟩ := interprets
  obtain ⟨_, e, entry⟩ := move_skip_entry moves
  obtain ⟨inside, _⟩ := List.getElem?_eq_some_iff.1 entry
  rw [blocksLeft_lt, skip_bt, skip_loop, skip_cur]
  refine ⟨⟨(skip_phase s).trans running, by rw [skip_input, tzx], ?_, ?_⟩, by omega⟩
  · rw [skip_loop, skip_cur]; omega
  · rw [skip_cur, skip_bt]; omega

theorem anyEpilogue_ended (s : State) : (anyEpilogue s).phase.ended = true := by
  unfold anyEpilogue; split <;> rfl

/-- An instruction that is stopped ends the session. -/
theorem run_ended {x : Effect} (stopped : x.out.stop ≠ none) (s : State) : (x.run s).phase.ended = true := by
  rcases run_cases x s with ⟨stop, _⟩ | ⟨_, phase, _⟩ | ⟨w, _, phase, _⟩
  · exact absurd stop stopped
  · rw [phase]; rfl
  · rw [phase]; rfl

/-- A running session whose instructions, not stopped, and skips keep a predicate and make a rank smaller ends: its
other moves end it. -/
theorem running_advances {α : Type} [LT α] {P : State → Prop} {rank : State → α} {s : State}
    (running : s.phase = .running)
    (runs : ∀ i x, move s = .run i → effect i s = some x → x.out.stop = none → P (x.run s) ∧ rank (x.run s) < rank s)
    (skips : move s = .skip → P s.skip ∧ rank s.skip < rank s) :
    ∃ t, step s = .next t ∧ (Ends t ∨ (P t ∧ rank t < rank s)) := by
  obtain ⟨t, stepped⟩ := exists_step_of_live (s := s) (by rw [running]; rfl)
  refine ⟨t, stepped, ?_⟩
  rcases step_cases stepped with ⟨idle, _⟩ | ⟨indexing, _⟩ | ⟨_, moved⟩
  · rw [running] at idle; cases idle
  · rw [running] at indexing; cases indexing
  · rcases moved with ⟨_, rfl⟩ | ⟨i, x, moves, has, rfl⟩ | ⟨moves, rfl⟩ | ⟨o, _, rfl⟩
    · exact .inl (ends_of_ended (anyEpilogue_ended s))
    · by_cases unstopped : x.out.stop = none
      · exact .inr (runs i x moves has unstopped)
      · exact .inl (ends_of_ended (run_ended unstopped s))
    · exact .inr (skips moves)
    · exact .inl (ends_of_ended rfl)

theorem ends_of_interprets : ∀ s, Interprets s → Ends s :=
  ends_of_rank Interprets blocksLeft fun _ interprets => running_advances interprets.running
    (fun _ _ moves has unstopped => interprets.run moves has unstopped) fun moves => interprets.skip moves

/-! ### TAP records -/

/-- A record that is not stopped moves `POS` behind it, within the image (R260). -/
theorem record_advances {s : State} (tap : s.input.kind = .tap) {i : Instr} {x : Effect} (moves : move s = .run i)
    (has : effect i s = some x) (unstopped : x.out.stop = none) :
    s.len - (x.run s).pos < s.len - s.pos ∧ (x.run s).phase = s.phase := by
  obtain ⟨n, rfl, fits⟩ := move_tap_run tap moves
  rcases run_cases x s with ⟨_, phase, _, _, _, pos, _⟩ | ⟨stop, _⟩ | ⟨w, stop, _⟩
  · cases effect_of has with
    | record =>
      have behind : (Effect.run _ s).pos = s.pos + 2 + n.toNat := pos
      rw [behind]
      exact ⟨by omega, phase⟩
    | block _ _ tzx | skip _ tzx => cases tzx
  · rw [unstopped] at stop; cases stop
  · rw [unstopped] at stop; cases stop

theorem ends_of_records : ∀ s : State, s.phase = .running ∧ s.input.kind = .tap → Ends s :=
  ends_of_rank _ (fun s : State => s.len - s.pos) fun s ⟨running, tap⟩ => running_advances running
    (fun i x moves has unstopped => by
      obtain ⟨smaller, phase⟩ := record_advances tap moves has unstopped
      simp only [State.len, run_input]
      exact ⟨⟨phase.trans running, tap⟩, smaller⟩)
    fun moves => by rw [(move_skip_entry moves).1] at tap; cases tap

/-! ### Indexing, and the whole session -/

/-- The indexer as it is in a session from its start: no loop has run. -/
structure Indexes (s : State) : Prop where
  indexing : s.phase = .indexing
  tzx : s.input.kind = .tzx
  noLoop : s.loop.ret = 0

theorem ends_of_indexes : ∀ s, Indexes s → Ends s := by
  refine ends_of_rank Indexes (fun s => s.img.len - s.pos) fun s ⟨indexing, tzx, noLoop⟩ => ?_
  refine ⟨_, step_of_indexing indexing, ?_⟩
  cases read : s.img.read s.pos with
  | some type =>
    rw [indexStep_of_read read]
    have inside := read_lt read
    refine .inr ⟨⟨indexing, tzx, noLoop⟩, ?_⟩
    show s.img.len - (indexBlock type s).pos < s.img.len - s.pos
    unfold indexBlock
    dsimp only
    cases bodySize s.layout s.img type (s.pos + 1) with
    | some size => dsimp only; omega
    | none => show s.img.len - s.img.len < _; omega
  | none =>
    refine .inl ?_
    by_cases empty : s.bt = []
    · rw [indexStep_of_empty read empty]; exact ends_of_ended rfl
    · rw [indexStep_of_blocks read empty]
      exact ends_of_interprets _ ⟨rfl, tzx, noLoop.le, Nat.zero_le _⟩

/-- Settles O9: a TZX session indexes and interprets, unless its header is wrong; a TAP session plays its records. -/
theorem everySessionEnds : Obligations.EverySessionEnds := by
  intro x v
  let s := State.begin x v
  refine ends_of_step (step_of_idle (s := s) rfl) ?_
  cases kind : x.kind with
  | tzx =>
    rw [startSession_of_tzx (s := s) kind]
    cases error : headerError s.params s.img with
    | some e => rw [startTzx_of_error error]; exact ends_of_ended rfl
    | none => rw [startTzx_of_accepted error]; exact ends_of_indexes _ ⟨rfl, kind, rfl⟩
  | tap =>
    rw [startSession_of_tap (s := s) kind]
    exact ends_of_records _ ⟨rfl, kind⟩

end Sys2Proof.Machine
end

section
/-! Loops (42_control_flow.md R151, R152). -/

namespace Sys2Proof.Machine

open Sys2Proof

/-- A loop end that goes back (R151). -/
theorem exec_loope_back {s : State} (active : s.loop.active = true) (left : 0 < s.loop.cnt.toNat) :
    exec .loope s = .next { s with cur := s.loop.ret, loop := { s.loop with cnt := s.loop.cnt - 1 } } := by
  have back : s.loop.goesBack = true := goesBack_iff.2 ⟨active, left⟩
  exact if_pos back

/-- A loop end that falls through (R151). -/
theorem exec_loope_through {s : State} (spent : s.loop.active = false ∨ s.loop.cnt = 0) :
    exec .loope s = .next { s with cur := s.cur + 1, loop := { s.loop with active := false } } := by
  have through : ¬s.loop.goesBack = true := by rcases spent with off | zero <;> simp [goesBack_iff, *]
  exact if_neg through

theorem cnt_sub_one {c : Half} (left : 0 < c.toNat) : (c - 1).toNat = c.toNat - 1 := by
  have := c.isLt
  bv_omega

/-- Settles O27: the test of `LOOPE` decides. -/
theorem loopEndGoesBackWhileCountLeft : Obligations.LoopEndGoesBackWhileCountLeft :=
  fun _ => ⟨fun active left => ⟨exec_loope_back active left, cnt_sub_one left⟩, exec_loope_through⟩

/-- As many rounds as the count has left each go back, and leave the count less by them. -/
theorem loopRounds_of_count {body : State → State} (keeps : ∀ u, (body u).loop = u.loop) (n : Nat) :
    ∀ {s : State}, s.loop.active = true → s.loop.ret = s.cur → n ≤ s.loop.cnt.toNat →
      ∃ u, loopRounds body n s = .next u ∧ u.cur = s.cur ∧ u.loop.active = true ∧
        u.loop.cnt.toNat = s.loop.cnt.toNat - n := by
  induction n with
  | zero => exact fun {s} active _ _ => ⟨s, rfl, rfl, active, rfl⟩
  | succ n ih =>
    intro s active back left
    have loop := keeps s
    let t : State := { body s with cur := s.loop.ret, loop := { s.loop with cnt := s.loop.cnt - 1 } }
    have ended : exec .loope (body s) = .next t := by
      rw [exec_loope_back (by rw [loop]; exact active) (by rw [loop]; omega), loop]
    have cnt : t.loop.cnt.toNat = s.loop.cnt.toNat - 1 := cnt_sub_one (by omega)
    obtain ⟨u, rounds, cur, active', cnt'⟩ := ih (s := t) active rfl (by rw [cnt]; omega)
    refine ⟨u, ?_, cur.trans back, active', by rw [cnt', cnt]; omega⟩
    rw [loopRounds, ended]
    exact rounds

/-- Settles O28: behind the loop start the count is what it was given, each round takes one of it, and at 0 the loop
end falls through. -/
theorem loopBodyRunsCountPlusOneTimes : Obligations.LoopBodyRunsCountPlusOneTimes := by
  intro s count body keeps
  refine ⟨_, rfl, fun n within => loopRounds_of_count keeps n rfl rfl within, ?_⟩
  obtain ⟨u, rounds, _, _, cnt⟩ := loopRounds_of_count keeps count.toNat
    (s := { s with cur := s.cur + 1, loop := { cnt := count, ret := s.cur + 1, active := true } }) rfl rfl le_rfl
  have spent : (body u).loop.cnt = 0 := by
    rw [keeps]
    exact BitVec.eq_of_toNat_eq (by rw [cnt]; exact Nat.sub_self _)
  exact ⟨u, _, rounds, exec_loope_through (.inr spent), rfl, rfl⟩

end Sys2Proof.Machine
end

section
/-! The observation of a trace (10_state.md section 10) and the host's read-back. -/

namespace Sys2Proof.Machine

open Sys2Proof

/-- The segments of a run last its ticks (R33). -/
theorem segments_sum (cs : List Command) : ∀ v, ((segments v cs).map Prod.snd).sum = ticksOf cs := by
  induction cs with
  | nil => intro v; rfl
  | cons c cs ih => intro v; cases c <;> simp [segments, ih, Command.ticks]

/-- A segment list has a level at exactly the ticks it lasts. -/
theorem waveform_isSome (segs : List (Level × Nat)) :
    ∀ t, (waveform segs t).isSome = true ↔ t < (segs.map Prod.snd).sum := by
  induction segs with
  | nil => intro t; simp [waveform]
  | cons seg segs ih =>
    intro t
    obtain ⟨v, n⟩ := seg
    simp only [waveform, List.map_cons, List.sum_cons]
    split
    · simp; omega
    · rw [ih]; omega

/-- Settles O24: the waveform has a level at the ticks of the segments, and these last the ticks of the trace. -/
theorem waveformCoversExactlyTheTicks : Obligations.WaveformCoversExactlyTheTicks := by
  intro v cs
  refine ⟨segments_sum cs v, fun t => ?_⟩
  rw [waveform_isSome, segments_sum]

/-- Settles O22: each command's effect by definition; of a run with one command more, the segments are those of the
run and of the command. -/
theorem levelCommandsAndMillisecond : Obligations.LevelCommandsAndMillisecond := by
  refine ⟨fun s => ⟨rfl, rfl, fun low => ?_, fun high => ?_, rfl⟩, fun v cs c => ⟨?_, ?_, ?_⟩, fun n => rfl⟩
  · simp [State.emit, Sink.apply, low, Level.toggled]
  · simp [State.emit, Sink.apply, high, Level.toggled]
  · rw [togglesOf_append]
    by_cases toggle : c = .toggleLevel <;> simp [togglesOf, toggle]
  · rintro (rfl | rfl | rfl) <;> rw [segments_append] <;> exact List.append_nil _
  · rw [segments_append]
    rfl

/-- Settles O25: below `2^64` the read-back loses nothing of the count. -/
theorem hostReadsBackTheTicks : Obligations.HostReadsBackTheTicks := by
  refine ⟨fun _ _ => rfl, fun _ => rfl, fun k fits => ?_⟩
  rw [totalTicksElapsed, if_pos fits, BitVec.toNat_ofNat, Nat.mod_eq_of_lt fits]

end Sys2Proof.Machine
end

section
/-! The signal blocks play (43_pulse_train.md, 44_direct_and_pause.md, 47_tap_adapter.md). A payload inside the image
makes each primitive run to its end with its commands written out; a block whose effect is such a run changes its
cursor, the trace, the sink and what it loads. -/

namespace Sys2Proof.Machine

open Sys2Proof

/-! ### The primitives in clear form -/

/-- The pause of loaded registers is that of the operand they were loaded from (R161). -/
theorem blockPause_eq {p : PulseRegs} {q : Option Half} {old : Half} (has : p.hasPause = q.isSome)
    (ms : p.pauseMs = q.getD old) : blockPause p = optPausePlays q := by
  unfold blockPause
  cases q with
  | none => rw [if_neg (by rw [has]; exact Bool.false_ne_true)]; rfl
  | some n => rw [if_pos (show p.hasPause = true from has), ms, pause_eq_pausePlays]; rfl

theorem dataBit_eq (p : PulseRegs) : dataBit p = bitPulses p.bit0 p.bit1 := by
  funext v
  cases v <;> rfl

theorem bitsOutOfRange_eq_false {p : PulseRegs} (legal : p.dataLen = 0 ∨ p.bitsLast.toNat ≤ 8) :
    p.bitsOutOfRange = false := by
  unfold PulseRegs.bitsOutOfRange
  rcases legal with empty | few
  · simp [empty]
  · simp [few]

theorem bitsOutOfRange_iff {p : PulseRegs} : p.bitsOutOfRange = true ↔ 0 < p.dataLen.toNat ∧ 8 < p.bitsLast.toNat := by
  simp [PulseRegs.bitsOutOfRange]

/-- The pilot train of a payload inside the image (R162). -/
theorem pilotTrain_eq {m : Memory} {p : PulseRegs} (inside : p.dataPtr + p.dataLen.toNat ≤ m.len)
    (legal : p.dataLen = 0 ∨ p.bitsLast.toNat ≤ 8) : pilotTrain m p = Emission.all
      (pilot p ++ syncPulse p.sync1 ++ syncPulse p.sync2 ++
        (payloadBits m p.dataPtr p.dataLen.toNat p.bitsLast.toNat).flatMap (bitPulses p.bit0 p.bit1) ++
        blockPause p) := by
  rw [pilotTrain, if_neg (by rw [bitsOutOfRange_eq_false legal]; exact Bool.false_ne_true), payload_eq _ _ _ _ _ inside,
    dataBit_eq, all_seq_all, all_seq_all]
  simp only [List.append_assoc]

/-- The direct recording of a payload inside the image (R190). -/
theorem directRecording_eq {m : Memory} {p : PulseRegs} (inside : p.dataPtr + p.dataLen.toNat ≤ m.len)
    (legal : p.dataLen = 0 ∨ p.bitsLast.toNat ≤ 8) : directRecording m p = Emission.all
      ((payloadBits m p.dataPtr p.dataLen.toNat p.bitsLast.toNat).flatMap (sampleBit p) ++ blockPause p) := by
  rw [directRecording, if_neg (by rw [bitsOutOfRange_eq_false legal]; exact Bool.false_ne_true),
    payload_eq _ _ _ _ _ inside, all_seq_all]

/-! ### Blocks that run to their end, and blocks refused at once -/

/-- A block whose commands run to their end. -/
theorem exec_of_block {i : Instr} {s : State} {o : Nat} {load : PulseRegs → PulseRegs} {out : Emission}
    {cs : List Command} (has : effect i s = some (Effect.block s o load out)) (plays : out = Emission.all cs) :
    exec i s = .next { s with
      cur := s.cur + 1, trace := s.trace ++ cs, sink := s.sink.applyAll cs, p := load s.p } := by
  subst plays
  refine exec_eq_next.2 ⟨_, has, ?_⟩
  simp [Effect.run, Effect.play, Effect.block, Effect.pass]

/-- A block refused before its first command. -/
theorem exec_of_refused {i : Instr} {s : State} {o : Nat} {load : PulseRegs → PulseRegs} {out : Emission}
    {w : SessionRefusal} (has : effect i s = some (Effect.block s o load out))
    (halts : out = Emission.halt (.refuse w)) :
    exec i s = .next { s with phase := .refused, why := some w, p := load s.p } := by
  subst halts
  refine exec_eq_next.2 ⟨_, has, ?_⟩
  rw [run_of_halt_refuse rfl]
  simp [Effect.block, Effect.pass, State.refuse]

/-- The effect of a block that needs a table entry is looked up there. -/
theorem map_entry {s : State} {e : Entry} (entry : s.bt[s.cur]? = some e) (f : Entry → Effect) :
    (s.bt[s.cur]?).map f = some (f e) := by rw [entry]; rfl

/-- A pause that can be read, or that the layout does not have (R161). -/
theorem paused_of_read {s : State} {o : Nat} {f : Option FieldPos} {q : Option Half}
    (read : s.img.optField 16 (o + 1) f = some q) (rule : Option Half → Effect) :
    Effect.paused s o f rule = rule q := by
  simp [Effect.paused, read]

/-! ### Standard speed -/

/-- A 16-bit length in the 24-bit register (R22). -/
theorem toNat_setWidth_half (n : Half) : (n.setWidth 24).toNat = n.toNat := by
  rw [BitVec.toNat_setWidth_of_le (by decide)]

/-- The commands of a standard-speed payload whose first byte is `f` (R169, R170). -/
def standardCommands (s : State) (ptr : Nat) (len : Half) (f : Byte) (q : Option Half) : List Command :=
  let count : Half := if f.toNat < s.params.flagThreshold then 8063 else 3223
  (List.replicate count.toNat (pulse 2168)).flatten ++ pulse 667 ++ pulse 735 ++
    (payloadBits s.img ptr len.toNat 8).flatMap (bitPulses 855 1710) ++ optPausePlays q

/-- A standard-speed payload inside the image plays. -/
theorem standard_eq {s : State} {o ptr : Nat} {q : Option Half} {len : Half} {f : Byte}
    (inside : ptr + len.toNat ≤ s.len) (read : s.img.read ptr = some f) : Effect.standard s o q ptr len =
      Effect.block s o (fun p => pilotCountLoad s f (standardLoad q ptr len p))
        (Emission.all (standardCommands s ptr len f q)) := by
  have fits : ptr + (len.setWidth 24).toNat ≤ s.len := by rw [toNat_setWidth_half]; exact inside
  let p := pilotCountLoad s f (standardLoad q ptr len PulseRegs.reset)
  have train : pilotTrain s.img p = Emission.all (standardCommands s ptr len f q) := by
    rw [pilotTrain_eq (p := p) fits (.inr le_rfl), blockPause_eq (p := p) (q := q) rfl rfl,
      show p.dataLen.toNat = len.toNat from toNat_setWidth_half len]
    rfl
  simp only [Effect.standard, read]
  rw [Effect.train, train]

/-- Settles O29: the standard-speed payload of the block. -/
theorem standardBlockPlays : Obligations.StandardBlockPlays := by
  intro s e q len f ptr entry payload inside read count cs
  have has : effect (.std q len) s = some (Effect.block s e.offset
      (fun p => pilotCountLoad s f (standardLoad q ptr len p)) (Emission.all (standardCommands s ptr len f q))) := by
    rw [← standard_eq inside read]
    exact (map_entry entry _).trans (congrArg some (if_neg payload))
  exact exec_of_block has rfl

/-- Settles O30: the standard-speed payload of the record. -/
theorem tapRecordPlays : Obligations.TapRecordPlays := by
  intro s n f ptr payload inside read count cs
  have has : effect (.taprec n) s = some { Effect.block s s.pos
      (fun p => pilotCountLoad s f (standardLoad (some tapPauseMs) ptr n p))
      (Emission.all (standardCommands s ptr n f (some tapPauseMs))) with
      cur := s.cur, pos := ptr + n.toNat } := by
    rw [← standard_eq inside read]
    simp only [effect, if_neg payload]
    rfl
  refine exec_eq_next.2 ⟨_, has, ?_⟩
  simp only [Effect.run, Effect.play, Effect.block, Effect.pass, all_stop, all_cmds, List.append_nil]
  rfl

/-- Settles O31: an empty payload is refused before any command. -/
theorem emptyStandardPayloadIsRefused : Obligations.EmptyStandardPayloadIsRefused := by
  refine ⟨fun s e q entry => ?_, fun s => ?_⟩
  · exact exec_of_refused (load := payloadLoad q (e.offset + 1 + s.layout.std.data) 0) (map_entry entry _) rfl
  · refine exec_eq_next.2 ⟨_, rfl, ?_⟩
    rw [run_of_halt_refuse rfl]
    simp [Effect.block, Effect.pass, State.refuse]

/-- Payloads of the same bytes have the same bits. -/
theorem payloadBits_congr {m m' : Memory} {a a' n : Nat} (k : Nat)
    (same : ∀ j, j < n → m.read (a + j) = m'.read (a' + j)) : payloadBits m a n k = payloadBits m' a' n k := by
  unfold payloadBits
  refine List.flatMap_congr fun j inside => ?_
  rw [same j (List.mem_range.1 inside)]

/-- Settles O32: both are the standard-speed signal of the same payload with the same pause. -/
theorem tapRecordEqualsStandardBlock : Obligations.TapRecordEqualsStandardBlock := by
  intro s u e n entry payload threshold inside same
  have within : s.pos + 2 + n.toNat ≤ s.img.len := inside
  have positive : 0 < n.toNat := Nat.pos_of_ne_zero fun zero => payload (BitVec.eq_of_toNat_eq zero)
  obtain ⟨f, read⟩ := exists_read (m := s.img) (a := s.pos + 2) (by omega)
  let ptr := e.offset + 1 + u.layout.std.data
  have read' : u.img.read ptr = some f := by rw [← read]; exact (same 0 positive).symm
  have inside' : ptr + n.toNat ≤ u.img.len := by
    obtain ⟨last, read⟩ := exists_read (m := s.img) (a := s.pos + 2 + (n.toNat - 1)) (by omega)
    rw [same _ (by omega)] at read
    have := read_lt read
    omega
  have commands : standardCommands s (s.pos + 2) n f (some 1000) = standardCommands u ptr n f (some 1000) := by
    unfold standardCommands
    rw [payloadBits_congr 8 same, threshold]
  refine ⟨standardCommands s (s.pos + 2) n f (some 1000), _, _, tapRecordPlays s n f payload inside read, rfl, rfl,
    standardBlockPlays u e (some 1000) n f entry payload inside' read', ?_, rfl⟩
  rw [commands]
  rfl

/-! ### The blocks with parameters of their own -/

/-- Settles O33: the pilot train of the block's fields. -/
theorem turboBlockPlays : Obligations.TurboBlockPlays := by
  intro s e pilotLength sync1 sync2 bit0 bit1 pilotCount used q len ptr entry inside legal cs
  let load := turboLoad pilotLength sync1 sync2 bit0 bit1 pilotCount used q len ptr
  refine exec_of_block (o := e.offset) (load := load) (map_entry entry _) ?_
  rw [pilotTrain_eq (p := load PulseRegs.reset) inside legal, blockPause_eq (q := q) rfl rfl]
  rfl

/-- Settles O34: a pilot train without pilot and sync. -/
theorem pureDataBlockPlays : Obligations.PureDataBlockPlays := by
  intro s e bit0 bit1 used q len ptr entry inside legal cs
  let load := pdataLoad bit0 bit1 used q len ptr
  refine exec_of_block (o := e.offset) (load := load) (map_entry entry _) ?_
  rw [pilotTrain_eq (p := load PulseRegs.reset) inside legal, blockPause_eq (q := q) rfl rfl]
  rfl

/-- Settles O35: a pilot train of pilot pulses alone. -/
theorem pureTonePlays : Obligations.PureTonePlays := by
  intro s e pulseLength count q entry read cs
  let load := toneLoad pulseLength count q
  have has : effect (.tone pulseLength count) s = some (Effect.train s e.offset load) :=
    (map_entry entry _).trans (congrArg some (paused_of_read read _))
  refine exec_of_block (load := load) has ?_
  rw [pilotTrain_eq (p := load PulseRegs.reset) (Nat.zero_le _) (.inl rfl), blockPause_eq (q := q) rfl rfl]
  show Emission.all (pilot (load PulseRegs.reset) ++ [] ++ [] ++ [] ++ optPausePlays q) = Emission.all cs
  simp only [List.append_nil]
  rfl

/-- Settles O36: a pulse list inside the image, and the pause. -/
theorem pulseSequencePlays : Obligations.PulseSequencePlays := by
  intro s e n q ptr w entry read inside cs
  let load := pulsesLoad n q ptr
  let p := load PulseRegs.reset
  have count : p.dataLen.toNat = n.toNat := BitVec.toNat_setWidth_of_le (by decide)
  have has : effect (.pulses n) s = some (Effect.block s e.offset load
      ((listedPulses s.img w p.dataPtr p.dataLen.toNat).seq (Emission.all (blockPause p)))) :=
    (map_entry entry _).trans (congrArg some (paused_of_read read _))
  refine exec_of_block has ?_
  rw [count, show p.dataPtr = ptr from rfl, listedPulses_eq _ _ _ _ inside, all_seq_all, blockPause_eq (q := q) rfl rfl]

/-- Settles O37: the direct recording of the block's fields. -/
theorem directRecordingPlays : Obligations.DirectRecordingPlays := by
  intro s e tps q used len ptr last entry inside legal cs
  let load := directLoad tps q used len ptr
  refine exec_of_block (o := e.offset) (load := load) (map_entry entry _) ?_
  rw [directRecording_eq (p := load PulseRegs.reset) inside legal, blockPause_eq (q := q) rfl rfl]
  rfl

/-- Settles O38: each of the three plays a primitive that checks `usedBits` first. -/
theorem usedBitsAboveEightAreRefused : Obligations.UsedBitsAboveEightAreRefused := by
  intro s e pilotLength sync1 sync2 bit0 bit1 pilotCount tps q used len i entry payload above isBlock
  have positive : 0 < len.toNat := Nat.pos_of_ne_zero fun zero => payload (BitVec.eq_of_toNat_eq zero)
  have refused {o : Nat} {load : PulseRegs → PulseRegs} {out : Emission}
      (has : effect i s = some (Effect.block s o load out)) (halts : out = Emission.halt (.refuse .bitsInLastByteRange)) :
      ∃ t, exec i s = .next t ∧ t = { s with phase := .refused, why := some .bitsInLastByteRange, p := t.p } :=
    ⟨_, exec_of_refused has halts, rfl⟩
  rcases isBlock with rfl | rfl | rfl
  · exact refused (map_entry entry _) (if_pos (bitsOutOfRange_iff.2 ⟨positive, above⟩))
  · exact refused (map_entry entry _) (if_pos (bitsOutOfRange_iff.2 ⟨positive, above⟩))
  · exact refused (map_entry entry _) (if_pos (bitsOutOfRange_iff.2 ⟨positive, above⟩))

/-! ### Toggles, ticks and levels of the primitives (R166 to R168, R191) -/

theorem togglesOf_pulse (n : Half) : togglesOf (pulse n) = 1 := rfl

theorem ticksOf_pulse (n : Half) : ticksOf (pulse n) = n.toNat := by
  have : (n.setWidth 64).toNat = n.toNat := BitVec.toNat_setWidth_of_le (by decide)
  simp [pulse, Command.ticks, this]

theorem togglesOf_syncPulse (n : Half) : togglesOf (syncPulse n) = if n = 0 then 0 else 1 := by
  unfold syncPulse; split <;> rfl

/-- An absent sync pulse lasts as long as its length says, no tick (R163). -/
theorem ticksOf_syncPulse (n : Half) : ticksOf (syncPulse n) = n.toNat := by
  unfold syncPulse
  split
  · rename_i absent; rw [absent]; rfl
  · exact ticksOf_pulse n

theorem togglesOf_bitPulses (bit0 bit1 : Half) (bits : List Bool) :
    togglesOf (bits.flatMap (bitPulses bit0 bit1)) = 2 * bits.length := by
  induction bits with
  | nil => rfl
  | cons v bits ih =>
    have two : togglesOf (bitPulses bit0 bit1 v) = 2 := by cases v <;> rfl
    rw [List.flatMap_cons, togglesOf_append, ih, two, List.length_cons]
    omega

theorem ticksOf_bitPulses (bit0 bit1 : Half) (bits : List Bool) : ticksOf (bits.flatMap (bitPulses bit0 bit1)) =
    2 * (bits.count false * bit0.toNat + bits.count true * bit1.toNat) := by
  induction bits with
  | nil => simp
  | cons v bits ih =>
    rw [List.flatMap_cons, ticksOf_append, ih]
    cases v <;> simp [bitPulses, ticksOf_pulse] <;> ring

theorem togglesOf_blockPause (p : PulseRegs) : togglesOf (blockPause p) = 0 := by
  unfold blockPause
  split
  · rw [pause_eq_pausePlays]
    simp [pausePlays, togglesOf, List.count_replicate]
  · rfl

theorem ticksOf_blockPause (p : PulseRegs) :
    ticksOf (blockPause p) = if p.hasPause then 3500 * max p.pauseMs.toNat 1 else 0 := by
  unfold blockPause
  split
  · exact (pauseForcesOneMillisecond _).2.1
  · rfl

/-- A command that sets the level, whatever it was. -/
def Command.sets : Command → Bool
  | .setLevelHigh | .setLevelLow => true
  | _ => false

/-- Where no command sets the level, the number of toggles says what becomes of it (R168). -/
theorem levelAfter_of_toggles (cs : List Command) (unset : ∀ c ∈ cs, c.sets = false) :
    ∀ v, levelAfter v cs = if togglesOf cs % 2 = 0 then v else v.toggled := by
  induction cs with
  | nil => intro v; rfl
  | cons c cs ih =>
    intro v
    have rest := ih fun d among => unset d (List.mem_cons_of_mem _ among)
    rw [levelAfter_cons, rest, show c :: cs = [c] ++ cs from rfl, togglesOf_append]
    cases c with
    | setLevelHigh | setLevelLow => exact absurd (unset _ List.mem_cons_self) (by decide)
    | advance | advanceOneMillisecond => simp [Sink.apply, togglesOf]
    | toggleLevel =>
      have one : togglesOf [.toggleLevel] = 1 := rfl
      have twice : v.toggled.toggled = v := by cases v <;> rfl
      simp only [Sink.apply, one, twice]
      rcases Nat.mod_two_eq_zero_or_one (togglesOf cs) with even | odd
      · rw [if_pos even, if_neg (by omega)]
      · rw [if_neg (by omega), if_pos (by omega)]

/-- No pulse sets the level. -/
theorem pulse_sets {n : Half} {c : Command} (among : c ∈ pulse n) : c.sets = false := by
  simp only [pulse, List.mem_cons, List.not_mem_nil, or_false] at among
  rcases among with rfl | rfl <;> rfl

theorem bitPulses_sets {bit0 bit1 : Half} {v : Bool} {c : Command} (among : c ∈ bitPulses bit0 bit1 v) :
    c.sets = false := by
  cases v <;> exact pulse_sets ((List.mem_append.1 among).elim id id)

theorem syncPulse_sets {n : Half} {c : Command} (among : c ∈ syncPulse n) : c.sets = false := by
  unfold syncPulse at among
  split at among
  · cases among
  · exact pulse_sets among

theorem pilot_sets {p : PulseRegs} {c : Command} (among : c ∈ pilot p) : c.sets = false := by
  obtain ⟨cs, repeated, among⟩ := List.mem_flatten.1 among
  rw [(List.mem_replicate.1 repeated).2] at among
  exact pulse_sets among

/-- Settles O40: the toggles and ticks of the parts of the train; the pause, if there is one, ends low, and without it
only toggles change the level. -/
theorem pilotTrainTogglesAndTicks : Obligations.PilotTrainTogglesAndTicks := by
  intro m p inside legal bits e
  have train := pilotTrain_eq inside legal
  let signal := pilot p ++ syncPulse p.sync1 ++ syncPulse p.sync2 ++ bits.flatMap (bitPulses p.bit0 p.bit1)
  have cmds : e.cmds = signal ++ blockPause p := congrArg Emission.cmds train
  have length : bits.length = dataBitCount p.dataLen.toNat p.bitsLast.toNat := by
    rcases legal with empty | few
    · simp [bits, empty, payloadBits, dataBitCount]
    · exact payloadBits_length _ _ _ few _
  refine ⟨congrArg Emission.stop train, length, ?_, ?_, fun v paused => ?_, fun v bare => ?_⟩
  · rw [cmds]
    simp only [signal, togglesOf_append, pilot, togglesOf_repeat, togglesOf_pulse, togglesOf_syncPulse,
      togglesOf_bitPulses, togglesOf_blockPause, length, Nat.mul_one, Nat.add_zero]
  · rw [cmds]
    simp only [signal, ticksOf_append, pilot, ticksOf_repeat, ticksOf_pulse, ticksOf_syncPulse, ticksOf_bitPulses,
      ticksOf_blockPause]
  · rw [cmds, levelAfter_append, blockPause, if_pos paused]
    exact ((pauseForcesOneMillisecond _).2.2 _).1
  · rw [cmds, show blockPause p = [] from if_neg (by rw [bare]; exact Bool.false_ne_true), List.append_nil]
    refine levelAfter_of_toggles signal (fun c among => ?_) v
    simp only [signal, List.mem_append, List.mem_flatMap] at among
    rcases among with ((among | among) | among) | ⟨v, _, among⟩
    · exact pilot_sets among
    · exact syncPulse_sets among
    · exact syncPulse_sets among
    · exact bitPulses_sets among

theorem togglesOf_samples (p : PulseRegs) (bits : List Bool) : togglesOf (bits.flatMap (sampleBit p)) = 0 := by
  induction bits with
  | nil => rfl
  | cons v bits ih =>
    have none : togglesOf (sampleBit p v) = 0 := by cases v <;> rfl
    rw [List.flatMap_cons, togglesOf_append, ih, none]

theorem ticksOf_samples (p : PulseRegs) (bits : List Bool) :
    ticksOf (bits.flatMap (sampleBit p)) = bits.length * p.tps.toNat := by
  have hold : (p.tps.setWidth 64).toNat = p.tps.toNat := BitVec.toNat_setWidth_of_le (by decide)
  induction bits with
  | nil => simp
  | cons v bits ih =>
    have one : ticksOf (sampleBit p v) = p.tps.toNat := by cases v <;> simp [sampleBit, Command.ticks, hold]
    rw [List.flatMap_cons, ticksOf_append, ih, one, List.length_cons]
    ring

/-- The segments of a direct recording do not depend on the level before it: each bit and the pause set their own. -/
theorem segments_directRecording (p : PulseRegs) (bits : List Bool) :
    segments .low (bits.flatMap (sampleBit p) ++ blockPause p) =
      segments .high (bits.flatMap (sampleBit p) ++ blockPause p) := by
  cases bits with
  | cons v bits => cases v <;> rfl
  | nil =>
    show segments .low (blockPause p) = segments .high (blockPause p)
    unfold blockPause
    split <;> rfl

/-- Settles O41: what its parts add, and that each sets its own level. -/
theorem directRecordingNeverToggles : Obligations.DirectRecordingNeverToggles := by
  intro m p inside legal e
  have recording := directRecording_eq inside legal
  let bits := payloadBits m p.dataPtr p.dataLen.toNat p.bitsLast.toNat
  have cmds : e.cmds = bits.flatMap (sampleBit p) ++ blockPause p := congrArg Emission.cmds recording
  have length : bits.length = dataBitCount p.dataLen.toNat p.bitsLast.toNat := by
    rcases legal with empty | few
    · simp [bits, empty, payloadBits, dataBitCount]
    · exact payloadBits_length _ _ _ few _
  rw [cmds]
  refine ⟨congrArg Emission.stop recording, ?_, ?_, segments_directRecording p bits⟩
  · rw [togglesOf_append, togglesOf_samples, togglesOf_blockPause]
  · rw [ticksOf_append, ticksOf_samples, ticksOf_blockPause, length]

end Sys2Proof.Machine
end

section
/-! Skipped blocks (46_skipped_blocks.md). -/

namespace Sys2Proof.Machine

open Sys2Proof

/-- An instruction of a skipped row, or of none, is skipped (R230). -/
theorem effect_of_skips {i : Instr} (tzx : i.kind = .tzx) (skips : ∀ op, i.op? = some op → op.skips = true)
    (s : State) : effect i s = some { Effect.pass s with events := skipEvents s } := by
  cases i with
  | std | turbo | tone | pulses | pdata | direct | gdb | pause | loops | loope => cases skips _ rfl
  | taprec => cases tzx
  | c64rom _ | c64turbo _ | csw _ | grps _ | grpe | jump _ | callseq _ | ret | select _ | stop48 _ | setlvl _
  | text _ | msg _ _ | archive _ | hwtype _ | emuinfo | custom _ _ | snap _ _ | glue | unknown _ _ => rfl

/-- A skipped block at a table entry moves the cursor, and reports its type byte where the channel is on. -/
theorem skip_of_entry {s : State} {e : Entry} (entry : s.bt[s.cur]? = some e) : s.skip = { s with
    cur := s.cur + 1
    diag := if s.params.reportDiag
      then s.diag ++ [{ kind := .unsupportedBlock e.type, blockIndex := s.cur }] else s.diag } := by
  unfold State.skip
  rw [entry]
  dsimp only
  rw [report_eq_reported, reported]
  split <;> simp [State.nextBlock]

/-- The rows of the signal and control blocks, and those that are skipped (R230). -/
theorem mem_signalOps_or_skips (op : Op) :
    op ∈ ([.std, .turbo, .tone, .pulses, .pdata, .direct, .gdb, .pause, .loops, .loope] : List Op) ∨
      op.skips = true := by
  cases op <;> decide

/-- Settles O46: the rows that are left are the skipped ones. -/
theorem skippedBlocksOnlyAdvance : Obligations.SkippedBlocksOnlyAdvance := by
  intro s e i entry tzx others
  have skips (op : Op) (isRow : i.op? = some op) : op.skips = true :=
    (mem_signalOps_or_skips op).resolve_left fun among => others (isRow ▸ List.mem_map_of_mem among)
  rw [← skip_of_entry entry]
  exact exec_eq_next.2 ⟨_, effect_of_skips tzx skips s, skip_eq_run s⟩

/-- What a type that is skipped decodes to is of a skipped row, or of none (R71, R88). -/
theorem decodeBody_skips {L : Layout} {m : Memory} {t : Byte} {b : Nat} {i : Instr} (skips : L.skips t = true)
    (decoded : decodeBody L m t b = some i) (op : Op) (isRow : i.op? = some op) : op.skips = true := by
  unfold decodeBody at decoded
  unfold Layout.skips at skips
  cases row : L.row? t with
  | some r =>
    rw [row] at decoded skips
    have same : some r.op = some op := (decodeRow_op decoded).1.symm.trans isRow
    rw [← Option.some.inj same]
    exact skips
  | none =>
    rw [row] at decoded
    simp only [decodeFallback, Option.bind_eq_bind, Option.bind_eq_some_iff, Option.some.injEq] at decoded
    obtain ⟨_, _, rfl⟩ := decoded
    cases isRow

/-- Settles O47: where the fields can be read the instruction is skipped, where they cannot the block is. -/
theorem skippedBlocksNeedOnlyTheirSize : Obligations.SkippedBlocksNeedOnlyTheirSize := by
  intro s e size running tzx entry skips sized fits
  rw [← skip_of_entry entry]
  cases decoded : decodeBody s.layout s.img e.type (e.offset + 1) with
  | some i =>
    rw [step_eq_exec_of_decodeBody running tzx entry sized fits decoded]
    exact exec_eq_next.2 ⟨_, effect_of_skips (decodeBody_kind decoded) (decodeBody_skips skips decoded) s, skip_eq_run s⟩
  | none =>
    have moves : move s = .skip := by
      rw [move_of_entry tzx entry]
      have fitting : blockFits s e = true := by simp [blockFits, sized, fits]
      simp [moveAt, fitting, decoded, skips]
    rw [step_of_running running, moves]
    rfl

end Sys2Proof.Machine
end

section
/-! Memory, operands and the decoder (20_memory.md, 30_encoding.md). -/

namespace Sys2Proof

open Sys2Proof.Machine

/-- The little-endian value of bytes inside the image (R52). -/
theorem memRead_eq_sum (m : Memory) (n : Nat) : ∀ a, a + n ≤ m.len → m.memRead a n =
    some (((List.range n).map fun k => ((m.read (a + k)).getD 0).toNat * 256 ^ k).sum) := by
  induction n with
  | zero => intro a _; rfl
  | succ n ih =>
    intro a inside
    obtain ⟨v, read⟩ := exists_read (m := m) (a := a) (by omega)
    have shift (k : Nat) : ((m.read (a + (k + 1))).getD 0).toNat * 256 ^ (k + 1) =
        256 * (((m.read (a + 1 + k)).getD 0).toNat * 256 ^ k) := by
      rw [show a + (k + 1) = a + 1 + k by omega, pow_succ]
      ring
    simp only [Memory.memRead, read, ih (a + 1) (by omega), List.range_succ_eq_map, List.map_cons, List.map_map,
      Function.comp_def, List.sum_cons, Nat.succ_eq_add_one, shift, List.sum_map_mul_left]
    simp [read]

/-- Settles O56: the value byte by byte, and the earlier lemma on when a read succeeds. -/
theorem memReadIsLittleEndian : Obligations.MemReadIsLittleEndian := by
  intro m a n positive
  refine ⟨memRead_eq_sum m n a, fun beyond => ?_⟩
  obtain ⟨k, rfl⟩ : ∃ k, n = k + 1 := ⟨n - 1, by omega⟩
  have := memRead_isSome m k a
  cases read : m.memRead a (k + 1) with
  | none => rfl
  | some v => rw [read] at this; simp at this; omega

/-- Settles O58: each operand's definition, and bit 7 as the comparison with 128. -/
theorem operandsAreAssembled : Obligations.OperandsAreAssembled := by
  refine ⟨fun v k j _ below => ?_, fun m str q v read => ?_, fun _ => rfl, fun _ => rfl, fun f => ?_⟩
  · simp [leadingBits, below]
  · simp [streamBit, read]
  · have top : f.getLsbD 7 = decide (128 ≤ f.toNat) := (BitVec.msb_eq_getLsbD_last f).symm.trans (BitVec.msb_eq_decide f)
    rw [standardPilotCount, top]
    by_cases low : f.toNat < 128
    · simp [low, stdPilotHeader]
    · simp [low, stdPilotData, not_lt.1 low]

/-- Settles O54: eight words, decoded. -/
theorem specWordsDecode : Obligations.SpecWordsDecode := by
  refine ⟨?_, ?_, ?_, ?_, ?_, ?_, ?_, ?_⟩ <;> decide +kernel

/-- Settles O55: the rows' codes are those between the listed ranges; a byte without a row takes the fallback. -/
theorem typeBytesWithoutRowTakeTheFallback : Obligations.TypeBytesWithoutRowTakeTheFallback := by
  refine ⟨by decide, fun t => ⟨?_, fun noRow m b => ?_⟩⟩
  · rw [Layout.row?, List.find?_eq_none]
    simp [defaultLayout, signalRows, skipRows, ← BitVec.toNat_inj]
    omega
  · rw [bodySize, Layout.sizeRule, noRow]
    simp [defaultLayout, lengthPrefixed, SizeRule.eval]

/-! ### What is decoded is well-formed -/

/-- A layout with a row of a name has the name. -/
theorem hasRow_of_mem {L : Layout} {r : Row} (among : r ∈ L.rows) : L.hasRow r.op = true :=
  List.any_eq_true.2 ⟨r, among, beq_self_eq_true _⟩

/-- An operand that was read is there exactly when the layout has its field. -/
theorem spelled_of_optField {m : Memory} {n b : Nat} {f : Option FieldPos} {v : Option (BitVec n)}
    (read : m.optField n b f = some v) : spelled v f = true := by
  rw [spelled, optField_isSome read, beq_self_eq_true]

/-- A row's body decodes to an instruction the layout can spell. -/
theorem decodeRow_wellFormed {L : Layout} {m : Memory} {b : Nat} {op : Op} {i : Instr} (hasRow : L.hasRow op = true)
    (decoded : decodeRow L m b op = some i) : i.wellFormed L = true := by
  cases op <;> simp only [decodeRow, Option.bind_eq_bind, Option.bind_eq_some_iff, Option.some.injEq] at decoded
  case std =>
    obtain ⟨q, pause, _, _, rfl⟩ := decoded
    simp [Instr.wellFormed, hasRow, spelled_of_optField pause]
  case turbo =>
    obtain ⟨_, _, _, _, _, _, _, _, _, _, _, _, _, _, q, pause, _, _, rfl⟩ := decoded
    simp [Instr.wellFormed, hasRow, spelled_of_optField pause]
  case pdata =>
    obtain ⟨_, _, _, _, _, _, q, pause, _, _, rfl⟩ := decoded
    simp [Instr.wellFormed, hasRow, spelled_of_optField pause]
  case direct =>
    obtain ⟨_, _, q, pause, _, used, _, _, rfl⟩ := decoded
    simp [Instr.wellFormed, hasRow, spelled_of_optField pause, spelled_of_optField used]
  case gdb =>
    obtain ⟨_, _, q, pause, _, _, _, _, _, _, _, _, _, _, _, _, rfl⟩ := decoded
    simp [Instr.wellFormed, hasRow, spelled_of_optField pause]
  case tone | msg | custom | snap => obtain ⟨_, _, _, _, rfl⟩ := decoded; exact hasRow
  case loope | grpe | ret | emuinfo | glue => cases decoded; exact hasRow
  all_goals obtain ⟨_, _, rfl⟩ := decoded; exact hasRow

/-- A block decodes to an instruction the layout can spell, of a TZX image. -/
theorem decodeBody_wellFormed {L : Layout} {m : Memory} {t : Byte} {b : Nat} {i : Instr}
    (decoded : decodeBody L m t b = some i) : i.wellFormed L = true ∧ i.kind = .tzx := by
  refine ⟨?_, decodeBody_kind decoded⟩
  unfold decodeBody at decoded
  cases row : L.row? t with
  | some r => rw [row] at decoded; exact decodeRow_wellFormed (hasRow_of_mem (row?_mem row).1) decoded
  | none =>
    rw [row] at decoded
    simp only [decodeFallback, Option.bind_eq_bind, Option.bind_eq_some_iff, Option.some.injEq] at decoded
    obtain ⟨_, _, rfl⟩ := decoded
    simp [Instr.wellFormed, row]

theorem decode_tzx_eq_ok {L : Layout} {m : Memory} {o : Nat} {i : Instr} : decode .tzx L m o = .ok i ↔
    ∃ t, m.read o = some t ∧ decodeBody L m t (o + 1) = some i := by
  have block : decodeBlock L m o = some i ↔ ∃ t, m.read o = some t ∧ decodeBody L m t (o + 1) = some i :=
    Option.bind_eq_some_iff
  rw [← block]
  unfold decode
  cases decodeBlock L m o <;> simp

theorem decode_tap_eq_ok {L : Layout} {m : Memory} {o : Nat} {i : Instr} : decode .tap L m o = .ok i ↔
    ∃ n, m.read16 o = some n ∧ .taprec n = i := by
  have record : decodeRecord m o = some i ↔ ∃ n, m.read16 o = some n ∧ .taprec n = i := Option.map_eq_some_iff
  rw [← record]
  unfold decode
  cases decodeRecord m o <;> simp

/-- Settles O53: by the container. -/
theorem decodedInstructionsAreWellFormed : Obligations.DecodedInstructionsAreWellFormed := by
  intro k L m o i decoded
  cases k with
  | tzx => obtain ⟨t, _, body⟩ := decode_tzx_eq_ok.1 decoded; exact decodeBody_wellFormed body
  | tap => obtain ⟨n, _, rfl⟩ := decode_tap_eq_ok.1 decoded; exact ⟨rfl, rfl⟩

/-! ### Decode of encode -/

/-- The image holds these bytes from offset `o` on. -/
def Holds (m : Memory) (o : Nat) (bs : List Byte) : Prop := ∀ k, k < bs.length → m.read (o + k) = bs[k]?

theorem Holds.cons {m : Memory} {o : Nat} {v : Byte} {bs : List Byte} (holds : Holds m o (v :: bs)) :
    m.read o = some v ∧ Holds m (o + 1) bs := by
  refine ⟨holds 0 (Nat.zero_lt_succ _), fun k below => ?_⟩
  rw [Nat.add_assoc, Nat.add_comm 1]
  exact holds (k + 1) (Nat.succ_lt_succ below)

theorem Holds.append {m : Memory} {o : Nat} {as bs : List Byte} (holds : Holds m o (as ++ bs)) :
    Holds m o as ∧ Holds m (o + as.length) bs := by
  refine ⟨fun k below => ?_, fun k below => ?_⟩
  · rw [holds k (by rw [List.length_append]; omega), List.getElem?_append_left below]
  · rw [Nat.add_assoc, holds (as.length + k) (by rw [List.length_append]; omega),
      List.getElem?_append_right (Nat.le_add_right ..), Nat.add_sub_cancel_left]

/-- A field whose bytes the image holds reads as it (R52). -/
theorem Holds.word {m : Memory} {o n : Nat} {v : BitVec (8 * n)} (holds : Holds m o (le n v)) :
    m.word (8 * n) o n = some v := by
  rw [Memory.word, memRead_of_le m n o v (fun k below => holds k (by rwa [le_length])), Option.map_some,
    BitVec.ofNat_toNat, BitVec.setWidth_eq]

/-- A field, and the bytes behind it. -/
theorem Holds.field {m : Memory} {o n : Nat} {v : BitVec (8 * n)} {bs : List Byte} (holds : Holds m o (le n v ++ bs)) :
    m.word (8 * n) o n = some v ∧ Holds m (o + n) bs := by
  obtain ⟨first, rest⟩ := holds.append
  rw [le_length] at rest
  exact ⟨first.word, rest⟩

/-- Reading a field and going on. -/
theorem reads {α β : Type} {x : Option α} {a : α} {f : α → Option β} {b : β} (read : x = some a) (rest : f a = some b) :
    (x >>= f) = some b := Option.bind_eq_some_iff.2 ⟨a, read, rest⟩

/-- An optional field that the layout has. -/
theorem optField_of_word {m : Memory} {n b : Nat} {f : FieldPos} {v : BitVec n}
    (read : m.word n (b + f.off) f.width = some v) : m.optField n b (some f) = some (some v) :=
  congrArg (Option.map some) read

/-- A block that starts with its row's type byte decodes as its row does. -/
theorem decode_of_row {m : Memory} {o : Nat} {t : Byte} {r : Row} {i : Instr} (read : m.read o = some t)
    (row : defaultLayout.row? t = some r) (decoded : decodeRow defaultLayout m (o + 1) r.op = some i) :
    decode .tzx defaultLayout m o = .ok i :=
  decode_tzx_eq_ok.2 ⟨t, read, by rw [decodeBody, row]; exact decoded⟩

/-- A row's body of one field. -/
theorem decode_of_field {m : Memory} {o n : Nat} {t : Byte} {v : BitVec (8 * n)} {r : Row}
    {instr : BitVec (8 * n) → Instr} (holds : Holds m o (t :: le n v)) (row : defaultLayout.row? t = some r)
    (reads : ∀ w, m.word (8 * n) (o + 1) n = some w → decodeRow defaultLayout m (o + 1) r.op = some (instr w)) :
    decode .tzx defaultLayout m o = .ok (instr v) := by
  obtain ⟨opcode, body⟩ := holds.cons
  exact decode_of_row opcode row (reads v body.word)

/-- An operand of a field the default layout has. -/
theorem exists_of_spelled {n : Nat} {q : Option (BitVec n)} {f : FieldPos} (isSpelled : spelled q (some f) = true) :
    ∃ v, q = some v := Option.isSome_iff_exists.1 (by simpa [spelled] using isSpelled)

/-- Settles O52: the type byte finds the row, and each field the row reads lies where the encoder put it. -/
theorem decodeInvertsEncode : Obligations.DecodeInvertsEncode := by
  intro i m o wf (holds : Holds m o (encode i))
  cases i with
  | std q len =>
    obtain ⟨pause, rfl⟩ := exists_of_spelled (q := q) (f := ⟨0, 2⟩) wf
    obtain ⟨opcode, body⟩ := holds.cons
    obtain ⟨f1, body⟩ := body.field
    exact decode_of_row opcode rfl (reads (optField_of_word f1) (reads body.word rfl))
  | turbo pilotLength sync1 sync2 bit0 bit1 pilotCount usedBits q len =>
    obtain ⟨pause, rfl⟩ := exists_of_spelled (q := q) (f := ⟨0x0D, 2⟩) wf
    simp only [encode, optLe, List.append_assoc, List.cons_append] at holds
    obtain ⟨opcode, body⟩ := holds.cons
    obtain ⟨f1, body⟩ := body.field
    obtain ⟨f2, body⟩ := body.field
    obtain ⟨f3, body⟩ := body.field
    obtain ⟨f4, body⟩ := body.field
    obtain ⟨f5, body⟩ := body.field
    obtain ⟨f6, body⟩ := body.field
    obtain ⟨f7, body⟩ := body.field
    obtain ⟨f8, body⟩ := body.field
    exact decode_of_row opcode rfl (reads f1 (reads f2 (reads f3 (reads f4 (reads f5 (reads f6 (reads f7
      (reads (optField_of_word f8) (reads body.word rfl)))))))))
  | tone pulseLength count =>
    obtain ⟨opcode, body⟩ := holds.cons
    obtain ⟨f1, body⟩ := body.field
    exact decode_of_row opcode rfl (reads f1 (reads body.word rfl))
  | pdata bit0 bit1 usedBits q len =>
    obtain ⟨pause, rfl⟩ := exists_of_spelled (q := q) (f := ⟨0x05, 2⟩) wf
    simp only [encode, optLe, List.append_assoc, List.cons_append] at holds
    obtain ⟨opcode, body⟩ := holds.cons
    obtain ⟨f1, body⟩ := body.field
    obtain ⟨f2, body⟩ := body.field
    obtain ⟨f3, body⟩ := body.field
    obtain ⟨f4, body⟩ := body.field
    exact decode_of_row opcode rfl (reads f1 (reads f2 (reads f3 (reads (optField_of_word f4) (reads body.word rfl)))))
  | direct tps q used len =>
    obtain ⟨hasPause, hasUsed⟩ := Bool.and_eq_true_iff.1 wf
    obtain ⟨pause, rfl⟩ := exists_of_spelled (q := q) (f := ⟨0x02, 2⟩) hasPause
    obtain ⟨usedBits, rfl⟩ := exists_of_spelled (f := ⟨0x04, 1⟩) hasUsed
    simp only [encode, optLe, List.append_assoc, List.cons_append] at holds
    obtain ⟨opcode, body⟩ := holds.cons
    obtain ⟨f1, body⟩ := body.field
    obtain ⟨f2, body⟩ := body.field
    obtain ⟨f3, body⟩ := body.field
    exact decode_of_row opcode rfl (reads f1 (reads (optField_of_word f2) (reads (optField_of_word f3)
      (reads body.word rfl))))
  | gdb blen q totp npp asp totd npd asd =>
    obtain ⟨pause, rfl⟩ := exists_of_spelled (q := q) (f := ⟨0x04, 2⟩) wf
    simp only [encode, optLe, List.append_assoc, List.cons_append] at holds
    obtain ⟨opcode, body⟩ := holds.cons
    obtain ⟨f1, body⟩ := body.field
    obtain ⟨f2, body⟩ := body.field
    obtain ⟨f3, body⟩ := body.field
    obtain ⟨f4, body⟩ := body.field
    obtain ⟨f5, body⟩ := body.field
    obtain ⟨f6, body⟩ := body.field
    obtain ⟨f7, body⟩ := body.field
    exact decode_of_row opcode rfl (reads f1 (reads (optField_of_word f2) (reads f3 (reads f4 (reads f5 (reads f6
      (reads f7 (reads body.word rfl))))))))
  | msg time n =>
    obtain ⟨opcode, body⟩ := holds.cons
    obtain ⟨f1, body⟩ := body.field
    exact decode_of_row opcode rfl (reads f1 (reads body.word rfl))
  | custom id n =>
    obtain ⟨opcode, body⟩ := holds.cons
    obtain ⟨f1, body⟩ := body.field
    exact decode_of_row opcode rfl (reads f1 (reads body.word rfl))
  | snap kind n =>
    obtain ⟨opcode, body⟩ := holds.cons
    obtain ⟨f1, body⟩ := body.field
    exact decode_of_row opcode rfl (reads f1 (reads body.word rfl))
  | unknown type blen =>
    obtain ⟨opcode, body⟩ := holds.cons
    have noRow : defaultLayout.row? type = none := Option.isNone_iff_eq_none.1 wf
    refine decode_tzx_eq_ok.2 ⟨type, opcode, ?_⟩
    rw [decodeBody, noRow]
    exact reads body.word rfl
  | taprec n => exact decode_tap_eq_ok.2 ⟨n, holds.word, rfl⟩
  | pulses | pause | loops | c64rom | c64turbo | csw | grps | jump | callseq | select | stop48 | setlvl | text | archive
  | hwtype => exact decode_of_field holds rfl fun w read => reads read rfl
  | loope | grpe | ret | emuinfo | glue => exact decode_of_row holds.cons.1 rfl rfl

end Sys2Proof
end

section
/-! What stops the commands of a block, and with how many of them emitted (60_exceptions.md sections 1 and 5). -/

namespace Sys2Proof.Machine

open Sys2Proof

/-! ### Stops of a primitive -/

/-- Whatever stops these commands is of this kind. -/
def Emission.Stops (e : Emission) (P : Stop → Prop) : Prop := ∀ w, e.stop = some w → P w

theorem all_stops {cs : List Command} {P : Stop → Prop} : (Emission.all cs).Stops P := fun _ stop => by cases stop

theorem halt_stops {w : Stop} {P : Stop → Prop} (is : P w) : (Emission.halt w).Stops P := by
  rintro _ ⟨⟩; exact is

theorem seq_stops {a b : Emission} {P : Stop → Prop} (first : a.Stops P) (second : b.Stops P) : (a.seq b).Stops P :=
  fun w stop => (seq_stop_some stop).elim (first w) fun ⟨_, stop⟩ => second w stop

theorem times_stops {n : Nat} {e : Emission} {P : Stop → Prop} (each : e.Stops P) : (Emission.times n e).Stops P :=
  fun w stop => each w (times_stop_some stop)

theorem payload_stops (m : Memory) (f : Bool → List Command) (k ptr n : Nat) :
    (payload m f k ptr n).Stops fun w => w = .truncated ∧ m.len < ptr + n := fun _ stop => payload_stop stop

/-- A pilot train is refused before any command, for `usedBits` above 8, and truncated by a payload beyond `LEN`
(R162, R165). -/
theorem pilotTrain_stops (m : Memory) (p : PulseRegs) :
    (p.bitsOutOfRange = true ∧ pilotTrain m p = Emission.halt (.refuse .bitsInLastByteRange)) ∨
    (pilotTrain m p).Stops fun w => w = .truncated ∧ m.len < p.dataPtr + p.dataLen.toNat := by
  unfold pilotTrain
  split
  · exact .inl ⟨‹_›, rfl⟩
  · exact .inr (seq_stops all_stops (seq_stops (payload_stops _ _ _ _ _) all_stops))

/-- The same of a direct recording (R190). -/
theorem directRecording_stops (m : Memory) (p : PulseRegs) :
    (p.bitsOutOfRange = true ∧ directRecording m p = Emission.halt (.refuse .bitsInLastByteRange)) ∨
    (directRecording m p).Stops fun w => w = .truncated ∧ m.len < p.dataPtr + p.dataLen.toNat := by
  unfold directRecording
  split
  · exact .inl ⟨‹_›, rfl⟩
  · exact .inr (seq_stops (payload_stops _ _ _ _ _) all_stops)

theorem listedPulses_stops (m : Memory) (w a n : Nat) :
    (listedPulses m w a n).Stops fun r => r = .truncated ∧ m.len < a + w * n := fun _ stop => listedPulses_stop stop

/-! ### Stops of a generalized block

Each statement is for any kind `P` of stops that holds the two refusals of a symbol, and holds truncation unless all
that is read lies inside the image. -/

section
variable {P : Stop → Prop}

theorem symbolPulses_stops (m : Memory) (w a n : Nat) (inside : P .truncated ∨ a + w * n ≤ m.len) :
    (symbolPulses m w a n).Stops P := by
  intro r stop
  obtain ⟨rfl, beyond⟩ := symbolPulses_stop stop
  exact inside.elim id fun within => absurd within (not_le.2 beyond)

/-- The definition of a symbol lies inside the image. -/
def SymbolInside (Y : SymbolLayout) (m : Memory) (tab maxp idx : Nat) : Prop :=
  tab + idx * symbolSize Y maxp + Y.flags.off + Y.flags.width ≤ m.len ∧
    tab + idx * symbolSize Y maxp + Y.durations.off + Y.durations.width * maxp ≤ m.len

theorem symbol_stops (Y : SymbolLayout) (m : Memory) (tab maxp asz : Nat) (range : P (.refuse .symbolIndexRange))
    (flags : P (.refuse .symbolFlagsRange)) (inside : P .truncated ∨ ∀ idx, idx < asz → SymbolInside Y m tab maxp idx)
    (idx : Nat) : (symbol Y m tab maxp asz idx).Stops P := by
  unfold symbol
  split
  · exact halt_stops range
  · rename_i below
    have inside := inside.imp_right fun all => all idx (not_le.1 below)
    cases read : m.field 8 (tab + idx * symbolSize Y maxp) Y.flags with
    | none => exact halt_stops (inside.elim id fun within => absurd within.1 (not_le.2 (word_none read)))
    | some flags' =>
      dsimp only
      cases polarity Y flags' with
      | none => exact halt_stops flags
      | some cs => exact seq_stops all_stops (symbolPulses_stops _ _ _ _ (inside.imp_right And.right))

/-- A run-length entry lies inside the image. -/
def EntryInside (L : Layout) (m : Memory) (a : Nat) : Prop :=
  a + L.rle.symbolIndex.off + L.rle.symbolIndex.width ≤ m.len ∧
    a + L.rle.repeatCount.off + L.rle.repeatCount.width ≤ m.len

theorem replayRle_stops (L : Layout) (m : Memory) (tab maxp asz : Nat)
    (symbols : ∀ idx, (symbol L.symbol m tab maxp asz idx).Stops P) (n : Nat) : ∀ a,
    (P .truncated ∨ ∀ r, r < n → EntryInside L m (a + L.rle.size * r)) → (replayRle L m tab maxp asz a n).Stops P := by
  induction n with
  | zero => exact fun _ _ => all_stops
  | succ n ih =>
    intro a inside
    have first := inside.imp_right fun all => all 0 (Nat.zero_lt_succ n)
    have rest : P .truncated ∨ ∀ r, r < n → EntryInside L m (a + L.rle.size + L.rle.size * r) :=
      inside.imp_right fun all r below => by
        have := all (r + 1) (Nat.succ_lt_succ below)
        rwa [Nat.mul_succ, Nat.add_comm (L.rle.size * r), ← Nat.add_assoc] at this
    unfold replayRle
    cases index : m.field 8 a L.rle.symbolIndex with
    | none => exact halt_stops (first.elim id fun within => absurd within.1 (not_le.2 (word_none index)))
    | some idx =>
      cases count : m.field 16 a L.rle.repeatCount with
      | none => exact halt_stops (first.elim id fun within => absurd within.2 (not_le.2 (word_none count)))
      | some reps => exact seq_stops (times_stops (symbols _)) (ih _ rest)

theorem replayData_stops (L : Layout) (msbFirst : Bool) (m : Memory) (tab maxp asz nb str : Nat)
    (symbols : ∀ idx, (symbol L.symbol m tab maxp asz idx).Stops P) (n : Nat) : ∀ q,
    (P .truncated ∨ ∀ k, k < q + n * nb → str + k / 8 < m.len) →
      (replayData L msbFirst m tab maxp asz nb str q n).out.Stops P := by
  induction n with
  | zero => exact fun _ _ => all_stops
  | succ n ih =>
    intro q inside
    rw [Nat.succ_mul] at inside
    unfold replayData
    cases read : streamBits m str q nb with
    | none =>
      refine halt_stops (inside.elim id fun all => ?_)
      rw [streamBits_eq m str nb q fun k below => all (q + k) (by omega)] at read
      cases read
    | some bits =>
      dsimp only
      cases stop : (symbol L.symbol m tab maxp asz (indexOfBits msbFirst bits)).stop with
      | some w => exact symbols _
      | none => exact seq_stops (symbols _) (ih _ (inside.imp_right fun all k below => all k (by omega)))

end

/-- A generalized block is refused for a symbol alone (R210, R211). -/
theorem gdbEmission_refused {s : State} {t : GdbTables} {w : SessionRefusal}
    (stop : (gdbEmission s t).stop = some (.refuse w)) : w = .symbolIndexRange ∨ w = .symbolFlagsRange := by
  let P : Stop → Prop := fun r => ∀ w, r = .refuse w → w = .symbolIndexRange ∨ w = .symbolFlagsRange
  have symbols (tab maxp asz idx : Nat) : (symbol s.layout.symbol s.img tab maxp asz idx).Stops P :=
    symbol_stops _ _ _ _ _ (by rintro _ ⟨⟩; exact .inl rfl) (by rintro _ ⟨⟩; exact .inr rfl) (.inl (by rintro _ ⟨⟩)) idx
  have pilots : (pilotStream s.layout s.img s.g t).Stops P := by
    unfold pilotStream
    split
    · exact replayRle_stops _ _ _ _ _ (symbols _ _ _) _ _ (.inl (by rintro _ ⟨⟩))
    · exact all_stops
  have datas (g : SymbolRegs) : (dataStream s.layout s.params.symIndexMsbFirst s.img g t).out.Stops P := by
    unfold dataStream
    split
    · exact replayData_stops _ _ _ _ _ _ _ _ (symbols _ _ _) _ _ (.inl (by rintro _ ⟨⟩))
    · exact all_stops
  exact seq_stops pilots (seq_stops (datas _) all_stops) _ stop w rfl

/-! ### Refusals and their reasons (R285) -/

/-- What a refused effect was refused for, and what it had emitted. -/
def RefusedRightly (i : Instr) (out : Emission) (w : SessionRefusal) : Prop :=
  (w = .emptyStandardBlock ∧ out.cmds = [] ∧ ((∃ q, i = .std q 0) ∨ i = .taprec 0)) ∨
  (w = .bitsInLastByteRange ∧ out.cmds = [] ∧ ∃ (used : Byte) (len : Word24), 8 < used.toNat ∧ 0 < len.toNat ∧
    ((∃ a b c d e f q, i = .turbo a b c d e f used q len) ∨ (∃ a b q, i = .pdata a b used q len) ∨
      (∃ a q, i = .direct a q (some used) len))) ∨
  ((w = .symbolIndexRange ∨ w = .symbolFlagsRange) ∧ i.op? = some .gdb)

/-- A primitive that checks `usedBits` is refused for that alone, before any command. -/
theorem refused_of_bits {out : Emission} {p : PulseRegs} {n : Nat} {w : SessionRefusal}
    (stops : (p.bitsOutOfRange = true ∧ out = Emission.halt (.refuse .bitsInLastByteRange)) ∨
      out.Stops fun w => w = .truncated ∧ n < p.dataPtr + p.dataLen.toNat)
    (stop : out.stop = some (.refuse w)) :
    w = .bitsInLastByteRange ∧ out.cmds = [] ∧ 8 < p.bitsLast.toNat ∧ 0 < p.dataLen.toNat := by
  rcases stops with ⟨outOfRange, rfl⟩ | stops
  · cases stop
    obtain ⟨payload, above⟩ := bitsOutOfRange_iff.1 outOfRange
    exact ⟨rfl, rfl, above, payload⟩
  · cases (stops _ stop).1

/-- A standard-speed payload plays all 8 bits of its last byte and is never refused (R169). -/
theorem standard_not_refused (s : State) (o : Nat) (q : Option Half) (ptr : Nat) (len : Half) (w : SessionRefusal) :
    (Effect.standard s o q ptr len).out.stop ≠ some (.refuse w) := by
  intro stop
  unfold Effect.standard at stop
  cases read : s.img.read ptr with
  | none => rw [read] at stop; cases stop
  | some first =>
    rw [read] at stop
    obtain ⟨_, _, above, _⟩ := refused_of_bits (pilotTrain_stops _ _) stop
    exact absurd above (by decide : ¬8 < (8 : Byte).toNat)

theorem paused_refused {s : State} {o : Nat} {f : Option FieldPos} {rule : Option Half → Effect} {w : SessionRefusal}
    (stop : (Effect.paused s o f rule).out.stop = some (.refuse w)) : ∃ q, (rule q).out.stop = some (.refuse w) := by
  unfold Effect.paused at stop
  split at stop
  · cases stop
  · exact ⟨_, stop⟩

/-- A refused effect was refused for the reason of its instruction. -/
theorem effect_refused {i : Instr} {s : State} {x : Effect} {w : SessionRefusal} (has : effect i s = some x)
    (stop : x.out.stop = some (.refuse w)) : RefusedRightly i x.out w := by
  cases i with
  | std q len =>
    obtain ⟨e, _, rfl⟩ := Option.map_eq_some_iff.1 has
    by_cases empty : len = 0
    · subst empty
      rw [if_pos rfl] at stop ⊢
      cases stop
      exact .inl ⟨rfl, rfl, .inl ⟨q, rfl⟩⟩
    · rw [if_neg empty] at stop
      exact absurd stop (standard_not_refused _ _ _ _ _ _)
  | turbo a b c d e f used q len =>
    obtain ⟨entry, _, rfl⟩ := Option.map_eq_some_iff.1 has
    obtain ⟨reason, silent, above, payload⟩ := refused_of_bits (pilotTrain_stops _ _) stop
    exact .inr (.inl ⟨reason, silent, used, len, above, payload, .inl ⟨a, b, c, d, e, f, q, rfl⟩⟩)
  | pdata a b used q len =>
    obtain ⟨entry, _, rfl⟩ := Option.map_eq_some_iff.1 has
    obtain ⟨reason, silent, above, payload⟩ := refused_of_bits (pilotTrain_stops _ _) stop
    exact .inr (.inl ⟨reason, silent, used, len, above, payload, .inr (.inl ⟨a, b, q, rfl⟩)⟩)
  | direct a q used len =>
    obtain ⟨entry, _, rfl⟩ := Option.map_eq_some_iff.1 has
    obtain ⟨reason, silent, above, payload⟩ := refused_of_bits (directRecording_stops _ _) stop
    cases used with
    | none => exact absurd above (by decide : ¬8 < (8 : Byte).toNat)
    | some used => exact .inr (.inl ⟨reason, silent, used, len, above, payload, .inr (.inr ⟨a, q, rfl⟩)⟩)
  | tone pulseLength count =>
    obtain ⟨entry, _, rfl⟩ := Option.map_eq_some_iff.1 has
    obtain ⟨q, stop⟩ := paused_refused stop
    obtain ⟨_, _, _, payload⟩ := refused_of_bits (pilotTrain_stops _ _) stop
    exact absurd payload (Nat.lt_irrefl 0)
  | pulses n =>
    obtain ⟨entry, _, rfl⟩ := Option.map_eq_some_iff.1 has
    obtain ⟨q, stop⟩ := paused_refused stop
    cases (seq_stops (listedPulses_stops _ _ _ _) all_stops _ stop).1
  | gdb blen q totp npp asp totd npd asd =>
    obtain ⟨entry, _, rfl⟩ := Option.map_eq_some_iff.1 has
    dsimp only [Effect.gdb] at stop
    split at stop
    · cases stop
    · exact .inr (.inr ⟨gdbEmission_refused stop, rfl⟩)
  | taprec n =>
    cases has
    by_cases empty : n = 0
    · subst empty
      cases stop
      exact .inl ⟨rfl, rfl, .inr rfl⟩
    · dsimp only at stop
      rw [if_neg empty] at stop
      exact absurd stop (standard_not_refused _ _ _ _ _ _)
  | loope =>
    cases has
    unfold Effect.loope at stop
    split at stop <;> cases stop
  | pause | loops | c64rom | c64turbo | csw | grps | grpe | jump | callseq | ret | select | stop48 | setlvl | text | msg
  | archive | hwtype | emuinfo | custom | snap | glue | unknown => cases has; cases stop

/-- Settles O51: a session that was running is refused by a refused effect alone. -/
theorem refusalsHaveTheirReasons : Obligations.RefusalsHaveTheirReasons := by
  intro i s t running ran refused
  obtain ⟨x, has, rfl⟩ := exec_eq_next.1 ran
  rcases run_cases x s with ⟨_, phase, _⟩ | ⟨_, phase, _⟩ | ⟨w, stop, _, _, why, _⟩
  · rw [phase, running] at refused; cases refused
  · rw [phase] at refused; cases refused
  · have trace (silent : x.out.cmds = []) : (x.run s).trace = s.trace := by rw [run_trace, silent, List.append_nil]
    rw [why]
    rcases effect_refused has stop with ⟨rfl, silent, is⟩ | ⟨rfl, silent, is⟩ | ⟨rfl | rfl, is⟩
    · exact .inl ⟨rfl, trace silent, is⟩
    · exact .inr (.inl ⟨rfl, trace silent, is⟩)
    · exact .inr (.inr ⟨.inl rfl, is⟩)
    · exact .inr (.inr ⟨.inr rfl, is⟩)

end Sys2Proof.Machine
end

section
/-! The generalized block under the default layout (30_encoding.md R89 to R92, 45_generalized.md): where its tables
lie, and that whatever it reads lies inside the image when its last table does. -/

namespace Sys2Proof.Machine

open Sys2Proof

/-- The operands of a generalized block but for its length, which serves `bodySize` alone (R201). -/
structure GdbFields where
  pause : Option Half
  totp  : Word32
  npp   : Byte
  asp   : Byte
  totd  : Word32
  npd   : Byte
  asd   : Byte

namespace GdbFields

variable (F : GdbFields) (o : Nat)

/-- The loads of `G.*` (R201). -/
def load (g : SymbolRegs) : SymbolRegs := gdbLoad F.pause F.totp F.npp F.asp F.totd F.npd F.asd g

/-- The pilot/sync symbol definitions of the block at `o`. -/
def symP : Nat := o + 19

/-- The run-length table. -/
def rle : Nat := symP o + (2 * F.npp.toNat + 1) * alphabetSize F.asp

/-- The data symbol definitions. -/
def symD : Nat := if F.totp = 0 then symP o else F.rle o + 3 * F.totp.toNat

/-- The data stream. -/
def str : Nat := F.symD o + (2 * F.npd.toNat + 1) * alphabetSize F.asd

/-- The bits of a packed symbol. -/
def nb : Nat := ceilLog2 (alphabetSize F.asd)

/-- The end of the last table that is read. -/
def stop : Nat := if F.totd = 0 then F.symD o else F.str o + (F.nb * F.totd.toNat + 7) / 8

/-- The tables as the machine computes them from its registers. -/
def tables (g : SymbolRegs) : GdbTables := gdbTables defaultLayout (F.load g) (o + 19)

end GdbFields

/-- The alphabet-size registers hold 256 (R201, R209). -/
theorem toNat_alphabetSize (a : Byte) : (BitVec.ofNat 9 (alphabetSize a)).toNat = alphabetSize a := by
  refine Nat.mod_eq_of_lt ?_
  have := a.isLt
  unfold alphabetSize maxAlphabet
  split <;> omega

/-- `G.nb` holds every symbol width (R13, R93). -/
theorem toNat_ceilLog2 (n : Nat) : (BitVec.ofNat 4 (ceilLog2 n)).toNat = ceilLog2 n := by
  refine Nat.mod_eq_of_lt ?_
  unfold ceilLog2
  split_ifs <;> decide

section
variable {F : GdbFields} {o : Nat} {g : SymbolRegs}

theorem load_asp : (F.load g).asp.toNat = alphabetSize F.asp := toNat_alphabetSize F.asp

theorem load_asd : (F.load g).asd.toNat = alphabetSize F.asd := toNat_alphabetSize F.asd

theorem load_nb : (F.load g).nb.toNat = F.nb := toNat_ceilLog2 _

/-- The tables lie where the operands put them (R89). -/
theorem tables_eq : (F.tables o g).symP = GdbFields.symP o ∧ (F.tables o g).symD = F.symD o ∧
    (F.totp ≠ 0 → (F.tables o g).rle = F.rle o) ∧ (F.totd ≠ 0 → (F.tables o g).str = F.str o) ∧
    (F.tables o g).stop = F.stop o := by
  have tables := gdbTables_default (F.load g) (o + 19)
  rw [load_asp, load_asd, load_nb] at tables
  exact tables

theorem toNat_pos {v : Word32} (some : v ≠ 0) : 0 < v.toNat :=
  Nat.pos_of_ne_zero fun zero => some (BitVec.eq_of_toNat_eq zero)

/-- The pilot/sync tables of a block that reads them lie before its data symbols. -/
theorem symD_of_pilots (pilots : F.totp ≠ 0) : F.symD o = F.rle o + 3 * F.totp.toNat := if_neg pilots

theorem symD_le_stop : F.symD o ≤ F.stop o := by
  unfold GdbFields.stop GdbFields.str
  split <;> omega

theorem stop_of_datas (datas : F.totd ≠ 0) : F.stop o = F.str o + (F.nb * F.totd.toNat + 7) / 8 := if_neg datas

end

/-- A symbol of a table inside the image lies inside it (R90). -/
theorem symbolInside {m : Memory} {tab maxp asz : Nat} (inside : tab + (2 * maxp + 1) * asz ≤ m.len) (idx : Nat)
    (below : idx < asz) : SymbolInside defaultLayout.symbol m tab maxp idx := by
  have upTo : idx * (2 * maxp + 1) + (2 * maxp + 1) ≤ (2 * maxp + 1) * asz := by
    rw [← Nat.succ_mul, Nat.mul_comm _ asz]
    exact Nat.mul_le_mul_right _ below
  show tab + idx * (2 * maxp + 1) + 0 + 1 ≤ m.len ∧ tab + idx * (2 * maxp + 1) + 1 + 2 * maxp ≤ m.len
  omega

/-- An entry of a run-length table inside the image lies inside it (R91). -/
theorem entryInside {m : Memory} {a n : Nat} (inside : a + 3 * n ≤ m.len) (r : Nat) (below : r < n) :
    EntryInside defaultLayout m (a + defaultLayout.rle.size * r) := by
  show a + 3 * r + 0 + 1 ≤ m.len ∧ a + 3 * r + 1 + 2 ≤ m.len
  omega

/-- A bit of a packed stream inside the image lies inside it (R207, R208). -/
theorem streamInside {m : Memory} {str nb n : Nat} (inside : str + (nb * n + 7) / 8 ≤ m.len) (k : Nat)
    (below : k < n * nb) : str + k / 8 < m.len := by
  rw [Nat.mul_comm] at below
  omega

section
variable {F : GdbFields} {o : Nat} {g : SymbolRegs} {m : Memory}

/-- The pilot/sync stream is the replay of its table, also where the table is absent (R205). -/
theorem pilotStream_eq :
    pilotStream defaultLayout m (F.load g) (F.tables o g) =
      replayRle defaultLayout m (GdbFields.symP o) F.npp.toNat (alphabetSize F.asp) (F.rle o) F.totp.toNat := by
  obtain ⟨symP, -, rle, -, -⟩ := tables_eq (F := F) (o := o) (g := g)
  by_cases none : F.totp = 0
  · simp [pilotStream, GdbFields.load, gdbLoad, none, replayRle]
  · rw [← symP, ← rle none, ← load_asp (g := g)]
    exact if_pos (toNat_pos none)

/-- The data stream is the replay of its symbols (R206). -/
theorem dataStream_eq (msb : Bool) (datas : F.totd ≠ 0) :
    dataStream defaultLayout msb m (F.load g) (F.tables o g) =
      replayData defaultLayout msb m (F.symD o) F.npd.toNat (alphabetSize F.asd) F.nb (F.str o) 0 F.totd.toNat := by
  obtain ⟨-, symD, -, str, -⟩ := tables_eq (F := F) (o := o) (g := g)
  rw [← symD, ← str datas, ← load_asd (g := g), ← load_nb (g := g)]
  exact if_pos (toNat_pos datas)

theorem dataStream_of_none (msb : Bool) (none : F.totd = 0) :
    (dataStream defaultLayout msb m (F.load g) (F.tables o g)).out = Emission.all [] := by
  simp [dataStream, GdbFields.load, gdbLoad, none]

/-- The tables of the pilot/sync stream lie inside an image that holds what stands before the data symbols. -/
theorem pilots_inside (pilots : F.totp ≠ 0) (inside : F.symD o ≤ m.len) :
    GdbFields.symP o + (2 * F.npp.toNat + 1) * alphabetSize F.asp ≤ m.len ∧ F.rle o + 3 * F.totp.toNat ≤ m.len := by
  rw [symD_of_pilots pilots] at inside
  exact ⟨(Nat.le_add_right _ _).trans inside, inside⟩

/-- The tables of the data stream lie inside an image that holds all that is read. -/
theorem datas_inside (datas : F.totd ≠ 0) (inside : F.stop o ≤ m.len) :
    F.symD o + (2 * F.npd.toNat + 1) * alphabetSize F.asd ≤ m.len ∧
      ∀ k, k < F.totd.toNat * F.nb → F.str o + k / 8 < m.len := by
  rw [stop_of_datas datas] at inside
  exact ⟨(Nat.le_add_right _ _).trans inside, streamInside inside⟩

end

/-- A stream whose tables lie inside the image is not truncated. -/
theorem gdb_not_truncated {F : GdbFields} {o : Nat} {g : SymbolRegs} {m : Memory} (inside : F.stop o ≤ m.len) :
    (pilotStream defaultLayout m (F.load g) (F.tables o g)).Stops (· ≠ .truncated) ∧
    ∀ msb, (dataStream defaultLayout msb m (F.load g) (F.tables o g)).out.Stops (· ≠ .truncated) := by
  refine ⟨?_, fun msb => ?_⟩
  · rw [pilotStream_eq]
    by_cases none : F.totp = 0
    · rw [none]
      exact all_stops
    · obtain ⟨symbols, entries⟩ := pilots_inside none (symD_le_stop.trans inside)
      exact replayRle_stops _ _ _ _ _
        (symbol_stops _ _ _ _ _ (by decide) (by decide) (.inr (symbolInside symbols))) _ _ (.inr (entryInside entries))
  · by_cases none : F.totd = 0
    · rw [dataStream_of_none msb none]
      exact all_stops
    · obtain ⟨symbols, bits⟩ := datas_inside none inside
      rw [dataStream_eq msb none]
      exact replayData_stops _ _ _ _ _ _ _ _
        (symbol_stops _ _ _ _ _ (by decide) (by decide) (.inr (symbolInside symbols))) _ _
        (.inr (by rwa [Nat.zero_add]))

/-- The tables the effect of a generalized block is computed with. -/
theorem blank_tables {s : State} (layout : s.layout = defaultLayout) (F : GdbFields) (o : Nat) :
    gdbTables s.layout (blankGdb s F.pause F.totp F.npp F.asp F.totd F.npd F.asd).g (o + 1 + s.layout.gdb.tables) =
      F.tables o SymbolRegs.reset := by
  rw [layout]
  rfl

/-- The commands of a generalized block under the default layout. -/
theorem blank_emission {s : State} (layout : s.layout = defaultLayout) (F : GdbFields) (t : GdbTables) :
    gdbEmission (blankGdb s F.pause F.totp F.npp F.asp F.totd F.npd F.asd) t =
      (pilotStream defaultLayout s.img (F.load SymbolRegs.reset) t).seq
        ((dataStream defaultLayout s.params.symIndexMsbFirst s.img
          ((F.load SymbolRegs.reset).usePilotTables t) t).out.seq (Emission.all (optPausePlays F.pause))) := by
  have paused : gdbPause (blankGdb s F.pause F.totp F.npp F.asp F.totd F.npd F.asd) = optPausePlays F.pause := by
    rw [blankGdb, gdbPause_loadGdb]
    cases F.pause with
    | none => rfl
    | some n => exact pause_eq_pausePlays _
  unfold gdbEmission
  rw [paused, show (blankGdb s F.pause F.totp F.npp F.asp F.totd F.npd F.asd).layout = defaultLayout from layout]
  rfl

/-- The pointers of the pilot/sync stream are none the data stream reads. -/
theorem dataStream_usePilotTables (L : Layout) (msb : Bool) (m : Memory) (g : SymbolRegs) (t t' : GdbTables) :
    dataStream L msb m (g.usePilotTables t') t = dataStream L msb m g t := by
  unfold SymbolRegs.usePilotTables
  split <;> rfl

/-- The effect of the block with these fields. -/
def GdbFields.effect (F : GdbFields) (s : State) (o : Nat) : Effect :=
  Effect.gdb s o F.pause F.totp F.npp F.asp F.totd F.npd F.asd

section
variable {s : State} (layout : s.layout = defaultLayout) (F : GdbFields) (o : Nat)
include layout

/-- A block whose last table leaves the image emits nothing (R200, R202). -/
theorem effect_out_of_beyond (beyond : s.len < F.stop o) : (F.effect s o).out = Emission.halt .truncated := by
  have ends := (tables_eq (F := F) (o := o) (g := SymbolRegs.reset)).2.2.2.2
  unfold GdbFields.effect Effect.gdb
  dsimp only
  rw [blank_tables layout, ends, if_pos beyond]

/-- Any other plays both streams and the pause. -/
theorem effect_out_of_inside (inside : F.stop o ≤ s.len) :
    (F.effect s o).out =
      (pilotStream defaultLayout s.img (F.load SymbolRegs.reset) (F.tables o SymbolRegs.reset)).seq
        ((dataStream defaultLayout s.params.symIndexMsbFirst s.img (F.load SymbolRegs.reset)
          (F.tables o SymbolRegs.reset)).out.seq (Emission.all (optPausePlays F.pause))) := by
  have ends := (tables_eq (F := F) (o := o) (g := SymbolRegs.reset)).2.2.2.2
  unfold GdbFields.effect Effect.gdb
  dsimp only
  rw [blank_tables layout, ends, if_neg (not_lt.2 inside), blank_emission layout, dataStream_usePilotTables]

end

end Sys2Proof.Machine
end

section
/-! Under the default layout errors fall between blocks (60_exceptions.md R272, 41_sequencer.md R133): a block that
passed the dispatch check holds all that it reads, by its size formula. -/

namespace Sys2Proof.Machine

open Sys2Proof

theorem memRead_lt (m : Memory) (n : Nat) : ∀ {a v}, m.memRead a n = some v → v < 256 ^ n := by
  induction n with
  | zero => rintro a v ⟨⟩; exact Nat.one_pos
  | succ n ih =>
    intro a v read
    rw [Memory.memRead] at read
    cases first : m.read a with
    | none => rw [first] at read; cases read
    | some b =>
      cases rest : m.memRead (a + 1) n with
      | none => rw [first, rest] at read; cases read
      | some r =>
        rw [first, rest] at read
        cases read
        have := ih rest
        have := b.isLt
        rw [pow_succ]
        omega

/-- A size formula that counts a field's value counts the operand the decoder reads from that field. -/
theorem size_of_counted {m : Memory} {b base scale off width size : Nat} {v : BitVec (8 * width)}
    (sized : (SizeRule.counted base scale off width).eval m b = some size)
    (read : m.field (8 * width) b ⟨off, width⟩ = some v) : size = base + scale * v.toNat := by
  obtain ⟨n, value, rfl⟩ := Option.map_eq_some_iff.1 sized
  obtain ⟨n', value', rfl⟩ := Option.map_eq_some_iff.1 read
  have same : n' = n := Option.some.inj (value'.symm.trans value)
  subst same
  rw [BitVec.toNat_ofNat, Nat.mod_eq_of_lt]
  rw [Nat.pow_mul]
  exact memRead_lt m width value

/-- What a type byte decodes to is decoded by the row of its name, and that row gives the block's size. -/
theorem row_of_decodeBody {L : Layout} {m : Memory} {t : Byte} {b size : Nat} {i : Instr} {op : Op}
    (decoded : decodeBody L m t b = some i) (isRow : i.op? = some op) (sized : bodySize L m t b = some size) :
    ∃ r ∈ L.rows, r.op = op ∧ decodeRow L m b op = some i ∧ r.size.eval m b = some size := by
  unfold decodeBody at decoded
  unfold bodySize Layout.sizeRule at sized
  cases row : L.row? t with
  | some r =>
    rw [row] at decoded sized
    have same : r.op = op := Option.some.inj ((decodeRow_op decoded).1.symm.trans isRow)
    exact ⟨r, (row?_mem row).1, same, same ▸ decoded, sized⟩
  | none =>
    rw [row] at decoded
    simp only [decodeFallback, Option.bind_eq_bind, Option.bind_eq_some_iff, Option.some.injEq] at decoded
    obtain ⟨_, _, rfl⟩ := decoded
    cases isRow

/-- The size of a block of the default layout whose size formula counts its payload. -/
def payloadSize : Instr → Option Nat
  | .std _ len => some (4 + 1 * len.toNat)
  | .turbo _ _ _ _ _ _ _ _ len => some (0x12 + 1 * len.toNat)
  | .pulses n => some (1 + 2 * n.toNat)
  | .pdata _ _ _ _ len => some (0x0A + 1 * len.toNat)
  | .direct _ _ _ len => some (8 + 1 * len.toNat)
  | _ => none

/-- The rows of the blocks with a counted payload count it by these formulas (R80 to R87). -/
theorem size_of_row {r : Row} (among : r ∈ defaultLayout.rows) :
    (r.op = .std → r.size = .counted 4 1 2 2) ∧ (r.op = .turbo → r.size = .counted 0x12 1 0x0F 3) ∧
    (r.op = .pulses → r.size = .counted 1 2 0 1) ∧ (r.op = .pdata → r.size = .counted 0x0A 1 7 3) ∧
    (r.op = .direct → r.size = .counted 8 1 5 3) := by
  revert r
  decide

/-- The row that spells an instruction with a counted payload counts its length operand. -/
theorem payloadSize_of_decodeRow {m : Memory} {b size n : Nat} {r : Row} {i : Instr} (among : r ∈ defaultLayout.rows)
    (decoded : decodeRow defaultLayout m b r.op = some i) (sized : r.size.eval m b = some size)
    (counted : payloadSize i = some n) : size = n := by
  obtain ⟨std, turbo, pulses, pdata, direct⟩ := size_of_row among
  have named := (decodeRow_op decoded).1
  cases i with
  | std q len =>
    cases counted
    have named := (Option.some.inj named).symm
    rw [std named] at sized
    simp only [named, decodeRow, Option.bind_eq_bind, Option.bind_eq_some_iff, Option.some.injEq] at decoded
    obtain ⟨_, _, _, read, same⟩ := decoded
    cases same
    exact size_of_counted (width := 2) sized read
  | turbo a b c d e f used q len =>
    cases counted
    have named := (Option.some.inj named).symm
    rw [turbo named] at sized
    simp only [named, decodeRow, Option.bind_eq_bind, Option.bind_eq_some_iff, Option.some.injEq] at decoded
    obtain ⟨_, _, _, _, _, _, _, _, _, _, _, _, _, _, _, _, _, read, same⟩ := decoded
    cases same
    exact size_of_counted (width := 3) sized read
  | pulses n =>
    cases counted
    have named := (Option.some.inj named).symm
    rw [pulses named] at sized
    simp only [named, decodeRow, Option.bind_eq_bind, Option.bind_eq_some_iff, Option.some.injEq] at decoded
    obtain ⟨_, read, same⟩ := decoded
    cases same
    exact size_of_counted (width := 1) sized read
  | pdata a b used q len =>
    cases counted
    have named := (Option.some.inj named).symm
    rw [pdata named] at sized
    simp only [named, decodeRow, Option.bind_eq_bind, Option.bind_eq_some_iff, Option.some.injEq] at decoded
    obtain ⟨_, _, _, _, _, _, _, _, _, read, same⟩ := decoded
    cases same
    exact size_of_counted (width := 3) sized read
  | direct tps q used len =>
    cases counted
    have named := (Option.some.inj named).symm
    rw [direct named] at sized
    simp only [named, decodeRow, Option.bind_eq_bind, Option.bind_eq_some_iff, Option.some.injEq] at decoded
    obtain ⟨_, _, _, _, _, _, _, read, same⟩ := decoded
    cases same
    exact size_of_counted (width := 3) sized read
  | _ => cases counted

/-- A block of the default layout whose size formula counts its payload is as long as its operands say. -/
theorem payloadSize_of_decodeBody {m : Memory} {t : Byte} {b size n : Nat} {i : Instr}
    (decoded : decodeBody defaultLayout m t b = some i) (sized : bodySize defaultLayout m t b = some size)
    (counted : payloadSize i = some n) : size = n := by
  cases named : i.op? with
  | none =>
    cases i with
    | unknown | taprec => cases counted
    | _ => cases named
  | some op =>
    obtain ⟨r, among, rfl, decoded, sized⟩ := row_of_decodeBody decoded named sized
    exact payloadSize_of_decodeRow among decoded sized counted

/-- Commands that were stopped by the end of the image before the first of them, or not by it. -/
def Emission.Clean (e : Emission) : Prop := e.stop = some .truncated → e.cmds = []

theorem clean_of_stops {e : Emission} (stops : e.Stops (· ≠ .truncated)) : e.Clean := fun stop => absurd rfl (stops _ stop)

theorem clean_halt (w : Stop) : (Emission.halt w).Clean := fun _ => rfl

/-- A primitive that is refused at once or truncated by a payload beyond `LEN` is clean on a payload inside it. -/
theorem clean_of_inside {e : Emission} {p : PulseRegs} {w : Stop} {len : Nat}
    (stops : (p.bitsOutOfRange = true ∧ e = Emission.halt w) ∨
      e.Stops fun w => w = .truncated ∧ len < p.dataPtr + p.dataLen.toNat)
    (inside : p.dataPtr + p.dataLen.toNat ≤ len) : e.Clean := by
  rcases stops with ⟨_, rfl⟩ | stops
  · exact clean_halt w
  · exact fun stop => absurd inside (not_le.2 (stops _ stop).2)

theorem clean_standard {s : State} {o ptr : Nat} {q : Option Half} {len : Half} (inside : ptr + len.toNat ≤ s.len) :
    (Effect.standard s o q ptr len).out.Clean := by
  unfold Effect.standard
  cases s.img.read ptr with
  | none => exact clean_halt _
  | some first =>
    refine clean_of_inside (pilotTrain_stops _ _) ?_
    show ptr + (len.setWidth 24).toNat ≤ s.len
    rw [toNat_setWidth_half]
    exact inside

theorem clean_paused {s : State} {o : Nat} {f : Option FieldPos} {rule : Option Half → Effect}
    (rules : ∀ q, (rule q).out.Clean) : (Effect.paused s o f rule).out.Clean := by
  unfold Effect.paused
  split
  · exact clean_halt _
  · exact rules _

/-- A generalized block either ends beyond the image and emits nothing, or has all of its tables inside it. -/
theorem clean_gdb {s : State} (layout : s.layout = defaultLayout) (o : Nat) (F : GdbFields) :
    (F.effect s o).out.Clean := by
  rcases lt_or_ge s.len (F.stop o) with beyond | inside
  · rw [effect_out_of_beyond layout F o beyond]
    exact clean_halt _
  · rw [effect_out_of_inside layout F o inside]
    obtain ⟨pilots, datas⟩ := gdb_not_truncated (F := F) (o := o) (g := SymbolRegs.reset) inside
    exact clean_of_stops (seq_stops pilots (seq_stops (datas _) all_stops))

/-- A block inside the image, as long as its operands say, has emitted nothing when the end of the image stops it. -/
theorem clean_of_entry {s : State} {i : Instr} {x : Effect} {e : Entry} (layout : s.layout = defaultLayout)
    (tzx : i.kind = .tzx) (entry : s.bt[s.cur]? = some e) (fits : ∀ n, payloadSize i = some n → e.offset + 1 + n ≤ s.len)
    (has : effect i s = some x) : x.out.Clean := by
  cases i with
  | std q len =>
    cases (map_entry entry _).symm.trans has
    have fits := fits _ rfl
    rw [layout]
    split
    · exact clean_halt _
    · exact clean_standard (by show e.offset + 1 + 4 + _ ≤ _; omega)
  | turbo a b c d e' f used q len =>
    cases (map_entry entry _).symm.trans has
    have fits := fits _ rfl
    rw [layout]
    exact clean_of_inside (pilotTrain_stops _ _) (by show e.offset + 1 + 0x12 + len.toNat ≤ s.len; omega)
  | pdata a b used q len =>
    cases (map_entry entry _).symm.trans has
    have fits := fits _ rfl
    rw [layout]
    exact clean_of_inside (pilotTrain_stops _ _) (by show e.offset + 1 + 0x0A + len.toNat ≤ s.len; omega)
  | direct tps q used len =>
    cases (map_entry entry _).symm.trans has
    have fits := fits _ rfl
    rw [layout]
    exact clean_of_inside (directRecording_stops _ _) (by show e.offset + 1 + 8 + len.toNat ≤ s.len; omega)
  | tone pulseLength count =>
    cases (map_entry entry _).symm.trans has
    exact clean_paused fun q => clean_of_inside (pilotTrain_stops s.img (toneLoad pulseLength count q PulseRegs.reset))
      (by cases q <;> exact Nat.zero_le _)
  | pulses n =>
    cases (map_entry entry _).symm.trans has
    have fits := fits _ rfl
    refine clean_paused fun q => clean_of_stops (seq_stops (fun w stop truncated => ?_) all_stops)
    have beyond := (listedPulses_stops _ _ _ _ w stop).2
    rw [layout] at beyond
    change s.len < e.offset + 1 + 1 + 2 * (n.setWidth 24).toNat at beyond
    rw [BitVec.toNat_setWidth_of_le (by decide)] at beyond
    omega
  | gdb blen q totp npp asp totd npd asd =>
    cases (map_entry entry _).symm.trans has
    exact clean_gdb layout _ ⟨q, totp, npp, asp, totd, npd, asd⟩
  | taprec n => cases tzx
  | loope => cases has; unfold Effect.loope; split <;> exact clean_of_stops all_stops
  | _ => cases has; exact clean_of_stops all_stops

/-- Under the default layout what a running session runs was emitting nothing when the end of the image stopped it. -/
theorem clean_of_run {s : State} {i : Instr} {x : Effect} (layout : s.layout = defaultLayout) (moves : move s = .run i)
    (has : effect i s = some x) : x.out.Clean := by
  cases kind : s.input.kind with
  | tap =>
    obtain ⟨n, rfl, fits⟩ := move_tap_run kind moves
    cases has
    dsimp only
    split
    · exact clean_halt _
    · exact clean_standard fits
  | tzx =>
    obtain ⟨e, size, entry, sized, fits, decoded⟩ := move_tzx_run kind moves
    rw [layout] at sized decoded
    exact clean_of_entry layout (decodeBody_kind decoded) entry (fun n counted => payloadSize_of_decodeBody decoded sized counted ▸ fits) has

/-- A session start that fails emits nothing (R121, R122). -/
theorem startSession_failed {s : State} (failed : (startSession s).phase = .failed) :
    (startSession s).trace = s.trace ∧ (startSession s).sink = s.sink ∧ (startSession s).err.isSome = true := by
  cases kind : s.input.kind with
  | tzx =>
    rw [startSession_of_tzx kind] at *
    cases error : headerError s.params s.img with
    | none => rw [startTzx_of_accepted error] at failed; cases failed
    | some e => rw [startTzx_of_error error]; exact ⟨rfl, rfl, rfl⟩
  | tap => rw [startSession_of_tap kind] at failed; cases failed

/-- Indexing that fails emits nothing (R126). -/
theorem indexStep_failed {s : State} (indexing : s.phase = .indexing) (failed : (indexStep s).phase = .failed) :
    (indexStep s).trace = s.trace ∧ (indexStep s).sink = s.sink ∧ (indexStep s).err.isSome = true := by
  cases read : s.img.read s.pos with
  | some t =>
    rw [indexStep_of_read read] at failed
    exact absurd (indexing.symm.trans failed) (by decide)
  | none =>
    by_cases empty : s.bt = []
    · rw [indexStep_of_empty read empty]; exact ⟨rfl, rfl, rfl⟩
    · rw [indexStep_of_blocks read empty] at failed; cases failed

/-- Settles O15: nothing before a running session emits where it fails, and what a running session runs was emitting
nothing. -/
theorem failingStepsEmitNothing : Obligations.FailingStepsEmitNothing := by
  intro s t layout live stepped failed
  rcases step_cases stepped with ⟨idle, rfl⟩ | ⟨indexing, rfl⟩ | ⟨running, rest⟩
  · exact startSession_failed failed
  · exact indexStep_failed indexing failed
  · rcases rest with ⟨_, rfl⟩ | ⟨i, x, moves, has, rfl⟩ | ⟨_, rfl⟩ | ⟨o, _, rfl⟩
    · unfold anyEpilogue at failed; split at failed <;> cases failed
    · rcases run_cases x s with ⟨_, phase, _⟩ | ⟨stop, _, err, _⟩ | ⟨_, _, phase, _⟩
      · rw [phase, running] at failed; cases failed
      · have nothing := clean_of_run layout moves has stop
        rw [run_trace, run_sink, nothing, err]
        exact ⟨List.append_nil _, rfl, rfl⟩
      · rw [phase] at failed; cases failed
    · rw [skip_phase, running] at failed; cases failed
    · exact ⟨rfl, rfl, rfl⟩

end Sys2Proof.Machine
end

section
/-! Generalized blocks under the default layout: what their streams play, and what refuses them
(45_generalized.md sections 1 to 4). -/

namespace Sys2Proof.Machine

open Sys2Proof

/-! ### Symbols that play and symbols that are refused (R203, R210, R211) -/

/-- The flags bytes with a meaning (R90). -/
theorem polarity_isSome (v : Byte) : (polarity defaultLayout.symbol v).isSome = true ↔ v.toNat ≤ 3 := by
  show (if v.toNat = 0 then some [] else if v.toNat = 1 then some [.toggleLevel]
    else if v.toNat = 2 then some [.setLevelLow] else if v.toNat = 3 then some [.setLevelHigh] else none :
      Option (List Command)).isSome = true ↔ _
  split_ifs <;> simp <;> omega

section
variable {m : Memory} {tab maxp asz : Nat}

/-- A symbol is in its alphabet and has a flags byte with a meaning. -/
def GoodSymbol (m : Memory) (tab maxp asz idx : Nat) : Prop :=
  idx < asz ∧ (symbolFlags defaultLayout.symbol m tab maxp idx).toNat ≤ 3

/-- The reason a symbol is refused for. -/
def badSymbol (asz idx : Nat) : SessionRefusal := if asz ≤ idx then .symbolIndexRange else .symbolFlagsRange

theorem symbolPlays_iff {idx : Nat} :
    symbolPlays defaultLayout.symbol m tab maxp asz idx = true ↔ GoodSymbol m tab maxp asz idx := by
  simp [symbolPlays, GoodSymbol, polarity_isSome]

variable (symbols : tab + (2 * maxp + 1) * asz ≤ m.len)
include symbols

theorem symbol_of_plays (idx : Nat) (plays : symbolPlays defaultLayout.symbol m tab maxp asz idx = true) :
    symbol defaultLayout.symbol m tab maxp asz idx =
      Emission.all (symbolCommands defaultLayout.symbol m tab maxp idx) := by
  obtain ⟨flags, durations⟩ := symbolInside symbols idx (symbolPlays_iff.1 plays).1
  exact symbol_eq plays flags durations

theorem symbol_of_bad {idx : Nat}
    (bad : asz ≤ idx ∨ 3 < (symbolFlags defaultLayout.symbol m tab maxp idx).toNat) :
    symbol defaultLayout.symbol m tab maxp asz idx = Emission.halt (.refuse (badSymbol asz idx)) := by
  unfold badSymbol
  split
  · exact symbol_of_range ‹_›
  · rename_i below
    refine symbol_of_flags (not_le.1 below) (symbolInside symbols idx (not_le.1 below)).1 ?_
    rw [← Option.not_isSome_iff_eq_none, polarity_isSome, not_le]
    exact bad.resolve_left below

/-! ### The streams (R205, R206) -/

/-- The first entries of a run-length table play, those that are replayed being good. -/
theorem replayRle_of_good {a n : Nat} (inside : a + 3 * n ≤ m.len)
    (good : ∀ r, r < n → rleRepeat defaultLayout m a r ≠ 0 →
      GoodSymbol m tab maxp asz (rleSymbol defaultLayout m a r)) :
    replayRle defaultLayout m tab maxp asz a n = Emission.all (rleCommands defaultLayout m tab maxp a n) :=
  replayRle_eq defaultLayout m tab maxp asz (symbol_of_plays symbols) n a
    (fun r below => (entryInside inside r below).1) (fun r below => (entryInside inside r below).2)
    fun r below replayed => symbolPlays_iff.2 (good r below replayed)

/-- The first bad entry stops a run-length table. -/
theorem replayRle_of_bad {a n r : Nat} (inside : a + 3 * n ≤ m.len) (among : r < n)
    (good : ∀ k, k < r → rleRepeat defaultLayout m a k ≠ 0 →
      GoodSymbol m tab maxp asz (rleSymbol defaultLayout m a k))
    (replayed : rleRepeat defaultLayout m a r ≠ 0)
    (bad : asz ≤ rleSymbol defaultLayout m a r ∨
      3 < (symbolFlags defaultLayout.symbol m tab maxp (rleSymbol defaultLayout m a r)).toNat) :
    replayRle defaultLayout m tab maxp asz a n =
      { cmds := rleCommands defaultLayout m tab maxp a r
        stop := some (.refuse (badSymbol asz (rleSymbol defaultLayout m a r))) } := by
  obtain ⟨index, count⟩ := entryInside inside r among
  obtain ⟨idx, idxRead⟩ := exists_field (n := 8) index
  obtain ⟨reps, repsRead⟩ := exists_field (n := 16) count
  rw [rleSymbol, idxRead, Option.getD_some] at bad ⊢
  rw [rleRepeat, repsRead, Option.getD_some] at replayed
  obtain ⟨rest, split⟩ : ∃ rest, n = r + (rest + 1) := ⟨n - r - 1, by omega⟩
  obtain ⟨times, isTimes⟩ := Nat.exists_eq_succ_of_ne_zero replayed
  have entry : replayRle defaultLayout m tab maxp asz (a + defaultLayout.rle.size * r) (rest + 1) =
      Emission.halt (.refuse (badSymbol asz idx.toNat)) := by
    simp only [replayRle, idxRead, repsRead]
    rw [symbol_of_bad symbols bad, show reps.toNat = times + 1 from isTimes]
    rfl
  rw [split, replayRle_add, replayRle_of_good symbols (by omega) good, entry, all_seq]
  simp [Emission.halt]

/-- A good packed stream plays. -/
theorem replayData_of_good {nb str n : Nat} {msb : Bool} (inside : ∀ k, k < n * nb → str + k / 8 < m.len)
    (good : ∀ j, j < n → GoodSymbol m tab maxp asz (packedIndex msb m str nb j)) :
    replayData defaultLayout msb m tab maxp asz nb str 0 n =
      { out := Emission.all (dataCommands defaultLayout msb m tab maxp nb str n), bitpos := n * nb } := by
  have replay := replayData_eq defaultLayout msb m tab maxp asz nb str (symbol_of_plays symbols) n 0
    (by rwa [Nat.zero_add]) (fun j below => by rw [Nat.zero_add]; exact symbolPlays_iff.2 (good j below))
  simp only [Nat.zero_mul, Nat.zero_add] at replay
  exact replay

/-- The first bad symbol stops a packed stream. -/
theorem replayData_of_bad {nb str n j : Nat} {msb : Bool} (inside : ∀ k, k < n * nb → str + k / 8 < m.len)
    (among : j < n) (good : ∀ k, k < j → GoodSymbol m tab maxp asz (packedIndex msb m str nb k))
    (bad : asz ≤ packedIndex msb m str nb j ∨
      3 < (symbolFlags defaultLayout.symbol m tab maxp (packedIndex msb m str nb j)).toNat) :
    (replayData defaultLayout msb m tab maxp asz nb str 0 n).out =
      { cmds := dataCommands defaultLayout msb m tab maxp nb str j
        stop := some (.refuse (badSymbol asz (packedIndex msb m str nb j))) } := by
  obtain ⟨rest, split⟩ : ∃ rest, n = j + (rest + 1) := ⟨n - j - 1, by omega⟩
  have upTo : (j + 1) * nb ≤ n * nb := Nat.mul_le_mul_right _ among
  rw [Nat.succ_mul] at upTo
  have first := replayData_of_good symbols (msb := msb) (fun k below => inside k (by omega)) good
  have read := streamBits_eq m str nb (j * nb) fun k below => inside _ (by omega)
  have index : indexOfBits msb ((List.range nb).map fun k => (streamBit m str (j * nb + k)).getD false) =
      packedIndex msb m str nb j := indexOfBits_range _ _ _
  have entry : (replayData defaultLayout msb m tab maxp asz nb str (0 + j * nb) (rest + 1)).out =
      Emission.halt (.refuse (badSymbol asz (packedIndex msb m str nb j))) := by
    rw [Nat.zero_add]
    simp only [replayData, read, index]
    rw [symbol_of_bad symbols bad]
    rfl
  rw [split, replayData_add _ _ _ _ _ _ _ _ _ _ _ (by rw [first]; rfl), first, entry, all_seq]
  simp [Emission.halt]

end

end Sys2Proof.Machine
end

section
/-! The generalized block under the default layout: played whole, beyond the image, or refused for a symbol. -/

namespace Sys2Proof.Machine

open Sys2Proof

namespace GdbFields

variable (F : GdbFields) (o : Nat) (m : Memory) (msb : Bool)

/-- The first `n` entries of the run-length table are good where they are replayed. -/
def PilotsGood (n : Nat) : Prop :=
  ∀ r, r < n → rleRepeat defaultLayout m (F.rle o) r ≠ 0 →
    GoodSymbol m (symP o) F.npp.toNat (alphabetSize F.asp) (rleSymbol defaultLayout m (F.rle o) r)

/-- The first `n` packed symbols are good. -/
def DatasGood (n : Nat) : Prop :=
  ∀ j, j < n → GoodSymbol m (F.symD o) F.npd.toNat (alphabetSize F.asd) (packedIndex msb m (F.str o) F.nb j)

/-- The commands of the first `n` run-length entries. -/
def pilotCommands (n : Nat) : List Command := rleCommands defaultLayout m (symP o) F.npp.toNat (F.rle o) n

/-- The commands of the first `n` packed symbols. -/
def symbolsCommands (n : Nat) : List Command :=
  dataCommands defaultLayout msb m (F.symD o) F.npd.toNat F.nb (F.str o) n

end GdbFields

variable {s : State} {F : GdbFields} {o : Nat} {g : SymbolRegs} {m : Memory} {msb : Bool}

theorem ne_zero_of_lt {v : Word32} {k : Nat} (among : k < v.toNat) : v ≠ 0 := by
  rintro rfl
  exact absurd among (Nat.not_lt_zero k)

theorem stop_le {n : Nat} (start : GdbFields.symP o ≤ n) (pilots : F.totp ≠ 0 → F.symD o ≤ n)
    (datas : F.totd ≠ 0 → F.str o + (F.nb * F.totd.toNat + 7) / 8 ≤ n) : F.stop o ≤ n := by
  unfold GdbFields.stop
  split
  · by_cases none : F.totp = 0
    · rwa [GdbFields.symD, if_pos none]
    · exact pilots none
  · exact datas ‹_›

/-- A good pilot/sync stream plays (R205). -/
theorem pilotStream_of_good (inside : F.stop o ≤ m.len) (good : F.PilotsGood o m F.totp.toNat) :
    pilotStream defaultLayout m (F.load g) (F.tables o g) = Emission.all (F.pilotCommands o m F.totp.toNat) := by
  rw [pilotStream_eq, GdbFields.pilotCommands]
  by_cases none : F.totp = 0
  · rw [none]
    rfl
  · obtain ⟨symbols, entries⟩ := pilots_inside none (symD_le_stop.trans inside)
    exact replayRle_of_good symbols entries good

/-- A good data stream plays (R206). -/
theorem dataStream_of_good (inside : F.stop o ≤ m.len) (datas : F.totd ≠ 0)
    (good : F.DatasGood o m msb F.totd.toNat) :
    dataStream defaultLayout msb m (F.load g) (F.tables o g) =
      { out := Emission.all (F.symbolsCommands o m msb F.totd.toNat), bitpos := F.totd.toNat * F.nb } := by
  obtain ⟨symbols, bits⟩ := datas_inside datas inside
  rw [dataStream_eq msb datas]
  exact replayData_of_good symbols bits good

theorem dataStream_out_of_good (inside : F.stop o ≤ m.len) (good : F.DatasGood o m msb F.totd.toNat) :
    (dataStream defaultLayout msb m (F.load g) (F.tables o g)).out =
      Emission.all (F.symbolsCommands o m msb F.totd.toNat) := by
  by_cases none : F.totd = 0
  · rw [dataStream_of_none msb none, none]
    rfl
  · rw [dataStream_of_good inside none good]

/-- `G.*` behind a block that has played (R30; log 16). -/
def GdbFields.regs (F : GdbFields) (o : Nat) (g : SymbolRegs) : SymbolRegs :=
  { F.load g with
    symtab := if F.totd ≠ 0 then F.symD o else if F.totp ≠ 0 then GdbFields.symP o else g.symtab
    stream := if F.totd ≠ 0 then F.str o else if F.totp ≠ 0 then F.rle o else g.stream
    bitpos := if F.totd ≠ 0 then F.totd.toNat * F.nb else g.bitpos }

theorem usePilotTables_tables :
    (F.load g).usePilotTables (F.tables o g) =
      { F.load g with
        symtab := if F.totp ≠ 0 then GdbFields.symP o else g.symtab
        stream := if F.totp ≠ 0 then F.rle o else g.stream } := by
  obtain ⟨symP, -, rle, -, -⟩ := tables_eq (F := F) (o := o) (g := g)
  by_cases none : F.totp = 0
  · simp [SymbolRegs.usePilotTables, GdbFields.load, gdbLoad, none]
  · rw [SymbolRegs.usePilotTables, if_pos (show 0 < (F.load g).totp.toNat from toNat_pos none), symP, rle none,
      if_pos none, if_pos none]

theorem gdbRegs_of_good (layout : s.layout = defaultLayout) (inside : F.stop o ≤ s.len)
    (pilots : F.PilotsGood o s.img F.totp.toNat)
    (datas : F.DatasGood o s.img s.params.symIndexMsbFirst F.totd.toNat) :
    gdbRegs { s with g := F.load s.g } (F.tables o s.g) = F.regs o s.g := by
  obtain ⟨-, symD, -, str, -⟩ := tables_eq (F := F) (o := o) (g := s.g)
  have plays := pilotStream_of_good (g := s.g) inside pilots
  unfold gdbRegs
  rw [show ({ s with g := F.load s.g } : State).layout = defaultLayout from layout]
  dsimp only
  rw [show pilotStream defaultLayout ({ s with g := F.load s.g } : State).img (F.load s.g) (F.tables o s.g) = _
    from plays]
  dsimp only [Emission.all]
  rw [dataStream_usePilotTables, usePilotTables_tables]
  by_cases none : F.totd = 0
  · simp [SymbolRegs.useDataTables, GdbFields.regs, GdbFields.load, gdbLoad, none]
  · rw [SymbolRegs.useDataTables, if_pos (show 0 < (F.load s.g).totd.toNat from toNat_pos none), symD, str none,
      GdbFields.regs, if_pos none, if_pos none, if_pos none,
      show dataStream defaultLayout ({ s with g := F.load s.g } : State).params.symIndexMsbFirst
        ({ s with g := F.load s.g } : State).img (F.load s.g) (F.tables o s.g) = _ from
      dataStream_of_good inside none datas]

/-- The register loads of a block that plays. -/
theorem effect_loadG_of_good (layout : s.layout = defaultLayout) (inside : F.stop o ≤ s.len)
    (pilots : F.PilotsGood o s.img F.totp.toNat)
    (datas : F.DatasGood o s.img s.params.symIndexMsbFirst F.totd.toNat) :
    (F.effect s o).loadG s.g = F.regs o s.g := by
  have ends := (tables_eq (F := F) (o := o) (g := SymbolRegs.reset)).2.2.2.2
  unfold GdbFields.effect Effect.gdb
  dsimp only
  rw [blank_tables layout, ends, if_neg (not_lt.2 inside)]
  exact gdbRegs_of_good layout inside pilots datas

/-- The event of a generalized block (R209; log 14). -/
theorem append_alphabetEvents (s : State) (asp asd : Byte) :
    s.diag ++ alphabetEvents s asp asd =
      if s.params.reportDiag = true ∧ (asp = 0 ∨ asd = 0) then
        s.diag ++ [{ kind := .alphabetSizeZero, blockIndex := s.cur }] else s.diag := by
  unfold alphabetEvents reported
  by_cases zero : asp = 0 ∨ asd = 0
  · rw [if_pos zero]
    by_cases reports : s.params.reportDiag = true
    · rw [if_pos reports, if_pos ⟨reports, zero⟩]
    · rw [if_neg reports, if_neg fun both => reports both.1, List.append_nil]
  · rw [if_neg zero, if_neg fun both => zero both.2, List.append_nil]

section
variable {e : Entry} (entry : s.bt[s.cur]? = some e) (F : GdbFields) (blen : Word32)
include entry

theorem effect_gdb :
    effect (.gdb blen F.pause F.totp F.npp F.asp F.totd F.npd F.asd) s = some (F.effect s e.offset) :=
  map_entry entry _

/-- A generalized block that is refused. -/
theorem exec_of_gdb_refused {cs : List Command} {w : SessionRefusal}
    (out : (F.effect s e.offset).out = { cmds := cs, stop := some (.refuse w) }) :
    ∃ t, exec (.gdb blen F.pause F.totp F.npp F.asp F.totd F.npd F.asd) s = .next t ∧
      t = { s with
        phase := .refused, why := some w, trace := s.trace ++ cs, sink := s.sink.applyAll cs
        p := { s.p with hasPause := F.pause.isSome }, g := t.g, diag := t.diag } := by
  have run : (F.effect s e.offset).run s = ((F.effect s e.offset).play s).refuse w := by
    simp [Effect.run, out]
  refine ⟨_, exec_eq_next.2 ⟨_, effect_gdb entry F blen, rfl⟩, ?_⟩
  rw [run, Effect.play, out]
  rfl

end

/-- Settles O42: both streams play, by induction over their entries, and the registers end behind them. -/
theorem generalizedBlockPlays : Obligations.GeneralizedBlockPlays := by
  intro s e blen q totp npp asp totd npd asd asP asD nb symP rle symD str msb layout entry pilots datas start
    pilotsGood datasGood cs
  let F : GdbFields := ⟨q, totp, npp, asp, totd, npd, asd⟩
  rw [layout] at pilotsGood datasGood
  have inside : F.stop e.offset ≤ s.len := stop_le start pilots datas
  have out := effect_out_of_inside layout F e.offset inside
  rw [pilotStream_of_good inside pilotsGood, dataStream_out_of_good inside datasGood, all_seq_all, all_seq_all,
    ← List.append_assoc] at out
  have run : (F.effect s e.offset).run s =
      { (F.effect s e.offset).play s with cur := s.cur + 1, pos := s.pos, loop := s.loop } := by
    simp only [Effect.run, out, Emission.all]
    rfl
  have loads := effect_loadG_of_good layout inside pilotsGood datasGood
  have commands : cs = F.pilotCommands e.offset s.img totp.toNat ++ F.symbolsCommands e.offset s.img msb totd.toNat ++
      optPausePlays q := by
    simp only [cs, layout]
    rfl
  refine exec_eq_next.2 ⟨_, effect_gdb entry F blen, ?_⟩
  rw [run, Effect.play, out, loads, show (F.effect s e.offset).events = alphabetEvents s asp asd from rfl,
    append_alphabetEvents, commands]
  rfl

/-- Settles O43: the extent check comes before any command. -/
theorem generalizedBlockBeyondImageFails : Obligations.GeneralizedBlockBeyondImageFails := by
  intro s e blen q totp npp asp totd npd asd asP asD symP rle symD str layout entry beyond
  let F : GdbFields := ⟨q, totp, npp, asp, totd, npd, asd⟩
  have beyond : s.len < F.stop e.offset := by
    rcases beyond with ⟨_, beyond⟩ | ⟨datas, beyond⟩
    · exact Nat.lt_of_lt_of_le beyond (symD_le_stop (F := F))
    · rwa [stop_of_datas (F := F) datas]
  refine ⟨_, exec_eq_next.2 ⟨_, effect_gdb entry F blen, rfl⟩, ?_⟩
  rw [run_of_halt_truncated (effect_out_of_beyond layout F e.offset beyond)]
  rfl

/-- Settles O44: the entries before the first bad one play, and that one stops the stream. -/
theorem badPilotSymbolIsRefused : Obligations.BadPilotSymbolIsRefused := by
  intro s e blen q totp npp asp totd npd asd r asP asD symP rle symD str idx flags layout entry among pilots datas
    good replayed bad cs
  let F : GdbFields := ⟨q, totp, npp, asp, totd, npd, asd⟩
  have present : F.totp ≠ 0 := ne_zero_of_lt among
  have ends : F.symD e.offset = symD := symD_of_pilots present
  have inside : F.stop e.offset ≤ s.len := by
    refine stop_le (le_trans ?_ pilots) (fun _ => ends.trans_le pilots) fun follows => ?_
    · exact (Nat.le_add_right _ _).trans (Nat.le_add_right _ _)
    · rw [GdbFields.str, ends]
      exact datas follows
  obtain ⟨symbols, entries⟩ := pilots_inside present (ends.trans_le pilots)
  simp only [flags, idx, layout] at good replayed bad
  have stops := replayRle_of_bad symbols entries among good replayed bad
  have out : (F.effect s e.offset).out =
      { cmds := cs, stop := some (.refuse (badSymbol asP (idx r))) } := by
    rw [effect_out_of_inside layout F e.offset inside, pilotStream_eq, seq_of_stop (by rw [stops]), stops]
    simp only [cs, idx, layout]
    rfl
  exact exec_of_gdb_refused entry F blen out

/-- Settles O45: the pilot/sync stream and the symbols before the first bad one play, and that one stops the
stream. -/
theorem badDataSymbolIsRefused : Obligations.BadDataSymbolIsRefused := by
  intro s e blen q totp npp asp totd npd asd j asP asD nb symP rle symD str msb idx flags layout entry among inside
    pilotsGood good bad cs
  let F : GdbFields := ⟨q, totp, npp, asp, totd, npd, asd⟩
  have present : F.totd ≠ 0 := ne_zero_of_lt among
  have inside : F.stop e.offset ≤ s.len := (stop_of_datas present).trans_le inside
  obtain ⟨symbols, bits⟩ := datas_inside present inside
  simp only [flags, layout] at pilotsGood good bad
  have stops := replayData_of_bad symbols bits among good bad
  have out : (F.effect s e.offset).out =
      { cmds := cs, stop := some (.refuse (badSymbol asD (idx j))) } := by
    rw [effect_out_of_inside layout F e.offset inside, pilotStream_of_good inside pilotsGood, dataStream_eq _ present,
      stops, all_seq, seq_of_stop (a := ⟨_, some _⟩) rfl]
    simp only [cs, layout]
    rfl
  exact exec_of_gdb_refused entry F blen out

end Sys2Proof.Machine
end
